-- ==== Sys2Proof/Word.lean ====
section
/-! DEFINITION. The word and byte types (00_scope.md R4 to R6). -/

namespace Sys2Proof

/-- A 32-bit pattern: a general register, the pc, an address, an instruction word (00_scope.md R4, XLEN = ILEN = 32).
`u(v)` of R6 is `BitVec.toNat v`, `s(v)` is `BitVec.toInt v`, `trunc_32` is `BitVec.ofInt 32` or `BitVec.ofNat 32`. -/
abbrev Word := BitVec 32

/-- The addressable unit (00_scope.md R4). -/
abbrev Byte := BitVec 8

/-- The number of bytes of the address space (20_memory.md R40). -/
abbrev addressSpace : Nat := 2 ^ 32

end Sys2Proof
end

