-- ==== Sys2Proof/Config.lean ====
section
/-! DEFINITION. What an implementation or a platform fixes: the types of the open parameters of 00_scope.md R4 that are
data, and the free values (the four open functions of 92_eei_decisions.md D24), which have no body. The values the
parameters take after reset are in Machine/Defaults.lean. -/

namespace Sys2Proof

/-- An access width: 1, 2 or 4 bytes (20_memory.md R42). -/
inductive Width where
  | byte | half | word
  deriving DecidableEq, Repr

/-- The number of bytes of a width (20_memory.md R42). -/
def Width.bytes : Width → Nat
  | .byte => 1
  | .half => 2
  | .word => 4

/-- The kinds of access the platform may allow or not (20_memory.md R44): `ValidFetch(a)`, `ValidLoad(a, n)`,
`ValidStore(a, n)`. -/
inductive Access where
  | fetch
  | load (w : Width)
  | store (w : Width)
  deriving DecidableEq, Repr

/-- The number of bytes an access touches: a fetch takes 4 (20_memory.md R42). -/
def Access.bytes : Access → Nat
  | .fetch => 4
  | .load w => w.bytes
  | .store w => w.bytes

/-- One line of the platform's memory layout: the accesses it allows to the bytes `base .. base + size - 1`. An access
is valid when some window allows it and holds all its bytes (notes/assumptions/5.md). Since a window may hold a single
access, every choice of the three predicates of 20_memory.md R44 on naturally aligned accesses is some list of windows. -/
structure Window where
  base   : Nat
  size   : Nat
  allows : List Access
  deriving DecidableEq, Repr

/-- `MISALIGNED_DATA` (20_memory.md R43): what a data access that is not naturally aligned does. `refuse` is the spec's
setting; the other three are the behaviours R43 names and does not choose between (notes/assumptions/8.md). -/
inductive MisalignedData where
  | refuse
  | trap
  | splitBytes
  | ignoreLowBits
  deriving DecidableEq, Repr

/-- `MISALIGNED_FETCH` (20_memory.md R46): what a fetch with `pc[1:0] ≠ 0` does. `refuse` is the spec's setting
(notes/assumptions/9.md). -/
inductive MisalignedFetch where
  | refuse
  | trap
  | ignoreLowBits
  deriving DecidableEq, Repr

/-- `IFETCH_SEES_STORES` (20_memory.md R54): `unset` refuses a fetch of a byte that a store of the run has written, `sees`
fetches the stored byte, `seesNot` fetches the byte of the initial image (notes/assumptions/10.md). -/
inductive FetchCoherence where
  | unset
  | sees
  | seesNot
  deriving DecidableEq, Repr

/-- What a word does that matches no row of the opcode table and that the RISC-V base ISA assigns
(93_implementation_defined.md U6): `refuse` is the treatment of U6 and D16, `trap` is 30_encoding.md R80 as written
(notes/assumptions/12.md). -/
inductive UnlistedWords where
  | refuse
  | trap
  deriving DecidableEq, Repr

/-- `SIMD_OVF` (48_simd.md R191): which reading of a lane counts for its overflow. -/
inductive SimdOvf where
  | signed
  | unsigned
  | either
  deriving DecidableEq, Repr

/-- `MACI_ROLE` (93_implementation_defined.md U4): the operand role of MACI's immediate. -/
inductive MaciRole where
  | immIsAddend
  | immIsFactor
  deriving DecidableEq, Repr

/-- The six exception types of the source (60_exceptions.md R230, R231). -/
inductive Cause where
  | instructionAccessFault
  | illegalInstruction
  | loadAccessFault
  | storeAccessFault
  | arithmeticOverflow
  | divisionByZero
  deriving DecidableEq, Repr

/-- The six numeric codes `CAUSE_*` (60_exceptions.md R231; open to replace, D25). -/
structure CauseCodes where
  instructionAccessFault : Word
  illegalInstruction     : Word
  loadAccessFault        : Word
  storeAccessFault       : Word
  arithmeticOverflow     : Word
  divisionByZero         : Word
  deriving DecidableEq, Repr

/-- The fixed bits of the words of one instruction (30_encoding.md R75): a word `w` is one of them when
`w & mask = pattern`. -/
structure Pattern where
  mask    : Word
  pattern : Word
  deriving DecidableEq, Repr

/-- A field of an instruction word: its bits `lo + width - 1` down to `lo` (00_scope.md R5). -/
structure Slice where
  lo    : Nat
  width : Nat
  deriving DecidableEq, Repr

/-- `ENC` (00_scope.md R4; 30_encoding.md R75 to R79): the bit patterns of the 55 instructions, in the order of
spec/opcode_table.json, and the two places that no layout of the source gives and the spec chose for MAC, MACU (R66) and
MACI (R67): the lowest bit of the field `rs3`, and the fields of MACI's immediate, the most significant first
(notes/assumptions/11.md). -/
structure Enc where
  patterns : Vector Pattern 55
  rs3At    : Nat
  maciImm  : List Slice
  deriving DecidableEq, Repr

/-- The open parameters of 00_scope.md R4 that are data. State carries them, no step changes them, and a statement about
every state holds for every choice of them (notes/assumptions/5.md). -/
structure Params where
  windows         : List Window
  misalignedData  : MisalignedData
  misalignedFetch : MisalignedFetch
  fetchCoherence  : FetchCoherence
  unlistedWords   : UnlistedWords
  simdOvf         : SimdOvf
  maciRole        : MaciRole
  causes          : CauseCodes
  enc             : Enc
  deriving DecidableEq, Repr

/-- `SHIFT4_FN` (48_simd.md R198): a free value, the same for the same operands; `none` is the token overflow
(notes/assumptions/19.md). -/
opaque Config.shift4Fn : Word → Word → Option Word

/-- `CLIP_FN` (49_dsp_specific.md R211): a free value, the same for the same operands (notes/assumptions/19.md). -/
opaque Config.clipFn : Word → Word → Word

/-- `ROUND_FN` (49_dsp_specific.md R212): a free value, the same for the same operand (notes/assumptions/19.md). -/
opaque Config.roundFn : Word → Word

/-- `CIRC_FN` (49_dsp_specific.md R214): a free value, the same for the same operands (notes/assumptions/19.md). -/
opaque Config.circFn : Word → Word → Word

end Sys2Proof
end

