-- ==== Sys2Proof/Machine/Bytes.lean ====
section
/-! DEFINITION. Byte order: how 8-, 16- and 32-bit values stand for bytes (20_memory.md R41, little-endian). -/

namespace Sys2Proof

/-- Byte `i` of a word, bits `8i+7 : 8i` (20_memory.md R41). -/
def byteOf (v : Word) (i : Nat) : Byte := v.extractLsb' (8 * i) 8

/-- The word whose byte at the lowest address is `b0`: `{ b3, b2, b1, b0 }` (20_memory.md R41). -/
def wordOfBytes (b0 b1 b2 b3 : Byte) : Word := b3 ++ b2 ++ b1 ++ b0

/-- The halfword `{ b1, b0 }` (20_memory.md R41). -/
def halfOfBytes (b0 b1 : Byte) : BitVec 16 := b1 ++ b0

end Sys2Proof
end

