-- ==== Sys2Proof/Syntax.lean ====
section
/-! DEFINITION. The instructions, one constructor per row of spec/opcode_table.json, in the table's order (00_scope.md R2).
Register operands are numbers 0 to 31. An immediate operand is the 32-bit value `imm` of 30_encoding.md R69 to R74, already
sign-extended; which values an encoding can hold is WellFormed's. A shift amount is 0 to 31 (R70). -/

namespace Sys2Proof

/-- A register number (10_state.md R21). -/
abbrev Reg := Fin 32

/-- A shift amount, the 5-bit field of 30_encoding.md R70. -/
abbrev Shamt := Fin 32

/-- The 55 instructions (00_scope.md R2), operands in the assembler's order (30_encoding.md R82) except that a store names
its base register `rs1` before the register `rs2` it stores (44_load_store.md R141). -/
inductive Instr where
  -- Arithmetic (40_arithmetic.md)
  | add (rd rs1 rs2 : Reg)
  | sub (rd rs1 rs2 : Reg)
  | addi (rd rs1 : Reg) (imm : Word)
  | subi (rd rs1 : Reg) (imm : Word)
  -- Logical (41_logical.md)
  | and (rd rs1 rs2 : Reg)
  | or (rd rs1 rs2 : Reg)
  | xor (rd rs1 rs2 : Reg)
  | andi (rd rs1 : Reg) (imm : Word)
  | ori (rd rs1 : Reg) (imm : Word)
  | xori (rd rs1 : Reg) (imm : Word)
  -- Shift (42_shift.md)
  | sll (rd rs1 rs2 : Reg)
  | srl (rd rs1 rs2 : Reg)
  | sra (rd rs1 rs2 : Reg)
  | slli (rd rs1 : Reg) (shamt : Shamt)
  | srli (rd rs1 : Reg) (shamt : Shamt)
  | srai (rd rs1 : Reg) (shamt : Shamt)
  -- Comparison (43_compare.md)
  | slt (rd rs1 rs2 : Reg)
  | sltu (rd rs1 rs2 : Reg)
  | slti (rd rs1 : Reg) (imm : Word)
  | sltiu (rd rs1 : Reg) (imm : Word)
  -- Memory (44_load_store.md)
  | lb (rd rs1 : Reg) (imm : Word)
  | lh (rd rs1 : Reg) (imm : Word)
  | lw (rd rs1 : Reg) (imm : Word)
  | lbu (rd rs1 : Reg) (imm : Word)
  | lhu (rd rs1 : Reg) (imm : Word)
  | sb (rs1 rs2 : Reg) (imm : Word)
  | sh (rs1 rs2 : Reg) (imm : Word)
  | sw (rs1 rs2 : Reg) (imm : Word)
  -- Branch (45_branch.md)
  | beq (rs1 rs2 : Reg) (imm : Word)
  | bne (rs1 rs2 : Reg) (imm : Word)
  | blt (rs1 rs2 : Reg) (imm : Word)
  | bge (rs1 rs2 : Reg) (imm : Word)
  | bltu (rs1 rs2 : Reg) (imm : Word)
  | bgeu (rs1 rs2 : Reg) (imm : Word)
  -- Jump (46_jump.md)
  | jal (rd : Reg) (imm : Word)
  | jalr (rd rs1 : Reg) (imm : Word)
  -- MAC (47_mac.md)
  | mac (rd rs1 rs2 rs3 : Reg)
  | maci (rd rs1 rs2 : Reg) (imm : Word)
  | macu (rd rs1 rs2 rs3 : Reg)
  -- SIMD (48_simd.md)
  | add4 (rd rs1 rs2 : Reg)
  | sub4 (rd rs1 rs2 : Reg)
  | mul4 (rd rs1 rs2 : Reg)
  | and4 (rd rs1 rs2 : Reg)
  | or4 (rd rs1 rs2 : Reg)
  | xor4 (rd rs1 rs2 : Reg)
  | shift4 (rd rs1 rs2 : Reg)
  | add2 (rd rs1 rs2 : Reg)
  | sub2 (rd rs1 rs2 : Reg)
  | mul2 (rd rs1 rs2 : Reg)
  -- DSP-specific (49_dsp_specific.md)
  | sat (rd rs1 : Reg)
  | clip (rd rs1 rs2 : Reg)
  | round (rd rs1 : Reg)
  | bitReverse (rd rs1 : Reg)
  | circularAddr (rd rs1 rs2 : Reg)
  -- Exception return (60_exceptions.md)
  | mret
  deriving DecidableEq, Repr

end Sys2Proof
end

