-- ==== Sys2Proof/WellFormed.lean ====
section
/-! DEFINITION. Which instructions an instruction word can hold: the ranges of the immediates (30_encoding.md R69 to R74).
Register numbers and shift amounts are in range by their types. -/

namespace Sys2Proof

/-- `imm` is the sign extension of its own low `n` bits, that is `-2^(n-1) ≤ s(imm) ≤ 2^(n-1) - 1`. -/
def fitsSext (n : Nat) (imm : Word) : Bool :=
  (imm.setWidth n).signExtend 32 == imm

/-- Bit 0 of `imm` is 0: the B- and J-immediates are multiples of 2 (30_encoding.md R72, R73). -/
def isEven (imm : Word) : Bool :=
  !imm.getLsbD 0

/-- An I-immediate or S-immediate, in [-2048, 2047] (30_encoding.md R69, R71). -/
def immOkI (imm : Word) : Bool := fitsSext 12 imm

/-- A B-immediate, an even value in [-4096, 4094] (30_encoding.md R72). -/
def immOkB (imm : Word) : Bool := fitsSext 13 imm && isEven imm

/-- A J-immediate, an even value in [-1048576, 1048574] (30_encoding.md R73). -/
def immOkJ (imm : Word) : Bool := fitsSext 21 imm && isEven imm

/-- The check of one instruction, where MACI's immediate field has `n` bits: its immediate is one that its encoding can
hold. -/
def Instr.fits (n : Nat) : Instr → Bool
  | .add _ _ _ | .sub _ _ _ | .and _ _ _ | .or _ _ _ | .xor _ _ _ => true
  | .sll _ _ _ | .srl _ _ _ | .sra _ _ _ | .slt _ _ _ | .sltu _ _ _ => true
  | .slli _ _ _ | .srli _ _ _ | .srai _ _ _ => true
  | .addi _ _ imm | .subi _ _ imm | .andi _ _ imm | .ori _ _ imm | .xori _ _ imm => immOkI imm
  | .slti _ _ imm | .sltiu _ _ imm => immOkI imm
  | .lb _ _ imm | .lh _ _ imm | .lw _ _ imm | .lbu _ _ imm | .lhu _ _ imm => immOkI imm
  | .sb _ _ imm | .sh _ _ imm | .sw _ _ imm => immOkI imm
  | .beq _ _ imm | .bne _ _ imm | .blt _ _ imm | .bge _ _ imm | .bltu _ _ imm | .bgeu _ _ imm => immOkB imm
  | .jal _ imm => immOkJ imm
  | .jalr _ _ imm => immOkI imm
  | .mac _ _ _ _ | .macu _ _ _ _ => true
  | .maci _ _ _ imm => fitsSext n imm
  | .add4 _ _ _ | .sub4 _ _ _ | .mul4 _ _ _ | .and4 _ _ _ | .or4 _ _ _ | .xor4 _ _ _ => true
  | .shift4 _ _ _ | .add2 _ _ _ | .sub2 _ _ _ | .mul2 _ _ _ => true
  | .sat _ _ | .clip _ _ _ | .round _ _ | .bitReverse _ _ | .circularAddr _ _ _ => true
  | .mret => true

/-- The check at the spec's encoding, where MACI's immediate is 10 bits, in [-512, 511] (30_encoding.md R74). -/
def Instr.wellFormed (i : Instr) : Bool := i.fits 10

/-- `i` is well formed: some instruction word of the spec's encoding holds it. -/
abbrev WellFormed (i : Instr) : Prop := i.wellFormed = true

end Sys2Proof
end

