-- ==== Sys2Proof/Decode.lean ====
section
/-! DEFINITION. Instruction encoding (30_encoding.md): the fields of a word, the opcode table, the decoder, which is total
on any bytes and rejects by name, and after it the encoder. -/

namespace Sys2Proof

/-! ## The fields of an instruction word (30_encoding.md R61 to R74) -/

/-- `opcode = inst[6:0]` (30_encoding.md R61). -/
def opcodeOf (w : Word) : BitVec 7 := w.extractLsb' 0 7

/-- `rd = inst[11:7]` (30_encoding.md R61). -/
def rdOf (w : Word) : Reg := (w.extractLsb' 7 5).toFin

/-- `funct3 = inst[14:12]` (30_encoding.md R61). -/
def funct3Of (w : Word) : BitVec 3 := w.extractLsb' 12 3

/-- `rs1 = inst[19:15]` (30_encoding.md R61). -/
def rs1Of (w : Word) : Reg := (w.extractLsb' 15 5).toFin

/-- `rs2 = inst[24:20]` (30_encoding.md R61). -/
def rs2Of (w : Word) : Reg := (w.extractLsb' 20 5).toFin

/-- `rs3`, which stands at `inst[31:27]` in the spec's encoding (30_encoding.md R66). -/
def Enc.rs3Of (e : Enc) (w : Word) : Reg := (w.extractLsb' e.rs3At 5).toFin

/-- `funct7 = inst[31:25]` (30_encoding.md R61). -/
def funct7Of (w : Word) : BitVec 7 := w.extractLsb' 25 7

/-- `shamt = inst[24:20]` (30_encoding.md R70). -/
def shamtOf (w : Word) : Shamt := (w.extractLsb' 20 5).toFin

/-- The I-immediate, `sext_32(inst[31:20])` (30_encoding.md R69). -/
def immI (w : Word) : Word := (w.extractLsb' 20 12).signExtend 32

/-- The S-immediate, `sext_32({inst[31:25], inst[11:7]})` (30_encoding.md R71). -/
def immS (w : Word) : Word := (w.extractLsb' 25 7 ++ w.extractLsb' 7 5).signExtend 32

/-- The B-immediate, `sext_32({inst[31], inst[7], inst[30:25], inst[11:8], 1'b0})` (30_encoding.md R72). -/
def immB (w : Word) : Word :=
  (w.extractLsb' 31 1 ++ w.extractLsb' 7 1 ++ w.extractLsb' 25 6 ++ w.extractLsb' 8 4 ++ 0#1).signExtend 32

/-- The J-immediate, `sext_32({inst[31], inst[19:12], inst[20], inst[30:21], 1'b0})` (30_encoding.md R73). -/
def immJ (w : Word) : Word :=
  (w.extractLsb' 31 1 ++ w.extractLsb' 12 8 ++ w.extractLsb' 20 1 ++ w.extractLsb' 21 10 ++ 0#1).signExtend 32

/-- The number of bits of a list of fields. -/
def totalWidth : List Slice → Nat
  | [] => 0
  | x :: xs => x.width + totalWidth xs

/-- The bits of a field, at the low end of a word (00_scope.md R5). -/
def Slice.get (x : Slice) (w : Word) : Word := (w.extractLsb' x.lo x.width).setWidth 32

/-- The bits of the listed fields side by side, the first in the most significant place (00_scope.md R5). -/
def gather (w : Word) : List Slice → Word
  | [] => 0
  | x :: xs => (x.get w <<< totalWidth xs) ||| gather w xs

/-- The I4-immediate, `sext_32({inst[31:25], inst[14:12]})` in the spec's encoding (30_encoding.md R74). -/
def Enc.immI4 (e : Enc) (w : Word) : Word := ((gather w e.maciImm).setWidth (totalWidth e.maciImm)).signExtend 32

/-! ## The opcode table (30_encoding.md R75 to R79) -/

/-- The layouts of 30_encoding.md R61 to R70, the column `format` of spec/opcode_table.json: `r2` is R-type with no `rs2`
operand (R68), `shift` the split I-type (R70), `fixed` a word without operands (R79). -/
inductive Format where
  | r | r2 | i | shift | s | b | j | r4 | i4 | fixed
  deriving DecidableEq, Repr

/-- One row of spec/opcode_table.json: the spec's bit pattern, and what a word with the pattern of the row, whichever `ENC`
gives it, stands for. -/
structure SpecRow where
  mnemonic : String
  format   : Format
  mask     : Word
  pattern  : Word
  build    : Enc → Word → Instr

/-- The rows of the arithmetic family (30_encoding.md R75, R77 to R79; spec/opcode_table.json). -/
def arithmeticRows : List SpecRow :=
  [ { mnemonic := "ADD", format := .r, mask := 0xFE00707F#32, pattern := 0x00000033#32,
      build := fun _ w => .add (rdOf w) (rs1Of w) (rs2Of w) },
    { mnemonic := "SUB", format := .r, mask := 0xFE00707F#32, pattern := 0x40000033#32,
      build := fun _ w => .sub (rdOf w) (rs1Of w) (rs2Of w) },
    { mnemonic := "ADDI", format := .i, mask := 0x0000707F#32, pattern := 0x00000013#32,
      build := fun _ w => .addi (rdOf w) (rs1Of w) (immI w) },
    { mnemonic := "SUBI", format := .i, mask := 0x0000707F#32, pattern := 0x0000000B#32,
      build := fun _ w => .subi (rdOf w) (rs1Of w) (immI w) } ]

/-- The rows of the logical family (30_encoding.md R75, R77 to R79; spec/opcode_table.json). -/
def logicalRows : List SpecRow :=
  [ { mnemonic := "AND", format := .r, mask := 0xFE00707F#32, pattern := 0x00007033#32,
      build := fun _ w => .and (rdOf w) (rs1Of w) (rs2Of w) },
    { mnemonic := "OR", format := .r, mask := 0xFE00707F#32, pattern := 0x00006033#32,
      build := fun _ w => .or (rdOf w) (rs1Of w) (rs2Of w) },
    { mnemonic := "XOR", format := .r, mask := 0xFE00707F#32, pattern := 0x00004033#32,
      build := fun _ w => .xor (rdOf w) (rs1Of w) (rs2Of w) },
    { mnemonic := "ANDI", format := .i, mask := 0x0000707F#32, pattern := 0x00007013#32,
      build := fun _ w => .andi (rdOf w) (rs1Of w) (immI w) },
    { mnemonic := "ORI", format := .i, mask := 0x0000707F#32, pattern := 0x00006013#32,
      build := fun _ w => .ori (rdOf w) (rs1Of w) (immI w) },
    { mnemonic := "XORI", format := .i, mask := 0x0000707F#32, pattern := 0x00004013#32,
      build := fun _ w => .xori (rdOf w) (rs1Of w) (immI w) } ]

/-- The rows of the shift family (30_encoding.md R75, R77 to R79; spec/opcode_table.json). -/
def shiftRows : List SpecRow :=
  [ { mnemonic := "SLL", format := .r, mask := 0xFE00707F#32, pattern := 0x00001033#32,
      build := fun _ w => .sll (rdOf w) (rs1Of w) (rs2Of w) },
    { mnemonic := "SRL", format := .r, mask := 0xFE00707F#32, pattern := 0x00005033#32,
      build := fun _ w => .srl (rdOf w) (rs1Of w) (rs2Of w) },
    { mnemonic := "SRA", format := .r, mask := 0xFE00707F#32, pattern := 0x40005033#32,
      build := fun _ w => .sra (rdOf w) (rs1Of w) (rs2Of w) },
    { mnemonic := "SLLI", format := .shift, mask := 0xFE00707F#32, pattern := 0x00001013#32,
      build := fun _ w => .slli (rdOf w) (rs1Of w) (shamtOf w) },
    { mnemonic := "SRLI", format := .shift, mask := 0xFE00707F#32, pattern := 0x00005013#32,
      build := fun _ w => .srli (rdOf w) (rs1Of w) (shamtOf w) },
    { mnemonic := "SRAI", format := .shift, mask := 0xFE00707F#32, pattern := 0x40005013#32,
      build := fun _ w => .srai (rdOf w) (rs1Of w) (shamtOf w) } ]

/-- The rows of the comparison family (30_encoding.md R75, R77 to R79; spec/opcode_table.json). -/
def comparisonRows : List SpecRow :=
  [ { mnemonic := "SLT", format := .r, mask := 0xFE00707F#32, pattern := 0x00002033#32,
      build := fun _ w => .slt (rdOf w) (rs1Of w) (rs2Of w) },
    { mnemonic := "SLTU", format := .r, mask := 0xFE00707F#32, pattern := 0x00003033#32,
      build := fun _ w => .sltu (rdOf w) (rs1Of w) (rs2Of w) },
    { mnemonic := "SLTI", format := .i, mask := 0x0000707F#32, pattern := 0x00002013#32,
      build := fun _ w => .slti (rdOf w) (rs1Of w) (immI w) },
    { mnemonic := "SLTIU", format := .i, mask := 0x0000707F#32, pattern := 0x00003013#32,
      build := fun _ w => .sltiu (rdOf w) (rs1Of w) (immI w) } ]

/-- The rows of the memory family (30_encoding.md R75, R77 to R79; spec/opcode_table.json). -/
def memoryRows : List SpecRow :=
  [ { mnemonic := "LB", format := .i, mask := 0x0000707F#32, pattern := 0x00000003#32,
      build := fun _ w => .lb (rdOf w) (rs1Of w) (immI w) },
    { mnemonic := "LH", format := .i, mask := 0x0000707F#32, pattern := 0x00001003#32,
      build := fun _ w => .lh (rdOf w) (rs1Of w) (immI w) },
    { mnemonic := "LW", format := .i, mask := 0x0000707F#32, pattern := 0x00002003#32,
      build := fun _ w => .lw (rdOf w) (rs1Of w) (immI w) },
    { mnemonic := "LBU", format := .i, mask := 0x0000707F#32, pattern := 0x00004003#32,
      build := fun _ w => .lbu (rdOf w) (rs1Of w) (immI w) },
    { mnemonic := "LHU", format := .i, mask := 0x0000707F#32, pattern := 0x00005003#32,
      build := fun _ w => .lhu (rdOf w) (rs1Of w) (immI w) },
    { mnemonic := "SB", format := .s, mask := 0x0000707F#32, pattern := 0x00000023#32,
      build := fun _ w => .sb (rs1Of w) (rs2Of w) (immS w) },
    { mnemonic := "SH", format := .s, mask := 0x0000707F#32, pattern := 0x00001023#32,
      build := fun _ w => .sh (rs1Of w) (rs2Of w) (immS w) },
    { mnemonic := "SW", format := .s, mask := 0x0000707F#32, pattern := 0x00002023#32,
      build := fun _ w => .sw (rs1Of w) (rs2Of w) (immS w) } ]

/-- The rows of the branch family (30_encoding.md R75, R77 to R79; spec/opcode_table.json). -/
def branchRows : List SpecRow :=
  [ { mnemonic := "BEQ", format := .b, mask := 0x0000707F#32, pattern := 0x00000063#32,
      build := fun _ w => .beq (rs1Of w) (rs2Of w) (immB w) },
    { mnemonic := "BNE", format := .b, mask := 0x0000707F#32, pattern := 0x00001063#32,
      build := fun _ w => .bne (rs1Of w) (rs2Of w) (immB w) },
    { mnemonic := "BLT", format := .b, mask := 0x0000707F#32, pattern := 0x00004063#32,
      build := fun _ w => .blt (rs1Of w) (rs2Of w) (immB w) },
    { mnemonic := "BGE", format := .b, mask := 0x0000707F#32, pattern := 0x00005063#32,
      build := fun _ w => .bge (rs1Of w) (rs2Of w) (immB w) },
    { mnemonic := "BLTU", format := .b, mask := 0x0000707F#32, pattern := 0x00006063#32,
      build := fun _ w => .bltu (rs1Of w) (rs2Of w) (immB w) },
    { mnemonic := "BGEU", format := .b, mask := 0x0000707F#32, pattern := 0x00007063#32,
      build := fun _ w => .bgeu (rs1Of w) (rs2Of w) (immB w) } ]

/-- The rows of the jump family (30_encoding.md R75, R77 to R79; spec/opcode_table.json). -/
def jumpRows : List SpecRow :=
  [ { mnemonic := "JAL", format := .j, mask := 0x0000007F#32, pattern := 0x0000006F#32,
      build := fun _ w => .jal (rdOf w) (immJ w) },
    { mnemonic := "JALR", format := .i, mask := 0x0000707F#32, pattern := 0x00000067#32,
      build := fun _ w => .jalr (rdOf w) (rs1Of w) (immI w) } ]

/-- The rows of the mac family (30_encoding.md R75, R77 to R79; spec/opcode_table.json). -/
def macRows : List SpecRow :=
  [ { mnemonic := "MAC", format := .r4, mask := 0x0600707F#32, pattern := 0x0000005B#32,
      build := fun e w => .mac (rdOf w) (rs1Of w) (rs2Of w) (e.rs3Of w) },
    { mnemonic := "MACI", format := .i4, mask := 0x0000007F#32, pattern := 0x0000007B#32,
      build := fun e w => .maci (rdOf w) (rs1Of w) (rs2Of w) (e.immI4 w) },
    { mnemonic := "MACU", format := .r4, mask := 0x0600707F#32, pattern := 0x0200005B#32,
      build := fun e w => .macu (rdOf w) (rs1Of w) (rs2Of w) (e.rs3Of w) } ]

/-- The rows of the simd family (30_encoding.md R75, R77 to R79; spec/opcode_table.json). -/
def simdRows : List SpecRow :=
  [ { mnemonic := "ADD4", format := .r, mask := 0xFE00707F#32, pattern := 0x0000002B#32,
      build := fun _ w => .add4 (rdOf w) (rs1Of w) (rs2Of w) },
    { mnemonic := "SUB4", format := .r, mask := 0xFE00707F#32, pattern := 0x0200002B#32,
      build := fun _ w => .sub4 (rdOf w) (rs1Of w) (rs2Of w) },
    { mnemonic := "MUL4", format := .r, mask := 0xFE00707F#32, pattern := 0x0400002B#32,
      build := fun _ w => .mul4 (rdOf w) (rs1Of w) (rs2Of w) },
    { mnemonic := "AND4", format := .r, mask := 0xFE00707F#32, pattern := 0x0600002B#32,
      build := fun _ w => .and4 (rdOf w) (rs1Of w) (rs2Of w) },
    { mnemonic := "OR4", format := .r, mask := 0xFE00707F#32, pattern := 0x0800002B#32,
      build := fun _ w => .or4 (rdOf w) (rs1Of w) (rs2Of w) },
    { mnemonic := "XOR4", format := .r, mask := 0xFE00707F#32, pattern := 0x0A00002B#32,
      build := fun _ w => .xor4 (rdOf w) (rs1Of w) (rs2Of w) },
    { mnemonic := "SHIFT4", format := .r, mask := 0xFE00707F#32, pattern := 0x0C00002B#32,
      build := fun _ w => .shift4 (rdOf w) (rs1Of w) (rs2Of w) },
    { mnemonic := "ADD2", format := .r, mask := 0xFE00707F#32, pattern := 0x0E00002B#32,
      build := fun _ w => .add2 (rdOf w) (rs1Of w) (rs2Of w) },
    { mnemonic := "SUB2", format := .r, mask := 0xFE00707F#32, pattern := 0x1000002B#32,
      build := fun _ w => .sub2 (rdOf w) (rs1Of w) (rs2Of w) },
    { mnemonic := "MUL2", format := .r, mask := 0xFE00707F#32, pattern := 0x1200002B#32,
      build := fun _ w => .mul2 (rdOf w) (rs1Of w) (rs2Of w) } ]

/-- The rows of the dsp family (30_encoding.md R75, R77 to R79; spec/opcode_table.json). -/
def dspRows : List SpecRow :=
  [ { mnemonic := "SAT", format := .r2, mask := 0xFFF0707F#32, pattern := 0x1400002B#32,
      build := fun _ w => .sat (rdOf w) (rs1Of w) },
    { mnemonic := "CLIP", format := .r, mask := 0xFE00707F#32, pattern := 0x1600002B#32,
      build := fun _ w => .clip (rdOf w) (rs1Of w) (rs2Of w) },
    { mnemonic := "ROUND", format := .r2, mask := 0xFFF0707F#32, pattern := 0x1800002B#32,
      build := fun _ w => .round (rdOf w) (rs1Of w) },
    { mnemonic := "BIT_REVERSE", format := .r2, mask := 0xFFF0707F#32, pattern := 0x1A00002B#32,
      build := fun _ w => .bitReverse (rdOf w) (rs1Of w) },
    { mnemonic := "CIRCULAR_ADDR", format := .r, mask := 0xFE00707F#32, pattern := 0x1C00002B#32,
      build := fun _ w => .circularAddr (rdOf w) (rs1Of w) (rs2Of w) } ]

/-- The rows of the system family (30_encoding.md R75, R77 to R79; spec/opcode_table.json). -/
def systemRows : List SpecRow :=
  [ { mnemonic := "MRET", format := .fixed, mask := 0xFFFFFFFF#32, pattern := 0x30200073#32,
      build := fun _ _ => .mret } ]

/-- The 55 rows of spec/opcode_table.json, in its order. -/
def specRows : List SpecRow :=
  arithmeticRows ++ logicalRows ++ shiftRows ++ comparisonRows ++ memoryRows ++ branchRows ++ jumpRows ++ macRows ++
    simdRows ++ dspRows ++ systemRows

/-- `ENC` at the spec's values (30_encoding.md R66, R67, R77 to R79; notes/assumptions/11.md). -/
def specEnc : Enc where
  patterns := ⟨(specRows.map fun r => ⟨r.mask, r.pattern⟩).toArray, rfl⟩
  rs3At    := 27
  maciImm  := [⟨25, 7⟩, ⟨12, 3⟩]

/-- One row of the opcode table of an `ENC`: a word `w` selects it when `w & mask = pattern`, and then stands for
`build w`. -/
structure Row where
  mnemonic : String
  mask     : Word
  pattern  : Word
  build    : Word → Instr

/-- The opcode table of an `ENC`: the rows of the spec with the bit patterns of `e`. -/
def Enc.rows (e : Enc) : List Row :=
  List.zipWith (fun r p => { mnemonic := r.mnemonic, mask := p.mask, pattern := p.pattern, build := r.build e })
    specRows e.patterns.toList

/-- The opcode table of the spec (30_encoding.md R75). -/
def opcodeTable : List Row := specEnc.rows

/-- `(inst & mask) = match` (30_encoding.md R75). -/
def Row.selects (r : Row) (w : Word) : Bool := w &&& r.mask == r.pattern

/-! ## Words that select no row (30_encoding.md R80; 93_implementation_defined.md U6) -/

/-- The groups of words that the RISC-V base ISA or its common extensions assign and the source does not list
(93_implementation_defined.md U6). -/
inductive UnlistedGroup where
  | lui | auipc | fence | ecall | ebreak | wfi | csr | mulDiv | compressed
  deriving DecidableEq, Repr

/-- Why a word is no instruction of the table. -/
inductive Reject where
  /-- No row and outside the class of U6: `IllegalInstruction` (30_encoding.md R80). -/
  | illegal
  /-- No row, and in the class of U6. -/
  | unlisted (g : UnlistedGroup)
  deriving DecidableEq, Repr

/-- The class of a word that selects no row: the exact list of 93_implementation_defined.md U6. -/
def classify (w : Word) : Reject :=
  if w = 0 then .illegal
  else if w.extractLsb' 0 2 ≠ 0b11#2 then .unlisted .compressed
  else if opcodeOf w = 0b0110111#7 then .unlisted .lui
  else if opcodeOf w = 0b0010111#7 then .unlisted .auipc
  else if opcodeOf w = 0b0001111#7 then .unlisted .fence
  else if w = 0x00000073#32 then .unlisted .ecall
  else if w = 0x00100073#32 then .unlisted .ebreak
  else if w = 0x10500073#32 then .unlisted .wfi
  else if opcodeOf w = 0b1110011#7 ∧ funct3Of w ≠ 0b000#3 ∧ funct3Of w ≠ 0b100#3 then .unlisted .csr
  else if opcodeOf w = 0b0110011#7 ∧ funct7Of w = 0b0000001#7 then .unlisted .mulDiv
  else .illegal

/-! ## The decoder -/

/-- The instruction a word selects under an `ENC`, or why it selects none (30_encoding.md R75, R80). -/
def Enc.decode (e : Enc) (w : Word) : Except Reject Instr :=
  match e.rows.find? (·.selects w) with
  | some r => .ok (r.build w)
  | none => .error (classify w)

/-- The instruction a word selects in the spec's encoding, or why it selects none (30_encoding.md R75, R80). -/
def decode (w : Word) : Except Reject Instr := specEnc.decode w

/-- The instruction four bytes stand for in the spec's encoding, the byte at the lowest address first (30_encoding.md R60; 20_memory.md R41). -/
def decodeBytes (b0 b1 b2 b3 : Byte) : Except Reject Instr := decode (wordOfBytes b0 b1 b2 b3)

/-- What the decoder reads from an instruction whose bits are `w`, of which the table gives `nbits`: the bits above are 0,
and the word is laid out as the hardware stores it, lowest byte first (notes/assumptions/25.md). -/
def decodeTableWord (nbits w : Nat) : Option Instr :=
  let v : Word := BitVec.ofNat 32 (w % 2 ^ nbits)
  match decodeBytes (byteOf v 0) (byteOf v 1) (byteOf v 2) (byteOf v 3) with
  | .ok i => some i
  | .error _ => none

/-! ## The encoder: the layouts of 30_encoding.md R61 to R68 and the field values of R77 to R79 -/

/-- A register number or shift amount as its 5-bit field. -/
def fieldOf (r : Fin 32) : BitVec 5 := BitVec.ofFin r

/-- R-type (30_encoding.md R61); also the split shift-immediate form (R70), the amount in the place of `rs2`. -/
def layoutR (funct7 : BitVec 7) (rs2 rs1 : Reg) (funct3 : BitVec 3) (rd : Reg) (opcode : BitVec 7) : Word :=
  funct7 ++ fieldOf rs2 ++ fieldOf rs1 ++ funct3 ++ fieldOf rd ++ opcode

/-- I-type (30_encoding.md R62). -/
def layoutI (imm : Word) (rs1 : Reg) (funct3 : BitVec 3) (rd : Reg) (opcode : BitVec 7) : Word :=
  imm.extractLsb' 0 12 ++ fieldOf rs1 ++ funct3 ++ fieldOf rd ++ opcode

/-- S-type (30_encoding.md R63). -/
def layoutS (imm : Word) (rs2 rs1 : Reg) (funct3 : BitVec 3) (opcode : BitVec 7) : Word :=
  imm.extractLsb' 5 7 ++ fieldOf rs2 ++ fieldOf rs1 ++ funct3 ++ imm.extractLsb' 0 5 ++ opcode

/-- B-type (30_encoding.md R64). -/
def layoutB (imm : Word) (rs2 rs1 : Reg) (funct3 : BitVec 3) (opcode : BitVec 7) : Word :=
  imm.extractLsb' 12 1 ++ imm.extractLsb' 5 6 ++ fieldOf rs2 ++ fieldOf rs1 ++ funct3 ++ imm.extractLsb' 1 4 ++
    imm.extractLsb' 11 1 ++ opcode

/-- J-type (30_encoding.md R65). -/
def layoutJ (imm : Word) (rd : Reg) (opcode : BitVec 7) : Word :=
  imm.extractLsb' 20 1 ++ imm.extractLsb' 1 10 ++ imm.extractLsb' 11 1 ++ imm.extractLsb' 12 8 ++ fieldOf rd ++ opcode

/-- R4-type (30_encoding.md R66). -/
def layoutR4 (rs3 : Reg) (funct2 : BitVec 2) (rs2 rs1 : Reg) (funct3 : BitVec 3) (rd : Reg) (opcode : BitVec 7) : Word :=
  fieldOf rs3 ++ funct2 ++ fieldOf rs2 ++ fieldOf rs1 ++ funct3 ++ fieldOf rd ++ opcode

/-- I4-type (30_encoding.md R67). -/
def layoutI4 (imm : Word) (rs2 rs1 rd : Reg) (opcode : BitVec 7) : Word :=
  imm.extractLsb' 3 7 ++ fieldOf rs2 ++ fieldOf rs1 ++ imm.extractLsb' 0 3 ++ fieldOf rd ++ opcode

/-- The word of an instruction in the spec's encoding. Of an immediate only the bits its layout holds are kept, so the word stands for the
instruction when it is well formed. -/
def encode : Instr → Word
  | .add rd rs1 rs2 => layoutR 0b0000000#7 rs2 rs1 0b000#3 rd 0b0110011#7
  | .sub rd rs1 rs2 => layoutR 0b0100000#7 rs2 rs1 0b000#3 rd 0b0110011#7
  | .addi rd rs1 imm => layoutI imm rs1 0b000#3 rd 0b0010011#7
  | .subi rd rs1 imm => layoutI imm rs1 0b000#3 rd 0b0001011#7
  | .and rd rs1 rs2 => layoutR 0b0000000#7 rs2 rs1 0b111#3 rd 0b0110011#7
  | .or rd rs1 rs2 => layoutR 0b0000000#7 rs2 rs1 0b110#3 rd 0b0110011#7
  | .xor rd rs1 rs2 => layoutR 0b0000000#7 rs2 rs1 0b100#3 rd 0b0110011#7
  | .andi rd rs1 imm => layoutI imm rs1 0b111#3 rd 0b0010011#7
  | .ori rd rs1 imm => layoutI imm rs1 0b110#3 rd 0b0010011#7
  | .xori rd rs1 imm => layoutI imm rs1 0b100#3 rd 0b0010011#7
  | .sll rd rs1 rs2 => layoutR 0b0000000#7 rs2 rs1 0b001#3 rd 0b0110011#7
  | .srl rd rs1 rs2 => layoutR 0b0000000#7 rs2 rs1 0b101#3 rd 0b0110011#7
  | .sra rd rs1 rs2 => layoutR 0b0100000#7 rs2 rs1 0b101#3 rd 0b0110011#7
  | .slli rd rs1 shamt => layoutR 0b0000000#7 shamt rs1 0b001#3 rd 0b0010011#7
  | .srli rd rs1 shamt => layoutR 0b0000000#7 shamt rs1 0b101#3 rd 0b0010011#7
  | .srai rd rs1 shamt => layoutR 0b0100000#7 shamt rs1 0b101#3 rd 0b0010011#7
  | .slt rd rs1 rs2 => layoutR 0b0000000#7 rs2 rs1 0b010#3 rd 0b0110011#7
  | .sltu rd rs1 rs2 => layoutR 0b0000000#7 rs2 rs1 0b011#3 rd 0b0110011#7
  | .slti rd rs1 imm => layoutI imm rs1 0b010#3 rd 0b0010011#7
  | .sltiu rd rs1 imm => layoutI imm rs1 0b011#3 rd 0b0010011#7
  | .lb rd rs1 imm => layoutI imm rs1 0b000#3 rd 0b0000011#7
  | .lh rd rs1 imm => layoutI imm rs1 0b001#3 rd 0b0000011#7
  | .lw rd rs1 imm => layoutI imm rs1 0b010#3 rd 0b0000011#7
  | .lbu rd rs1 imm => layoutI imm rs1 0b100#3 rd 0b0000011#7
  | .lhu rd rs1 imm => layoutI imm rs1 0b101#3 rd 0b0000011#7
  | .sb rs1 rs2 imm => layoutS imm rs2 rs1 0b000#3 0b0100011#7
  | .sh rs1 rs2 imm => layoutS imm rs2 rs1 0b001#3 0b0100011#7
  | .sw rs1 rs2 imm => layoutS imm rs2 rs1 0b010#3 0b0100011#7
  | .beq rs1 rs2 imm => layoutB imm rs2 rs1 0b000#3 0b1100011#7
  | .bne rs1 rs2 imm => layoutB imm rs2 rs1 0b001#3 0b1100011#7
  | .blt rs1 rs2 imm => layoutB imm rs2 rs1 0b100#3 0b1100011#7
  | .bge rs1 rs2 imm => layoutB imm rs2 rs1 0b101#3 0b1100011#7
  | .bltu rs1 rs2 imm => layoutB imm rs2 rs1 0b110#3 0b1100011#7
  | .bgeu rs1 rs2 imm => layoutB imm rs2 rs1 0b111#3 0b1100011#7
  | .jal rd imm => layoutJ imm rd 0b1101111#7
  | .jalr rd rs1 imm => layoutI imm rs1 0b000#3 rd 0b1100111#7
  | .mac rd rs1 rs2 rs3 => layoutR4 rs3 0b00#2 rs2 rs1 0b000#3 rd 0b1011011#7
  | .maci rd rs1 rs2 imm => layoutI4 imm rs2 rs1 rd 0b1111011#7
  | .macu rd rs1 rs2 rs3 => layoutR4 rs3 0b01#2 rs2 rs1 0b000#3 rd 0b1011011#7
  | .add4 rd rs1 rs2 => layoutR 0b0000000#7 rs2 rs1 0b000#3 rd 0b0101011#7
  | .sub4 rd rs1 rs2 => layoutR 0b0000001#7 rs2 rs1 0b000#3 rd 0b0101011#7
  | .mul4 rd rs1 rs2 => layoutR 0b0000010#7 rs2 rs1 0b000#3 rd 0b0101011#7
  | .and4 rd rs1 rs2 => layoutR 0b0000011#7 rs2 rs1 0b000#3 rd 0b0101011#7
  | .or4 rd rs1 rs2 => layoutR 0b0000100#7 rs2 rs1 0b000#3 rd 0b0101011#7
  | .xor4 rd rs1 rs2 => layoutR 0b0000101#7 rs2 rs1 0b000#3 rd 0b0101011#7
  | .shift4 rd rs1 rs2 => layoutR 0b0000110#7 rs2 rs1 0b000#3 rd 0b0101011#7
  | .add2 rd rs1 rs2 => layoutR 0b0000111#7 rs2 rs1 0b000#3 rd 0b0101011#7
  | .sub2 rd rs1 rs2 => layoutR 0b0001000#7 rs2 rs1 0b000#3 rd 0b0101011#7
  | .mul2 rd rs1 rs2 => layoutR 0b0001001#7 rs2 rs1 0b000#3 rd 0b0101011#7
  | .sat rd rs1 => layoutR 0b0001010#7 0 rs1 0b000#3 rd 0b0101011#7
  | .clip rd rs1 rs2 => layoutR 0b0001011#7 rs2 rs1 0b000#3 rd 0b0101011#7
  | .round rd rs1 => layoutR 0b0001100#7 0 rs1 0b000#3 rd 0b0101011#7
  | .bitReverse rd rs1 => layoutR 0b0001101#7 0 rs1 0b000#3 rd 0b0101011#7
  | .circularAddr rd rs1 rs2 => layoutR 0b0001110#7 rs2 rs1 0b000#3 rd 0b0101011#7
  | .mret => 0x30200073#32

/-! ## The encoder of any `ENC` -/

/-- The place of an instruction's row in spec/opcode_table.json. -/
def Instr.row : Instr → Fin 55
  | .add _ _ _ => 0 | .sub _ _ _ => 1 | .addi _ _ _ => 2 | .subi _ _ _ => 3 | .and _ _ _ => 4 | .or _ _ _ => 5
  | .xor _ _ _ => 6 | .andi _ _ _ => 7 | .ori _ _ _ => 8 | .xori _ _ _ => 9 | .sll _ _ _ => 10
  | .srl _ _ _ => 11 | .sra _ _ _ => 12 | .slli _ _ _ => 13 | .srli _ _ _ => 14 | .srai _ _ _ => 15
  | .slt _ _ _ => 16 | .sltu _ _ _ => 17 | .slti _ _ _ => 18 | .sltiu _ _ _ => 19 | .lb _ _ _ => 20
  | .lh _ _ _ => 21 | .lw _ _ _ => 22 | .lbu _ _ _ => 23 | .lhu _ _ _ => 24 | .sb _ _ _ => 25 | .sh _ _ _ => 26
  | .sw _ _ _ => 27 | .beq _ _ _ => 28 | .bne _ _ _ => 29 | .blt _ _ _ => 30 | .bge _ _ _ => 31
  | .bltu _ _ _ => 32 | .bgeu _ _ _ => 33 | .jal _ _ => 34 | .jalr _ _ _ => 35 | .mac _ _ _ _ => 36
  | .maci _ _ _ _ => 37 | .macu _ _ _ _ => 38 | .add4 _ _ _ => 39 | .sub4 _ _ _ => 40 | .mul4 _ _ _ => 41
  | .and4 _ _ _ => 42 | .or4 _ _ _ => 43 | .xor4 _ _ _ => 44 | .shift4 _ _ _ => 45 | .add2 _ _ _ => 46
  | .sub2 _ _ _ => 47 | .mul2 _ _ _ => 48 | .sat _ _ => 49 | .clip _ _ _ => 50 | .round _ _ => 51
  | .bitReverse _ _ => 52 | .circularAddr _ _ _ => 53 | .mret => 54

/-- The low `width` bits of a value in the place of a field. -/
def Slice.put (x : Slice) (v : Word) : Word := (v.setWidth x.width).setWidth 32 <<< x.lo

/-- The low bits of `v` in the places of the listed fields, the first in the most significant place: what `gather` reads. -/
def scatter (v : Word) : List Slice → Word
  | [] => 0
  | x :: xs => x.put (v >>> totalWidth xs) ||| scatter v xs

/-- The operand bits of an instruction's word, every other bit 0: the layouts of 30_encoding.md R61 to R70, with the places
of `rs3` and of MACI's immediate that `e` gives. -/
def Enc.operandBits (e : Enc) : Instr → Word
  | .add rd rs1 rs2 | .sub rd rs1 rs2 | .and rd rs1 rs2 | .or rd rs1 rs2 | .xor rd rs1 rs2
  | .sll rd rs1 rs2 | .srl rd rs1 rs2 | .sra rd rs1 rs2 | .slt rd rs1 rs2 | .sltu rd rs1 rs2
  | .add4 rd rs1 rs2 | .sub4 rd rs1 rs2 | .mul4 rd rs1 rs2 | .and4 rd rs1 rs2 | .or4 rd rs1 rs2
  | .xor4 rd rs1 rs2 | .shift4 rd rs1 rs2 | .add2 rd rs1 rs2 | .sub2 rd rs1 rs2 | .mul2 rd rs1 rs2
  | .clip rd rs1 rs2 | .circularAddr rd rs1 rs2 => layoutR 0 rs2 rs1 0 rd 0
  | .slli rd rs1 shamt | .srli rd rs1 shamt | .srai rd rs1 shamt => layoutR 0 shamt rs1 0 rd 0
  | .sat rd rs1 | .round rd rs1 | .bitReverse rd rs1 => layoutR 0 0 rs1 0 rd 0
  | .addi rd rs1 imm | .subi rd rs1 imm | .andi rd rs1 imm | .ori rd rs1 imm | .xori rd rs1 imm
  | .slti rd rs1 imm | .sltiu rd rs1 imm | .lb rd rs1 imm | .lh rd rs1 imm | .lw rd rs1 imm
  | .lbu rd rs1 imm | .lhu rd rs1 imm | .jalr rd rs1 imm => layoutI imm rs1 0 rd 0
  | .sb rs1 rs2 imm | .sh rs1 rs2 imm | .sw rs1 rs2 imm => layoutS imm rs2 rs1 0 0
  | .beq rs1 rs2 imm | .bne rs1 rs2 imm | .blt rs1 rs2 imm | .bge rs1 rs2 imm | .bltu rs1 rs2 imm
  | .bgeu rs1 rs2 imm => layoutB imm rs2 rs1 0 0
  | .jal rd imm => layoutJ imm rd 0
  | .mac rd rs1 rs2 rs3 | .macu rd rs1 rs2 rs3 => layoutR 0 rs2 rs1 0 rd 0 ||| (Slice.mk e.rs3At 5).put ((fieldOf rs3).setWidth 32)
  | .maci rd rs1 rs2 imm => layoutR 0 rs2 rs1 0 rd 0 ||| scatter imm e.maciImm
  | .mret => 0

/-- The word of an instruction under an `ENC`: the fixed bits of its row and its operand bits. -/
def Enc.encode (e : Enc) (i : Instr) : Word := (e.patterns[i.row]).pattern ||| e.operandBits i

/-- The instructions that an `ENC` has a word for. -/
def Enc.holds (e : Enc) (i : Instr) : Bool := i.fits (totalWidth e.maciImm)

/-! ## Which `ENC` are encodings at all (30_encoding.md R75) -/

/-- The bits of a field. -/
def Slice.bits (x : Slice) : Word := x.put (BitVec.allOnes 32)

/-- The bits of the fields `rd`, `rs1`, `rs2` of R-type (30_encoding.md R61). -/
def regBits : Word := 0x01FF8F80#32

/-- The operand bits of a layout (30_encoding.md R61 to R70). -/
def Enc.formatBits (e : Enc) : Format → Word
  | .r | .shift => regBits
  | .r2 => 0x000F8F80#32
  | .i | .s | .b => 0xFFFF8F80#32
  | .j => 0xFFFFFF80#32
  | .r4 => regBits ||| (Slice.mk e.rs3At 5).bits
  | .i4 => regBits ||| scatter (BitVec.allOnes 32) e.maciImm
  | .fixed => 0

/-- The listed fields lie inside a word and use no bit twice and none of `used`. -/
def slicesFree : List Slice → Word → Bool
  | [], _ => true
  | x :: xs, used => decide (x.lo + x.width ≤ 32) && x.bits &&& used == 0 && slicesFree xs (used ||| x.bits)

/-- Two patterns that no word can match both: they differ inside the intersection of their masks (30_encoding.md R75). -/
def Pattern.apart (p q : Pattern) : Bool := (p.pattern ^^^ q.pattern) &&& p.mask &&& q.mask != 0

/-- A pattern sets no bit outside its mask, and its mask no operand bit. -/
def Enc.patternOk (e : Enc) (r : SpecRow) (p : Pattern) : Bool :=
  p.pattern &&& ~~~p.mask == 0 && p.mask &&& e.formatBits r.format == 0

/-- `e` is an encoding of the 55 instructions: operands and fixed bits do not overlap, and no word matches two rows
(30_encoding.md R75). -/
def Enc.wf (e : Enc) : Bool :=
  (List.zipWith e.patternOk specRows e.patterns.toList).all id &&
  decide (e.patterns.toList.Pairwise fun p q => p.apart q) &&
  slicesFree [⟨e.rs3At, 5⟩] regBits && slicesFree e.maciImm regBits && decide (totalWidth e.maciImm ≤ 32)

/-- Every bit of every word is a fixed bit or an operand bit, as in the spec's encoding. -/
def Enc.exact (e : Enc) : Bool :=
  (List.zipWith (fun r p => p.mask ||| e.formatBits r.format == BitVec.allOnes 32) specRows e.patterns.toList).all id

end Sys2Proof
end

