-- ==== Sys2Proof/Machine/Defaults.lean ====
section
/-! DEFINITION. The constants of the machine and the values the open parameters take in State.reset. -/

namespace Sys2Proof.Machine

/-- The exception vector, "Fixed at address 0x00000000" (60_exceptions.md R240; 20_memory.md R50). -/
def trapVector : Word := 0x00000000#32

/-- `RESET_PC` (70_reset_and_hazards.md R270), an OPEN parameter. DESIGN CHOICE, unsafe: 0x00000100, where every program of
95_test_vectors.md starts (notes/assumptions/3.md). -/
def resetPc : Word := 0x00000100#32

/-- What `x1` to `x31` hold after reset, which 10_state.md R33 leaves unspecified. DESIGN CHOICE, unsafe
(notes/assumptions/1.md). -/
def resetReg : Word := 0#32

/-- What `mcause` and `mepc` hold after reset, which 10_state.md R33 leaves unspecified. DESIGN CHOICE, unsafe
(notes/assumptions/2.md). -/
def resetTrapReg : Word := 0#32

/-- The spec's cause codes (60_exceptions.md R231). -/
def specCauses : CauseCodes where
  instructionAccessFault := 1#32
  illegalInstruction     := 2#32
  loadAccessFault        := 5#32
  storeAccessFault       := 7#32
  arithmeticOverflow     := 24#32
  divisionByZero         := 25#32

/-- A platform on which every access is valid, as 95_test_vectors.md assumes unless it says otherwise. DESIGN CHOICE,
unsafe: 20_memory.md R44 leaves the predicates to the platform (notes/assumptions/5.md). -/
def everythingValid : List Window :=
  [{ base := 0, size := addressSpace,
     allows := [.fetch, .load .byte, .load .half, .load .word, .store .byte, .store .half, .store .word] }]

/-- The open parameters at the spec's settings: misaligned accesses refused (20_memory.md R43, R46), a fetch of a
stored-to byte refused (R54), the words of 93_implementation_defined.md U6 refused, `SIMD_OVF = either` (48_simd.md R191),
MACI's immediate the addend (47_mac.md R182), the cause codes of 60_exceptions.md R231, the bit patterns of 30_encoding.md
R77 to R79. -/
def specParams : Params where
  windows         := everythingValid
  misalignedData  := .refuse
  misalignedFetch := .refuse
  fetchCoherence  := .unset
  unlistedWords   := .refuse
  simdOvf         := .either
  maciRole        := .immIsAddend
  causes          := specCauses
  enc             := specEnc

end Sys2Proof.Machine
end

