-- ==== Sys2Proof/Machine/Memory.lean ====
section
/-! DEFINITION. Memory: 2^32 bytes (20_memory.md R40) as a list of the bytes that hold a value, in one canonical form, and
the little-endian accesses built from single bytes (R41). Here too the set of addresses that R54 needs. -/

namespace Sys2Proof.Machine

/-- The bytes of memory that hold a value, by rising address. -/
abbrev Memory := List Host.Cell

/-- The byte at an address. A byte not listed holds no value: neither the program image nor a store has written it
(93_implementation_defined.md U9; notes/assumptions/4.md). -/
def Memory.read : Memory → Nat → Option Byte
  | [], _ => none
  | (k, v) :: m, a => if a = k then some v else Memory.read m a

/-- `M[a] <- b`, in canonical form. No entry can equal what an unlisted address reads as, which is no value. -/
def Memory.write : Memory → Nat → Byte → Memory
  | [], a, b => [(a, b)]
  | (k, v) :: m, a, b =>
    if a < k then (a, b) :: (k, v) :: m
    else if a = k then (a, b) :: m
    else (k, v) :: Memory.write m a b

/-- The canonical form: addresses strictly rising, all of them in the address space (20_memory.md R40). -/
abbrev Memory.wf (m : Memory) : Prop :=
  m.Pairwise (fun p q => p.1 < q.1) ∧ ∀ c ∈ m, c.1 < addressSpace

/-- The address of byte `i` of an access at `a`; the sum wraps (10_state.md R25, D35). -/
def byteAddr (a : Word) (i : Nat) : Nat := (a + BitVec.ofNat 32 i).toNat

/-- The addresses of the `n` bytes of an access at `a`. -/
def byteAddrs (a : Word) (n : Nat) : List Nat := (List.range n).map (byteAddr a)

/-- The two bytes at `a` as `{ M[a+1], M[a] }` (20_memory.md R41). -/
def Memory.readHalf (m : Memory) (a : Word) : Option (BitVec 16) :=
  match m.read (byteAddr a 0), m.read (byteAddr a 1) with
  | some b0, some b1 => some (halfOfBytes b0 b1)
  | _, _ => none

/-- The four bytes at `a` as `{ M[a+3], M[a+2], M[a+1], M[a] }` (20_memory.md R41). -/
def Memory.readWord (m : Memory) (a : Word) : Option Word :=
  match m.read (byteAddr a 0), m.read (byteAddr a 1), m.read (byteAddr a 2), m.read (byteAddr a 3) with
  | some b0, some b1, some b2, some b3 => some (wordOfBytes b0 b1 b2 b3)
  | _, _, _, _ => none

/-- `M[a .. a+n-1]` as one value, zero-extended to 32 bits (20_memory.md R41); `none` when a byte of it holds no value. -/
def Memory.readLE (m : Memory) (w : Width) (a : Word) : Option Word :=
  match w with
  | .byte => (m.read (byteAddr a 0)).map (BitVec.setWidth 32)
  | .half => (m.readHalf a).map (BitVec.setWidth 32)
  | .word => m.readWord a

/-- `for i in 0 .. n-1: M[a+i] <- v[8i+7 : 8i]` (20_memory.md R41, R48). -/
def Memory.writeBytes (m : Memory) (a : Word) (v : Word) : Nat → Memory
  | 0 => m
  | n + 1 => (Memory.writeBytes m a v n).write (byteAddr a n) (byteOf v n)

/-- `MemWrite(a, n, v)` without its checks (20_memory.md R48). -/
def Memory.writeLE (m : Memory) (w : Width) (a v : Word) : Memory := m.writeBytes a v w.bytes

/-- A set of addresses, strictly rising: the bytes a store of the run has written (20_memory.md R54). -/
abbrev AddrSet := List Nat

/-- Put one address into the set. -/
def AddrSet.insert : AddrSet → Nat → AddrSet
  | [], a => [a]
  | k :: r, a => if a < k then a :: k :: r else if a = k then k :: r else k :: AddrSet.insert r a

/-- Put the addresses of a list into the set. -/
def AddrSet.insertAll (r : AddrSet) (as : List Nat) : AddrSet := as.foldl AddrSet.insert r

/-- The set without the addresses of a list. -/
def AddrSet.remove (r : AddrSet) (as : List Nat) : AddrSet := r.filter (fun a => !as.contains a)

/-- The canonical form of a set of addresses: strictly rising. -/
abbrev AddrSet.wf (r : AddrSet) : Prop := r.Pairwise (· < ·)

end Sys2Proof.Machine
end

