-- ==== Sys2Proof/Machine/State.lean ====
section
/-! DEFINITION. The state of the machine (10_state.md R20), the reasons a step can stop, and reset (R33). -/

namespace Sys2Proof.Machine

/-- The whole state. `regs`, `pc`, `mcause`, `mepc` and `mem` are 10_state.md R20; `image`, `stored` and `params` are the
model's own: the memory at the start of the run and the bytes stored to since (20_memory.md R52, R54), and the open
parameters of 00_scope.md R4, which no step changes. -/
structure State where
  /-- `x1` to `x31`, `x1` first; `x0` is the constant 0 and is not stored (10_state.md R20, R21). -/
  regs   : Vector Word 31
  /-- The address of the instruction to be executed (10_state.md R24). -/
  pc     : Word
  /-- The cause code of the most recent trap (10_state.md R27). -/
  mcause : Word
  /-- The address of the instruction that took the most recent trap (10_state.md R28). -/
  mepc   : Word
  /-- Memory as loads and stores see it (10_state.md R31; 20_memory.md R52). -/
  mem    : Memory
  /-- Memory as it was at the start of the run, the "initial image" of 20_memory.md R52. -/
  image  : Memory
  /-- The addresses a store of the run has written (20_memory.md R54). -/
  stored : AddrSet
  /-- The open parameters (00_scope.md R4). -/
  params : Params
  deriving DecidableEq, Repr

/-- The faults: the machine stops because a byte it needs holds no value. -/
inductive Fault where
  /-- Raised by LB, LH, LW, LBU, LHU for a valid access at `a` with a byte that neither the image nor a store has written
  (93_implementation_defined.md U9). Safe: the hardware reads some byte there. -/
  | unwrittenLoad (a : Word)
  /-- Raised by a fetch at `a` for such a byte. Safe: the hardware fetches some word there. -/
  | unwrittenFetch (a : Word)
  deriving DecidableEq, Repr

/-- The refusals: the spec gives the situation no meaning (`refuse` of 00_scope.md R7). -/
inductive Refusal where
  /-- An instruction without a meaning in this model; no arm of `exec` answers so. Safe. -/
  | notModelled (mnemonic : String)
  /-- Raised by LH, LW, LHU, SH, SW at an address that is not naturally aligned, when `MISALIGNED_DATA` is `refuse`
  (20_memory.md R43, R47, R48). Safe. -/
  | misalignedData (ea : Word)
  /-- Raised by a fetch with `pc[1:0] ≠ 0`, when `MISALIGNED_FETCH` is `refuse` (20_memory.md R46). Safe. -/
  | misalignedFetch (pc : Word)
  /-- Raised by a fetch of a byte that a store of the run has written, when `IFETCH_SEES_STORES` is unset
  (20_memory.md R54). Safe. -/
  | fetchAfterStore (pc : Word)
  /-- Raised by a word that selects no row and that the RISC-V base ISA assigns, when the parameter `unlistedWords` is
  `refuse` (93_implementation_defined.md U6; 92_eei_decisions.md D16). Safe. -/
  | unlistedWord (group : UnlistedGroup)
  deriving DecidableEq, Repr

/-- The outcome of executing one instruction. -/
abbrev Result := Host.Outcome State Fault Refusal

/-- The state after reset on a platform with the parameters `p`, the reset vector `pc` and the memory contents `m`
(10_state.md R33; 70_reset_and_hazards.md R270, R272). -/
def State.resetWith (p : Params) (pc : Word) (m : Memory) : State where
  regs   := Vector.replicate 31 resetReg
  pc     := pc
  mcause := resetTrapReg
  mepc   := resetTrapReg
  mem    := m
  image  := m
  stored := []
  params := p

/-- The machine right after reset (10_state.md R33; 70_reset_and_hazards.md R270): no memory listed, the parameters at the
spec's settings. The values that R33 leaves unspecified are those of notes/assumptions/1.md to 5.md. -/
def State.reset : State := State.resetWith specParams resetPc []

end Sys2Proof.Machine
end

