-- ==== Sys2Proof/Machine/Ops.lean ====
section
/-! DEFINITION. The named operations over registers, memory and the trap registers that the meanings share. Taking an
exception and returning from one are here, once. -/

namespace Sys2Proof.Machine

/-! ## Registers and the pc -/

/-- `x[r]`: `x0` reads 0 (00_scope.md R7; 10_state.md R21). -/
def State.readReg (s : State) (r : Reg) : Word :=
  if h : r = 0 then 0#32
  else s.regs[r.val - 1]'(by omega)

/-- `x[r] <- v`: a write to `x0` is discarded (00_scope.md R7; 10_state.md R21). -/
def State.writeReg (s : State) (r : Reg) (v : Word) : State :=
  if h : r = 0 then s
  else { s with
    regs := s.regs.set (r.val - 1) v (by omega) }

/-- `pc <- t` (00_scope.md R7). -/
def State.setPc (s : State) (t : Word) : State := { s with pc := t }

/-- `pc + 4` modulo 2^32: the address of the next instruction (10_state.md R25), and the link value
(46_jump.md R170, R171). -/
def State.nextPc (s : State) : Word := s.pc + 4#32

/-- `pc <- trunc_32(u(pc) + 4)` (10_state.md R25). -/
def State.advance (s : State) : State := s.setPc s.nextPc

/-- Write `v` to `rd` and go on to the next instruction: how most instructions end. -/
def State.finish (s : State) (rd : Reg) (v : Word) : State := (s.writeReg rd v).advance

/-! ## Taking an exception and returning from one -/

/-- The code that `mcause` receives for a cause (60_exceptions.md R231). -/
def codeOf (c : CauseCodes) : Cause → Word
  | .instructionAccessFault => c.instructionAccessFault
  | .illegalInstruction => c.illegalInstruction
  | .loadAccessFault => c.loadAccessFault
  | .storeAccessFault => c.storeAccessFault
  | .arithmeticOverflow => c.arithmeticOverflow
  | .divisionByZero => c.divisionByZero

/-- Trap entry, `raise E` (60_exceptions.md R240; 00_scope.md R7): `mepc` receives the pc of the instruction, `mcause` the
code, the pc the fixed vector, and nothing else changes. -/
def State.raise (s : State) (c : Cause) : State :=
  { s with mepc := s.pc, mcause := codeOf s.params.causes c, pc := trapVector }

/-- Return from a trap: `pc <- mepc` and nothing else (60_exceptions.md R245). -/
def State.returnFromTrap (s : State) : State := s.setPc s.mepc

/-! ## Memory accesses and their checks -/

/-- `a mod n = 0` (20_memory.md R43, R47, R48). -/
def isAligned (a : Word) (n : Nat) : Bool := a.toNat % n == 0

/-- The address with its low bits ignored: `a - a mod n`. -/
def alignDown (a : Word) (n : Nat) : Word := a - BitVec.ofNat 32 (a.toNat % n)

/-- `ValidFetch(a)`, `ValidLoad(a, n)`, `ValidStore(a, n)` (20_memory.md R44): some window of the platform allows the access
and holds all its bytes. -/
def validAccess (p : Params) (k : Access) (a : Word) : Bool :=
  p.windows.any fun r =>
    r.allows.contains k && decide (r.base ≤ a.toNat) && decide (a.toNat + k.bytes ≤ r.base + r.size)

/-- The access of the same kind to one byte. -/
def accessPerByte : Access → Access
  | .fetch => .fetch
  | .load _ => .load .byte
  | .store _ => .store .byte

/-- What the checks of 20_memory.md R47 and R48 make of an access: done at an address, an access fault, or refused. -/
inductive Resolved where
  | go (a : Word)
  | accessFault
  | refuse
  deriving DecidableEq, Repr

/-- Done at `a` if the platform allows it, else an access fault. -/
def ifValid (p : Params) (k : Access) (a : Word) : Resolved :=
  if validAccess p k a then .go a else .accessFault

/-- A data access that is not naturally aligned, by the parameter `MISALIGNED_DATA` (20_memory.md R43;
notes/assumptions/8.md). -/
def resolveMisaligned (p : Params) (k : Access) (ea : Word) : Resolved :=
  match p.misalignedData with
  | .refuse => .refuse
  | .trap => .accessFault
  | .ignoreLowBits => ifValid p k (alignDown ea k.bytes)
  | .splitBytes =>
    if (List.range k.bytes).all (fun i => validAccess p (accessPerByte k) (ea + BitVec.ofNat 32 i)) then .go ea
    else .accessFault

/-- The checks of a load or store at `ea`, in the order of 20_memory.md R47 and R48: alignment, then validity. -/
def resolveAccess (p : Params) (k : Access) (ea : Word) : Resolved :=
  if isAligned ea k.bytes then ifValid p k ea else resolveMisaligned p k ea

/-- A load (20_memory.md R47; 44_load_store.md R141): the checks, then `x[rd] <- ext(MemRead(ea, n))`, where `ext` is given
the bytes zero-extended. A load to `x0` still makes its access. -/
def State.load (s : State) (w : Width) (ext : Word → Word) (rd : Reg) (ea : Word) : Result :=
  match resolveAccess s.params (.load w) ea with
  | .refuse => .refused (.misalignedData ea)
  | .accessFault => .next (s.raise .loadAccessFault)
  | .go a =>
    match s.mem.readLE w a with
    | some v => .next (s.finish rd (ext v))
    | none => .fault (.unwrittenLoad a)

/-- The state after the bytes of a store at `a` are written and the pc has advanced (20_memory.md R48, R54). -/
def State.storeAt (s : State) (w : Width) (a v : Word) : State :=
  { s with mem := s.mem.writeLE w a v, stored := s.stored.insertAll (byteAddrs a w.bytes) }.advance

/-- A store, `MemWrite(ea, n, v)` (20_memory.md R48): the checks, then the low `n` bytes of `v`. -/
def State.store (s : State) (w : Width) (ea v : Word) : Result :=
  match resolveAccess s.params (.store w) ea with
  | .refuse => .refused (.misalignedData ea)
  | .accessFault => .next (s.raise .storeAccessFault)
  | .go a => .next (s.storeAt w a v)

end Sys2Proof.Machine
end

