-- ==== Sys2Proof/Machine/Operands.lean ====
section
/-! DEFINITION. The operand forms: how a meaning reads its operands. `u(v)` of 00_scope.md R6 is `toNat`, `s(v)` is `toInt`. -/

namespace Sys2Proof.Machine

/-- Base plus offset, `trunc_32(u(x[rs1]) + u(imm))` (44_load_store.md R140). The sum wraps. -/
def State.ea (s : State) (rs1 : Reg) (imm : Word) : Word := s.readReg rs1 + imm

/-- The target of a branch or JAL, `trunc_32(u(pc) + u(imm))` (45_branch.md R160; 46_jump.md R170). -/
def State.pcPlus (s : State) (imm : Word) : Word := s.pc + imm

/-- The target of JALR, the base plus offset with bit 0 cleared (46_jump.md R171). -/
def State.jalrTarget (s : State) (rs1 : Reg) (imm : Word) : Word := s.ea rs1 imm &&& 0xFFFFFFFE#32

/-- The shift amount of a register form, `x[rs2][4:0]` (42_shift.md R120 to R122). -/
def shiftAmount (v : Word) : Nat := (v.extractLsb' 0 5).toNat

/-- The value of a load that is not extended, or whose zero extension it already is (44_load_store.md R144 to R146). -/
def extZero (v : Word) : Word := v

/-- `sext_32` of the low 8 bits (44_load_store.md R142). -/
def extSign8 (v : Word) : Word := (v.setWidth 8).signExtend 32

/-- `sext_32` of the low 16 bits (44_load_store.md R143). -/
def extSign16 (v : Word) : Word := (v.setWidth 16).signExtend 32

/-- The register value of a comparison: 1 when it holds, else 0 (43_compare.md). -/
def boolWord (b : Bool) : Word := if b then 1#32 else 0#32

/-- `L_w(v, i)`: lane `i` of width `w`, bits `wi+w-1 : wi` (48_simd.md R190). -/
def lane (w : Nat) (v : Word) (i : Nat) : BitVec w := v.extractLsb' (w * i) w

/-- Four 8-bit lane results in their positions (48_simd.md R190). -/
def packLanes8 (r : Nat → BitVec 8) : Word := r 3 ++ r 2 ++ r 1 ++ r 0

/-- Two 16-bit lane results in their positions (48_simd.md R190). -/
def packLanes16 (r : Nat → BitVec 16) : Word := r 1 ++ r 0

end Sys2Proof.Machine
end

