-- ==== Sys2Proof/Machine/Arith.lean ====
section
/-! DEFINITION. Arithmetic instructions (40_arithmetic.md): sums and differences modulo 2^32; none raises an exception. -/

namespace Sys2Proof.Machine

/-- `op rd, rs1, rs2`: the result of `f` on the two registers to `rd`. Shared by the register forms that cannot trap. -/
def opRR (f : Word → Word → Word) (rd rs1 rs2 : Reg) (s : State) : Result :=
  .next (s.finish rd (f (s.readReg rs1) (s.readReg rs2)))

/-- `op rd, rs1, imm`: the result of `f` on the register and the immediate to `rd`. -/
def opRI (f : Word → Word → Word) (rd rs1 : Reg) (imm : Word) (s : State) : Result :=
  .next (s.finish rd (f (s.readReg rs1) imm))

/-- ADD (40_arithmetic.md R100). -/
def execAdd (rd rs1 rs2 : Reg) (s : State) : Result := opRR (· + ·) rd rs1 rs2 s

/-- SUB (40_arithmetic.md R101). -/
def execSub (rd rs1 rs2 : Reg) (s : State) : Result := opRR (· - ·) rd rs1 rs2 s

/-- ADDI (40_arithmetic.md R102). -/
def execAddi (rd rs1 : Reg) (imm : Word) (s : State) : Result := opRI (· + ·) rd rs1 imm s

/-- SUBI (40_arithmetic.md R103). -/
def execSubi (rd rs1 : Reg) (imm : Word) (s : State) : Result := opRI (· - ·) rd rs1 imm s

end Sys2Proof.Machine
end

