-- ==== Sys2Proof/Machine/Flags.lean ====
section
/-! DEFINITION. The machine has no flags (10_state.md R26). What the spec computes in their place: the conditions of the
comparisons and branches, and the overflow tests of the MAC and SIMD instructions. -/

namespace Sys2Proof.Machine

/-- Equality of the 32-bit patterns (45_branch.md R161). -/
def condEq (a b : Word) : Bool := a == b

/-- `s(a) < s(b)` (43_compare.md R130; 45_branch.md R163). -/
def condLt (a b : Word) : Bool := decide (a.toInt < b.toInt)

/-- `u(a) < u(b)` (43_compare.md R131; 45_branch.md R165). -/
def condLtu (a b : Word) : Bool := decide (a.toNat < b.toNat)

/-- `e` is in the range of a signed `w`-bit result, `[-2^(w-1), 2^(w-1) - 1]` (47_mac.md R180; 48_simd.md R191). -/
def fitsSigned (w : Nat) (e : Int) : Bool := decide (-2 ^ (w - 1) ≤ e) && decide (e ≤ 2 ^ (w - 1) - 1)

/-- `e` is in the range of an unsigned `w`-bit result, `[0, 2^w - 1]` (47_mac.md R180; 48_simd.md R191). -/
def fitsUnsigned (w : Nat) (e : Int) : Bool := decide (0 ≤ e) && decide (e ≤ 2 ^ w - 1)

/-- `u(v)` as an unbounded integer (00_scope.md R6). -/
def uval {w : Nat} (v : BitVec w) : Int := (v.toNat : Int)

/-- Whether a lane overflows under `SIMD_OVF` (48_simd.md R191): `f` is the exact operation, applied to the signed and to
the unsigned readings of the lane's operands. -/
def laneOverflows (o : SimdOvf) (f : Int → Int → Int) {w : Nat} (a b : BitVec w) : Bool :=
  match o with
  | .signed => !fitsSigned w (f a.toInt b.toInt)
  | .unsigned => !fitsUnsigned w (f (uval a) (uval b))
  | .either => !fitsSigned w (f a.toInt b.toInt) || !fitsUnsigned w (f (uval a) (uval b))

/-- Some lane of an instruction with `n` lanes of `w` bits overflows (48_simd.md R191). -/
def anyLaneOverflows (o : SimdOvf) (f : Int → Int → Int) (w n : Nat) (a b : Word) : Bool :=
  (List.range n).any fun i => laneOverflows o f (lane w a i) (lane w b i)

/-- A lane result, the low `w` bits of the exact result (48_simd.md R191). -/
def laneResult (f : Int → Int → Int) {w : Nat} (a b : BitVec w) : BitVec w := BitVec.ofInt w (f (uval a) (uval b))

end Sys2Proof.Machine
end

