-- ==== Sys2Proof/Machine/Branch.lean ====
section
/-! DEFINITION. Branch instructions (45_branch.md): no delay slot, no register written; the target is not checked here
(20_memory.md R46). -/

namespace Sys2Proof.Machine

/-- `if cond then pc <- pc + imm else pc <- pc + 4` (45_branch.md R160). -/
def branch (cond : Word → Word → Bool) (rs1 rs2 : Reg) (imm : Word) (s : State) : Result :=
  .next (s.setPc (if cond (s.readReg rs1) (s.readReg rs2) then s.pcPlus imm else s.nextPc))

/-- BEQ (45_branch.md R161). -/
def execBeq (rs1 rs2 : Reg) (imm : Word) (s : State) : Result := branch condEq rs1 rs2 imm s

/-- BNE (45_branch.md R162). -/
def execBne (rs1 rs2 : Reg) (imm : Word) (s : State) : Result := branch (fun a b => !condEq a b) rs1 rs2 imm s

/-- BLT (45_branch.md R163). -/
def execBlt (rs1 rs2 : Reg) (imm : Word) (s : State) : Result := branch condLt rs1 rs2 imm s

/-- BGE (45_branch.md R164). -/
def execBge (rs1 rs2 : Reg) (imm : Word) (s : State) : Result := branch (fun a b => !condLt a b) rs1 rs2 imm s

/-- BLTU (45_branch.md R165). -/
def execBltu (rs1 rs2 : Reg) (imm : Word) (s : State) : Result := branch condLtu rs1 rs2 imm s

/-- BGEU (45_branch.md R166). -/
def execBgeu (rs1 rs2 : Reg) (imm : Word) (s : State) : Result := branch (fun a b => !condLtu a b) rs1 rs2 imm s

end Sys2Proof.Machine
end

