-- ==== Sys2Proof/Machine/Compare.lean ====
section
/-! DEFINITION. Comparison instructions (43_compare.md): 1 when the comparison holds, else 0. -/

namespace Sys2Proof.Machine

/-- SLT (43_compare.md R130). -/
def execSlt (rd rs1 rs2 : Reg) (s : State) : Result := opRR (fun a b => boolWord (condLt a b)) rd rs1 rs2 s

/-- SLTU (43_compare.md R131). -/
def execSltu (rd rs1 rs2 : Reg) (s : State) : Result := opRR (fun a b => boolWord (condLtu a b)) rd rs1 rs2 s

/-- SLTI (43_compare.md R132). -/
def execSlti (rd rs1 : Reg) (imm : Word) (s : State) : Result := opRI (fun a b => boolWord (condLt a b)) rd rs1 imm s

/-- SLTIU, the sign-extended immediate compared as unsigned (43_compare.md R133). -/
def execSltiu (rd rs1 : Reg) (imm : Word) (s : State) : Result := opRI (fun a b => boolWord (condLtu a b)) rd rs1 imm s

end Sys2Proof.Machine
end

