-- ==== Sys2Proof/Machine/Dsp.lean ====
section
/-! DEFINITION. DSP-specific instructions (49_dsp_specific.md): none raises an exception; CLIP, ROUND and CIRCULAR_ADDR give
the free values of Config. -/

namespace Sys2Proof.Machine

/-- `op rd, rs1`: the result of `f` on the register to `rd`. -/
def opR (f : Word → Word) (rd rs1 : Reg) (s : State) : Result := .next (s.finish rd (f (s.readReg rs1)))

/-- The clamp of SAT: `s(v)` forced into `[-32768, 32767]` (49_dsp_specific.md R210). -/
def saturate16 (v : Word) : Word := BitVec.ofInt 32 (max (-32768) (min 32767 v.toInt))

/-- SAT (49_dsp_specific.md R210). -/
def execSat (rd rs1 : Reg) (s : State) : Result := opR saturate16 rd rs1 s

/-- CLIP, the open function `CLIP_FN` (49_dsp_specific.md R211; notes/assumptions/19.md). -/
def execClip (rd rs1 rs2 : Reg) (s : State) : Result := opRR Config.clipFn rd rs1 rs2 s

/-- ROUND, the open function `ROUND_FN` (49_dsp_specific.md R212; notes/assumptions/19.md). -/
def execRound (rd rs1 : Reg) (s : State) : Result := opR Config.roundFn rd rs1 s

/-- BIT_REVERSE: bit `i` of the result is bit `31 - i` of the operand (49_dsp_specific.md R213). -/
def execBitReverse (rd rs1 : Reg) (s : State) : Result := opR BitVec.reverse rd rs1 s

/-- CIRCULAR_ADDR, the open function `CIRC_FN` (49_dsp_specific.md R214; notes/assumptions/19.md). -/
def execCircularAddr (rd rs1 rs2 : Reg) (s : State) : Result := opRR Config.circFn rd rs1 rs2 s

end Sys2Proof.Machine
end

