-- ==== Sys2Proof/Machine/Jump.lean ====
section
/-! DEFINITION. Jump instructions (46_jump.md): the target is computed before the link is written, and is not checked here
(20_memory.md R46). -/

namespace Sys2Proof.Machine

/-- Write the link `pc + 4` to `rd` and go to `t` (46_jump.md R170, R171). -/
def linkAndJump (rd : Reg) (t : Word) (s : State) : Result := .next ((s.writeReg rd s.nextPc).setPc t)

/-- JAL (46_jump.md R170). -/
def execJal (rd : Reg) (imm : Word) (s : State) : Result := linkAndJump rd (s.pcPlus imm) s

/-- JALR (46_jump.md R171). -/
def execJalr (rd rs1 : Reg) (imm : Word) (s : State) : Result := linkAndJump rd (s.jalrTarget rs1 imm) s

end Sys2Proof.Machine
end

