-- ==== Sys2Proof/Machine/LoadStore.lean ====
section
/-! DEFINITION. Memory instructions (44_load_store.md): base plus offset, the checks of 20_memory.md R47 and R48. -/

namespace Sys2Proof.Machine

/-- LB (44_load_store.md R142). -/
def execLb (rd rs1 : Reg) (imm : Word) (s : State) : Result := s.load .byte extSign8 rd (s.ea rs1 imm)

/-- LH (44_load_store.md R143). -/
def execLh (rd rs1 : Reg) (imm : Word) (s : State) : Result := s.load .half extSign16 rd (s.ea rs1 imm)

/-- LW (44_load_store.md R144). -/
def execLw (rd rs1 : Reg) (imm : Word) (s : State) : Result := s.load .word extZero rd (s.ea rs1 imm)

/-- LBU (44_load_store.md R145). -/
def execLbu (rd rs1 : Reg) (imm : Word) (s : State) : Result := s.load .byte extZero rd (s.ea rs1 imm)

/-- LHU (44_load_store.md R146). -/
def execLhu (rd rs1 : Reg) (imm : Word) (s : State) : Result := s.load .half extZero rd (s.ea rs1 imm)

/-- SB (44_load_store.md R147). -/
def execSb (rs1 rs2 : Reg) (imm : Word) (s : State) : Result := s.store .byte (s.ea rs1 imm) (s.readReg rs2)

/-- SH (44_load_store.md R148). -/
def execSh (rs1 rs2 : Reg) (imm : Word) (s : State) : Result := s.store .half (s.ea rs1 imm) (s.readReg rs2)

/-- SW (44_load_store.md R149). -/
def execSw (rs1 rs2 : Reg) (imm : Word) (s : State) : Result := s.store .word (s.ea rs1 imm) (s.readReg rs2)

end Sys2Proof.Machine
end

