-- ==== Sys2Proof/Machine/Logic.lean ====
section
/-! DEFINITION. Logical instructions (41_logical.md): bitwise, the immediate sign-extended. -/

namespace Sys2Proof.Machine

/-- AND (41_logical.md R110). -/
def execAnd (rd rs1 rs2 : Reg) (s : State) : Result := opRR (· &&& ·) rd rs1 rs2 s

/-- OR (41_logical.md R111). -/
def execOr (rd rs1 rs2 : Reg) (s : State) : Result := opRR (· ||| ·) rd rs1 rs2 s

/-- XOR (41_logical.md R112). -/
def execXor (rd rs1 rs2 : Reg) (s : State) : Result := opRR (· ^^^ ·) rd rs1 rs2 s

/-- ANDI (41_logical.md R113). -/
def execAndi (rd rs1 : Reg) (imm : Word) (s : State) : Result := opRI (· &&& ·) rd rs1 imm s

/-- ORI (41_logical.md R114). -/
def execOri (rd rs1 : Reg) (imm : Word) (s : State) : Result := opRI (· ||| ·) rd rs1 imm s

/-- XORI (41_logical.md R115). -/
def execXori (rd rs1 : Reg) (imm : Word) (s : State) : Result := opRI (· ^^^ ·) rd rs1 imm s

end Sys2Proof.Machine
end

