-- ==== Sys2Proof/Machine/Mac.lean ====
section
/-! DEFINITION. MAC instructions (47_mac.md): the exact integer `a * b + c`, its low 32 bits written when it fits the
destination, else `ArithmeticOverflow` and nothing written. -/

namespace Sys2Proof.Machine

/-- The end of a MAC instruction whose exact result is `e` (47_mac.md R180; notes/assumptions/16.md). -/
def macFinish (fits : Int → Bool) (rd : Reg) (e : Int) (s : State) : Result :=
  .next (if fits e then s.finish rd (BitVec.ofInt 32 e) else s.raise .arithmeticOverflow)

/-- The exact result of MAC (47_mac.md R181). -/
def macValue (a b c : Word) : Int := a.toInt * b.toInt + c.toInt

/-- The exact result of MACU (47_mac.md R183). -/
def macuValue (a b c : Word) : Int := uval a * uval b + uval c

/-- The exact result of MACI, by the operand role of its immediate (47_mac.md R182; 93_implementation_defined.md U4;
notes/assumptions/22.md). -/
def maciValue (role : MaciRole) (a b imm : Word) : Int :=
  match role with
  | .immIsAddend => a.toInt * b.toInt + imm.toInt
  | .immIsFactor => a.toInt * imm.toInt + b.toInt

/-- MAC (47_mac.md R181). -/
def execMac (rd rs1 rs2 rs3 : Reg) (s : State) : Result :=
  macFinish (fitsSigned 32) rd (macValue (s.readReg rs1) (s.readReg rs2) (s.readReg rs3)) s

/-- MACI (47_mac.md R182). -/
def execMaci (rd rs1 rs2 : Reg) (imm : Word) (s : State) : Result :=
  macFinish (fitsSigned 32) rd (maciValue s.params.maciRole (s.readReg rs1) (s.readReg rs2) imm) s

/-- MACU (47_mac.md R183). -/
def execMacu (rd rs1 rs2 rs3 : Reg) (s : State) : Result :=
  macFinish (fitsUnsigned 32) rd (macuValue (s.readReg rs1) (s.readReg rs2) (s.readReg rs3)) s

end Sys2Proof.Machine
end

