-- ==== Sys2Proof/Machine/Shift.lean ====
section
/-! DEFINITION. Shift instructions (42_shift.md): the amount is `x[rs2][4:0]` or `shamt`, always 0 to 31. -/

namespace Sys2Proof.Machine

/-- `op rd, rs1, shamt`: the result of `f` on the register and the shift amount to `rd`. -/
def opRS (f : Word → Nat → Word) (rd rs1 : Reg) (shamt : Shamt) (s : State) : Result :=
  .next (s.finish rd (f (s.readReg rs1) shamt.val))

/-- SLL (42_shift.md R120). -/
def execSll (rd rs1 rs2 : Reg) (s : State) : Result := opRR (fun a b => a <<< shiftAmount b) rd rs1 rs2 s

/-- SRL (42_shift.md R121). -/
def execSrl (rd rs1 rs2 : Reg) (s : State) : Result := opRR (fun a b => a >>> shiftAmount b) rd rs1 rs2 s

/-- SRA (42_shift.md R122). -/
def execSra (rd rs1 rs2 : Reg) (s : State) : Result := opRR (fun a b => a.sshiftRight (shiftAmount b)) rd rs1 rs2 s

/-- SLLI (42_shift.md R123). -/
def execSlli (rd rs1 : Reg) (shamt : Shamt) (s : State) : Result := opRS (fun a k => a <<< k) rd rs1 shamt s

/-- SRLI (42_shift.md R124). -/
def execSrli (rd rs1 : Reg) (shamt : Shamt) (s : State) : Result := opRS (fun a k => a >>> k) rd rs1 shamt s

/-- SRAI (42_shift.md R125). -/
def execSrai (rd rs1 : Reg) (shamt : Shamt) (s : State) : Result := opRS (fun a k => a.sshiftRight k) rd rs1 shamt s

end Sys2Proof.Machine
end

