-- ==== Sys2Proof/Machine/Simd.lean ====
section
/-! DEFINITION. SIMD instructions (48_simd.md): four 8-bit or two 16-bit lanes, each computed alone; one overflowing lane
raises `ArithmeticOverflow` and no lane is written. -/

namespace Sys2Proof.Machine

/-- A 4x 8-bit instruction whose exact lane operation is `f` (48_simd.md R190, R191). -/
def simd4 (f : Int → Int → Int) (rd rs1 rs2 : Reg) (s : State) : Result :=
  .next (if anyLaneOverflows s.params.simdOvf f 8 4 (s.readReg rs1) (s.readReg rs2) then s.raise .arithmeticOverflow
    else s.finish rd (packLanes8 fun i => laneResult f (lane 8 (s.readReg rs1) i) (lane 8 (s.readReg rs2) i)))

/-- A 2x 16-bit instruction whose exact lane operation is `f` (48_simd.md R190, R191). -/
def simd2 (f : Int → Int → Int) (rd rs1 rs2 : Reg) (s : State) : Result :=
  .next (if anyLaneOverflows s.params.simdOvf f 16 2 (s.readReg rs1) (s.readReg rs2) then s.raise .arithmeticOverflow
    else s.finish rd (packLanes16 fun i => laneResult f (lane 16 (s.readReg rs1) i) (lane 16 (s.readReg rs2) i)))

/-- ADD4 (48_simd.md R192). -/
def execAdd4 (rd rs1 rs2 : Reg) (s : State) : Result := simd4 (· + ·) rd rs1 rs2 s

/-- SUB4 (48_simd.md R193). -/
def execSub4 (rd rs1 rs2 : Reg) (s : State) : Result := simd4 (· - ·) rd rs1 rs2 s

/-- MUL4 (48_simd.md R194). -/
def execMul4 (rd rs1 rs2 : Reg) (s : State) : Result := simd4 (· * ·) rd rs1 rs2 s

/-- AND4 (48_simd.md R195). -/
def execAnd4 (rd rs1 rs2 : Reg) (s : State) : Result := opRR (· &&& ·) rd rs1 rs2 s

/-- OR4 (48_simd.md R196). -/
def execOr4 (rd rs1 rs2 : Reg) (s : State) : Result := opRR (· ||| ·) rd rs1 rs2 s

/-- XOR4 (48_simd.md R197). -/
def execXor4 (rd rs1 rs2 : Reg) (s : State) : Result := opRR (· ^^^ ·) rd rs1 rs2 s

/-- SHIFT4 (48_simd.md R198): the open function `SHIFT4_FN` gives a value or the token overflow (notes/assumptions/19.md). -/
def execShift4 (rd rs1 rs2 : Reg) (s : State) : Result :=
  .next (match Config.shift4Fn (s.readReg rs1) (s.readReg rs2) with
    | some r => s.finish rd r
    | none => s.raise .arithmeticOverflow)

/-- ADD2 (48_simd.md R199). -/
def execAdd2 (rd rs1 rs2 : Reg) (s : State) : Result := simd2 (· + ·) rd rs1 rs2 s

/-- SUB2 (48_simd.md R200). -/
def execSub2 (rd rs1 rs2 : Reg) (s : State) : Result := simd2 (· - ·) rd rs1 rs2 s

/-- MUL2 (48_simd.md R201). -/
def execMul2 (rd rs1 rs2 : Reg) (s : State) : Result := simd2 (· * ·) rd rs1 rs2 s

end Sys2Proof.Machine
end

