-- ==== Sys2Proof/Machine/System.lean ====
section
/-! DEFINITION. Exception return (60_exceptions.md R245). -/

namespace Sys2Proof.Machine

/-- MRET: `pc <- mepc` and nothing else, at any time (60_exceptions.md R245). -/
def execMret (s : State) : Result := .next s.returnFromTrap

end Sys2Proof.Machine
end

