-- ==== Sys2Proof/Machine/Dispatch.lean ====
section
/-! DEFINITION. One arm per instruction, each a direct call of its meaning. -/

namespace Sys2Proof.Machine

/-- The execution of one instruction, step 5 of 00_scope.md R8. -/
def exec (i : Instr) (s : State) : Host.Outcome State Fault Refusal :=
  match i with
  -- Arithmetic (40_arithmetic.md)
  | .add rd rs1 rs2 => Sys2Proof.Machine.execAdd rd rs1 rs2 s
  | .sub rd rs1 rs2 => Sys2Proof.Machine.execSub rd rs1 rs2 s
  | .addi rd rs1 imm => Sys2Proof.Machine.execAddi rd rs1 imm s
  | .subi rd rs1 imm => Sys2Proof.Machine.execSubi rd rs1 imm s
  -- Logical (41_logical.md)
  | .and rd rs1 rs2 => Sys2Proof.Machine.execAnd rd rs1 rs2 s
  | .or rd rs1 rs2 => Sys2Proof.Machine.execOr rd rs1 rs2 s
  | .xor rd rs1 rs2 => Sys2Proof.Machine.execXor rd rs1 rs2 s
  | .andi rd rs1 imm => Sys2Proof.Machine.execAndi rd rs1 imm s
  | .ori rd rs1 imm => Sys2Proof.Machine.execOri rd rs1 imm s
  | .xori rd rs1 imm => Sys2Proof.Machine.execXori rd rs1 imm s
  -- Shift (42_shift.md)
  | .sll rd rs1 rs2 => Sys2Proof.Machine.execSll rd rs1 rs2 s
  | .srl rd rs1 rs2 => Sys2Proof.Machine.execSrl rd rs1 rs2 s
  | .sra rd rs1 rs2 => Sys2Proof.Machine.execSra rd rs1 rs2 s
  | .slli rd rs1 shamt => Sys2Proof.Machine.execSlli rd rs1 shamt s
  | .srli rd rs1 shamt => Sys2Proof.Machine.execSrli rd rs1 shamt s
  | .srai rd rs1 shamt => Sys2Proof.Machine.execSrai rd rs1 shamt s
  -- Comparison (43_compare.md)
  | .slt rd rs1 rs2 => Sys2Proof.Machine.execSlt rd rs1 rs2 s
  | .sltu rd rs1 rs2 => Sys2Proof.Machine.execSltu rd rs1 rs2 s
  | .slti rd rs1 imm => Sys2Proof.Machine.execSlti rd rs1 imm s
  | .sltiu rd rs1 imm => Sys2Proof.Machine.execSltiu rd rs1 imm s
  -- Memory (44_load_store.md)
  | .lb rd rs1 imm => Sys2Proof.Machine.execLb rd rs1 imm s
  | .lh rd rs1 imm => Sys2Proof.Machine.execLh rd rs1 imm s
  | .lw rd rs1 imm => Sys2Proof.Machine.execLw rd rs1 imm s
  | .lbu rd rs1 imm => Sys2Proof.Machine.execLbu rd rs1 imm s
  | .lhu rd rs1 imm => Sys2Proof.Machine.execLhu rd rs1 imm s
  | .sb rs1 rs2 imm => Sys2Proof.Machine.execSb rs1 rs2 imm s
  | .sh rs1 rs2 imm => Sys2Proof.Machine.execSh rs1 rs2 imm s
  | .sw rs1 rs2 imm => Sys2Proof.Machine.execSw rs1 rs2 imm s
  -- Branch (45_branch.md)
  | .beq rs1 rs2 imm => Sys2Proof.Machine.execBeq rs1 rs2 imm s
  | .bne rs1 rs2 imm => Sys2Proof.Machine.execBne rs1 rs2 imm s
  | .blt rs1 rs2 imm => Sys2Proof.Machine.execBlt rs1 rs2 imm s
  | .bge rs1 rs2 imm => Sys2Proof.Machine.execBge rs1 rs2 imm s
  | .bltu rs1 rs2 imm => Sys2Proof.Machine.execBltu rs1 rs2 imm s
  | .bgeu rs1 rs2 imm => Sys2Proof.Machine.execBgeu rs1 rs2 imm s
  -- Jump (46_jump.md)
  | .jal rd imm => Sys2Proof.Machine.execJal rd imm s
  | .jalr rd rs1 imm => Sys2Proof.Machine.execJalr rd rs1 imm s
  -- MAC (47_mac.md)
  | .mac rd rs1 rs2 rs3 => Sys2Proof.Machine.execMac rd rs1 rs2 rs3 s
  | .maci rd rs1 rs2 imm => Sys2Proof.Machine.execMaci rd rs1 rs2 imm s
  | .macu rd rs1 rs2 rs3 => Sys2Proof.Machine.execMacu rd rs1 rs2 rs3 s
  -- SIMD (48_simd.md)
  | .add4 rd rs1 rs2 => Sys2Proof.Machine.execAdd4 rd rs1 rs2 s
  | .sub4 rd rs1 rs2 => Sys2Proof.Machine.execSub4 rd rs1 rs2 s
  | .mul4 rd rs1 rs2 => Sys2Proof.Machine.execMul4 rd rs1 rs2 s
  | .and4 rd rs1 rs2 => Sys2Proof.Machine.execAnd4 rd rs1 rs2 s
  | .or4 rd rs1 rs2 => Sys2Proof.Machine.execOr4 rd rs1 rs2 s
  | .xor4 rd rs1 rs2 => Sys2Proof.Machine.execXor4 rd rs1 rs2 s
  | .shift4 rd rs1 rs2 => Sys2Proof.Machine.execShift4 rd rs1 rs2 s
  | .add2 rd rs1 rs2 => Sys2Proof.Machine.execAdd2 rd rs1 rs2 s
  | .sub2 rd rs1 rs2 => Sys2Proof.Machine.execSub2 rd rs1 rs2 s
  | .mul2 rd rs1 rs2 => Sys2Proof.Machine.execMul2 rd rs1 rs2 s
  -- DSP-specific (49_dsp_specific.md)
  | .sat rd rs1 => Sys2Proof.Machine.execSat rd rs1 s
  | .clip rd rs1 rs2 => Sys2Proof.Machine.execClip rd rs1 rs2 s
  | .round rd rs1 => Sys2Proof.Machine.execRound rd rs1 s
  | .bitReverse rd rs1 => Sys2Proof.Machine.execBitReverse rd rs1 s
  | .circularAddr rd rs1 rs2 => Sys2Proof.Machine.execCircularAddr rd rs1 rs2 s
  -- Exception return (60_exceptions.md)
  | .mret => Sys2Proof.Machine.execMret s

end Sys2Proof.Machine
end

