-- ==== Sys2Proof/Machine/Fetch.lean ====
section
/-! DEFINITION. Instruction fetch (20_memory.md R45, R46, R54), what a word that selects no instruction does (30_encoding.md
R80), and the placing of a program word from outside. -/

namespace Sys2Proof.Machine

/-- What the fetch of one step gives: a word, an exception, or a stop. -/
inductive Fetched where
  | word (w : Word)
  | raise (c : Cause)
  | fault (f : Fault)
  | refused (r : Refusal)
  deriving DecidableEq, Repr

/-- The word fetched at `a`, if all its bytes hold a value (93_implementation_defined.md U9). -/
def fetchedWord (a : Word) : Option Word → Fetched
  | some w => .word w
  | none => .fault (.unwrittenFetch a)

/-- Some byte of the fetch at `a` has been written by a store of the run (20_memory.md R54). -/
def State.fetchMeetsStore (s : State) (a : Word) : Bool := (byteAddrs a 4).any fun x => s.stored.contains x

/-- The four bytes at `a` as a fetch sees them, by `IFETCH_SEES_STORES` (20_memory.md R45, R54). -/
def State.fetchBytes (s : State) (a : Word) : Fetched :=
  match s.params.fetchCoherence with
  | .unset =>
    if s.fetchMeetsStore a then .refused (.fetchAfterStore s.pc) else fetchedWord a (s.mem.readWord a)
  | .sees => fetchedWord a (s.mem.readWord a)
  | .seesNot => fetchedWord a (s.image.readWord a)

/-- The fetch at an aligned address: `InstructionAccessFault` unless the platform allows it (20_memory.md R45). -/
def State.fetchAt (s : State) (a : Word) : Fetched :=
  if validAccess s.params .fetch a then s.fetchBytes a else .raise .instructionAccessFault

/-- The fetch of a step, steps 1 to 3 of 00_scope.md R8: alignment of the pc (20_memory.md R46), validity, the bytes. -/
def State.fetch (s : State) : Fetched :=
  if isAligned s.pc 4 then s.fetchAt s.pc
  else
    match s.params.misalignedFetch with
    | .refuse => .refused (.misalignedFetch s.pc)
    | .trap => .raise .instructionAccessFault
    | .ignoreLowBits => s.fetchAt (alignDown s.pc 4)

/-- A word that selects no instruction: `IllegalInstruction` (30_encoding.md R80; 60_exceptions.md R237), but a word of the
class of 93_implementation_defined.md U6 by the parameter `unlistedWords`. -/
def State.reject (s : State) : Reject → Result
  | .illegal => .next (s.raise .illegalInstruction)
  | .unlisted g =>
    match s.params.unlistedWords with
    | .refuse => .refused (.unlistedWord g)
    | .trap => .next (s.raise .illegalInstruction)

/-- The address the next fetch reads. -/
def State.fetchAddr (s : State) : Word :=
  match s.params.misalignedFetch with
  | .ignoreLowBits => alignDown s.pc 4
  | _ => s.pc

/-- `s` with the word `v` placed from outside where the next fetch reads: in memory and in the image of the run, its bytes
no longer counted as stored to (notes/assumptions/25.md). -/
def State.placeWord (s : State) (v : Word) : State :=
  { s with
    mem := s.mem.writeLE .word s.fetchAddr v
    image := s.image.writeLE .word s.fetchAddr v
    stored := s.stored.remove (byteAddrs s.fetchAddr 4) }

/-- `s` with the instruction of the bits `w`, of which `nbits` are given and the others are 0, where the next fetch reads. -/
def State.placeBits (s : State) (nbits w : Nat) : State := s.placeWord (BitVec.ofNat 32 (w % 2 ^ nbits))

end Sys2Proof.Machine
end

