-- ==== Sys2Proof/Machine/Run.lean ====
section
/-! DEFINITION. What a step does with what its fetch gave (00_scope.md R8), which `step` only calls. -/

namespace Sys2Proof.Machine

/-- Steps 4 and 5 of 00_scope.md R8: decode the fetched word by the `ENC` of the platform, then execute the instruction or reject the word. -/
def runWord (s : State) (w : Word) : Result :=
  match s.params.enc.decode w with
  | .ok i => exec i s
  | .error r => s.reject r

/-- The rest of a step after its fetch, in the order of 60_exceptions.md R238. -/
def runFetched (s : State) : Fetched → Result
  | .word w => runWord s w
  | .raise c => .next (s.raise c)
  | .fault f => .fault f
  | .refused r => .refused r

end Sys2Proof.Machine
end

