-- ==== Sys2Proof/Machine/Step.lean ====
section
/-! DEFINITION. One step of the machine (00_scope.md R8), and the placing of the next instruction from outside. -/

namespace Sys2Proof.Machine

/-- One step of the machine (00_scope.md R8): fetch, decode, execute, in that order (60_exceptions.md R238). -/
def step (s : State) : Host.Outcome State Fault Refusal := runFetched s s.fetch

/-- `s` with the instruction whose bits are `w`, of which the table gives `nbits`, where `step` fetches next
(notes/assumptions/25.md). -/
def State.withFetchWord (s : State) (nbits w : Nat) : State := s.placeBits nbits w

end Sys2Proof.Machine
end

