-- ==== Sys2Proof/Safety.lean ====
section
/-! DEFINITION. The terms claims are stated in: what an instruction changed and left unchanged (frames), the invariants of
the machine, and what counts as a stop and as the end of a run. -/

namespace Sys2Proof.Machine

/-! ## Frames: `t` is the state after, `s` the state before -/

/-- Every general register reads as before. -/
def SameRegs (s t : State) : Prop := ∀ r, t.readReg r = s.readReg r

/-- Only register `rd` may have changed, and it reads `v` unless it is `x0` (10_state.md R21). -/
def RegsWritten (s t : State) (rd : Reg) (v : Word) : Prop :=
  ∀ r, t.readReg r = if r = rd ∧ rd ≠ 0 then v else s.readReg r

/-- `mcause` and `mepc` are as before. -/
def SameTrapRegs (s t : State) : Prop := t.mcause = s.mcause ∧ t.mepc = s.mepc

/-- Every byte of memory reads as before, and the model's own fields are as before. -/
def SameStorage (s t : State) : Prop :=
  (∀ x, t.mem.read x = s.mem.read x) ∧ t.image = s.image ∧ t.stored = s.stored ∧ t.params = s.params

/-- The effect of an instruction that writes `v` to `rd` and goes on to the next instruction. -/
def Writes (s t : State) (rd : Reg) (v : Word) : Prop :=
  RegsWritten s t rd v ∧ t.pc = s.pc + 4#32 ∧ SameTrapRegs s t ∧ SameStorage s t

/-- The effect of a jump to `target` that writes the link to `rd`. -/
def Links (s t : State) (rd : Reg) (target : Word) : Prop :=
  RegsWritten s t rd (s.pc + 4#32) ∧ t.pc = target ∧ SameTrapRegs s t ∧ SameStorage s t

/-- The effect of an instruction that only sets the pc. -/
def GoesTo (s t : State) (target : Word) : Prop :=
  SameRegs s t ∧ t.pc = target ∧ SameTrapRegs s t ∧ SameStorage s t

/-- The effect of a store of the low `n` bytes of `v` at `a`: those bytes hold them, every other byte reads as before, the
bytes count as stored to, and nothing else but the pc changes. -/
def Stores (s t : State) (a : Word) (n : Nat) (v : Word) : Prop :=
  SameRegs s t ∧ t.pc = s.pc + 4#32 ∧ SameTrapRegs s t ∧
  (∀ i < n, t.mem.read (byteAddr a i) = some (byteOf v i)) ∧
  (∀ x, x ∉ byteAddrs a n → t.mem.read x = s.mem.read x) ∧
  (∀ x, x ∈ t.stored ↔ x ∈ s.stored ∨ x ∈ byteAddrs a n) ∧
  t.image = s.image ∧ t.params = s.params

/-- The effect of trap entry with cause `c` (60_exceptions.md R240). -/
def Traps (s t : State) (c : Cause) : Prop :=
  t.mepc = s.pc ∧ t.mcause = codeOf s.params.causes c ∧ t.pc = 0x00000000#32 ∧ SameRegs s t ∧ SameStorage s t

/-- `i` answers a next state whose effect is `P`. -/
def Completes (i : Instr) (s : State) (P : State → Prop) : Prop := ∃ t, exec i s = .next t ∧ P t

/-- Every word with `(w & mask) = pattern` decodes to `build w` in the spec's encoding (30_encoding.md R75). -/
def Selects (mask pattern : Word) (build : Word → Instr) : Prop :=
  ∀ w : Word, w &&& mask = pattern → decode w = .ok (build w)

/-! ## What a fetch reads -/

/-- A fetch at `a` sees the word `w`, by `IFETCH_SEES_STORES`: unset, the bytes of memory, of which no store has written any
(20_memory.md R54); `sees`, the bytes of memory; `seesNot`, those of the initial image (notes/assumptions/10.md). -/
def FetchSees (s : State) (a w : Word) : Prop :=
  match s.params.fetchCoherence with
  | .unset => s.mem.readWord a = some w ∧ ∀ x ∈ byteAddrs a 4, x ∉ s.stored
  | .sees => s.mem.readWord a = some w
  | .seesNot => s.image.readWord a = some w

/-- A byte that a fetch at `a` would read holds no value, and the fetch is not refused for a stored-to byte
(93_implementation_defined.md U9; notes/assumptions/4.md, 10.md). -/
def FetchLacks (s : State) (a : Word) : Prop :=
  match s.params.fetchCoherence with
  | .unset => (∃ x ∈ byteAddrs a 4, s.mem.read x = none) ∧ ∀ x ∈ byteAddrs a 4, x ∉ s.stored
  | .sees => ∃ x ∈ byteAddrs a 4, s.mem.read x = none
  | .seesNot => ∃ x ∈ byteAddrs a 4, s.image.read x = none

/-! ## Kinds of instruction -/

/-- The destination register of an instruction that has an `rd` field (10_state.md R21). -/
def destOf : Instr → Option Reg
  | .add rd _ _ | .sub rd _ _ | .and rd _ _ | .or rd _ _ | .xor rd _ _ => some rd
  | .addi rd _ _ | .subi rd _ _ | .andi rd _ _ | .ori rd _ _ | .xori rd _ _ => some rd
  | .sll rd _ _ | .srl rd _ _ | .sra rd _ _ | .slli rd _ _ | .srli rd _ _ | .srai rd _ _ => some rd
  | .slt rd _ _ | .sltu rd _ _ | .slti rd _ _ | .sltiu rd _ _ => some rd
  | .lb rd _ _ | .lh rd _ _ | .lw rd _ _ | .lbu rd _ _ | .lhu rd _ _ => some rd
  | .sb _ _ _ | .sh _ _ _ | .sw _ _ _ => none
  | .beq _ _ _ | .bne _ _ _ | .blt _ _ _ | .bge _ _ _ | .bltu _ _ _ | .bgeu _ _ _ => none
  | .jal rd _ | .jalr rd _ _ => some rd
  | .mac rd _ _ _ | .maci rd _ _ _ | .macu rd _ _ _ => some rd
  | .add4 rd _ _ | .sub4 rd _ _ | .mul4 rd _ _ | .and4 rd _ _ | .or4 rd _ _ | .xor4 rd _ _ => some rd
  | .shift4 rd _ _ | .add2 rd _ _ | .sub2 rd _ _ | .mul2 rd _ _ => some rd
  | .sat rd _ | .clip rd _ _ | .round rd _ | .bitReverse rd _ | .circularAddr rd _ _ => some rd
  | .mret => none

/-- LB, LH, LW, LBU, LHU (60_exceptions.md R233). -/
def IsLoad (i : Instr) : Prop :=
  ∃ rd rs1 imm, i = .lb rd rs1 imm ∨ i = .lh rd rs1 imm ∨ i = .lw rd rs1 imm ∨ i = .lbu rd rs1 imm ∨ i = .lhu rd rs1 imm

/-- SB, SH, SW (60_exceptions.md R234). -/
def IsStore (i : Instr) : Prop := ∃ rs1 rs2 imm, i = .sb rs1 rs2 imm ∨ i = .sh rs1 rs2 imm ∨ i = .sw rs1 rs2 imm

/-- The instructions that can raise Arithmetic Overflow: the MAC family, the six arithmetic SIMD instructions and SHIFT4
(60_exceptions.md R235). -/
def MayOverflow (i : Instr) : Prop :=
  ∃ rd rs1 rs2 rs3 imm, i = .mac rd rs1 rs2 rs3 ∨ i = .maci rd rs1 rs2 imm ∨ i = .macu rd rs1 rs2 rs3 ∨
    i = .add4 rd rs1 rs2 ∨ i = .sub4 rd rs1 rs2 ∨ i = .mul4 rd rs1 rs2 ∨ i = .shift4 rd rs1 rs2 ∨
    i = .add2 rd rs1 rs2 ∨ i = .sub2 rd rs1 rs2 ∨ i = .mul2 rd rs1 rs2

/-! ## Shapes of claim that several instructions share -/

/-- A load of `n` bytes, for every state and operands (20_memory.md R47): at an aligned, valid address whose bytes hold a
value it writes that value, at an aligned invalid one it takes the Load Access Fault, at a misaligned one it is refused
when `MISALIGNED_DATA` is `refuse`. `value` reads the bytes and extends them. -/
def LoadClaim (mk : Reg → Reg → Word → Instr) (w : Width) (value : Memory → Word → Option Word) : Prop :=
  ∀ (s : State) (rd rs1 : Reg) (imm : Word),
    (∀ v, (s.readReg rs1 + imm).toNat % w.bytes = 0 → validAccess s.params (.load w) (s.readReg rs1 + imm) = true →
      value s.mem (s.readReg rs1 + imm) = some v → Completes (mk rd rs1 imm) s (fun t => Writes s t rd v)) ∧
    ((s.readReg rs1 + imm).toNat % w.bytes = 0 → validAccess s.params (.load w) (s.readReg rs1 + imm) = false →
      Completes (mk rd rs1 imm) s (fun t => Traps s t .loadAccessFault)) ∧
    ((s.readReg rs1 + imm).toNat % w.bytes ≠ 0 → s.params.misalignedData = .refuse →
      exec (mk rd rs1 imm) s = .refused (.misalignedData (s.readReg rs1 + imm)))

/-- A store of `n` bytes, for every state and operands (20_memory.md R48): at an aligned, valid address it writes the low
`n` bytes of `x[rs2]` and nothing else, at an aligned invalid one it takes the Store Access Fault, at a misaligned one it is
refused when `MISALIGNED_DATA` is `refuse`. -/
def StoreClaim (mk : Reg → Reg → Word → Instr) (w : Width) : Prop :=
  ∀ (s : State) (rs1 rs2 : Reg) (imm : Word),
    ((s.readReg rs1 + imm).toNat % w.bytes = 0 → validAccess s.params (.store w) (s.readReg rs1 + imm) = true →
      Completes (mk rs1 rs2 imm) s (fun t => Stores s t (s.readReg rs1 + imm) w.bytes (s.readReg rs2))) ∧
    ((s.readReg rs1 + imm).toNat % w.bytes = 0 → validAccess s.params (.store w) (s.readReg rs1 + imm) = false →
      Completes (mk rs1 rs2 imm) s (fun t => Traps s t .storeAccessFault)) ∧
    ((s.readReg rs1 + imm).toNat % w.bytes ≠ 0 → s.params.misalignedData = .refuse →
      exec (mk rs1 rs2 imm) s = .refused (.misalignedData (s.readReg rs1 + imm)))

/-- A misaligned load under the three settings of `MISALIGNED_DATA` that do not refuse it (notes/assumptions/8.md): the Load
Access Fault; the aligned access at the address with its low bits ignored; the value made of `n` single-byte accesses, or the
Load Access Fault when the platform does not allow all of them. An access allowed of which a byte holds no value faults
(notes/assumptions/4.md). `ext` is given the bytes zero-extended. -/
def MisalignedLoadClaim (mk : Reg → Reg → Word → Instr) (w : Width) (ext : Word → Word) : Prop :=
  ∀ (s : State) (rd rs1 : Reg) (imm v : Word), (s.readReg rs1 + imm).toNat % w.bytes ≠ 0 →
    (s.params.misalignedData = .trap → Completes (mk rd rs1 imm) s (fun t => Traps s t .loadAccessFault)) ∧
    (s.params.misalignedData = .ignoreLowBits →
      ∀ a : Word, a.toNat = (s.readReg rs1 + imm).toNat - (s.readReg rs1 + imm).toNat % w.bytes →
        (validAccess s.params (.load w) a = true → s.mem.readLE w a = some v →
          Completes (mk rd rs1 imm) s (fun t => Writes s t rd (ext v))) ∧
        (validAccess s.params (.load w) a = true → s.mem.readLE w a = none →
          exec (mk rd rs1 imm) s = .fault (.unwrittenLoad a)) ∧
        (validAccess s.params (.load w) a = false →
          Completes (mk rd rs1 imm) s (fun t => Traps s t .loadAccessFault))) ∧
    (s.params.misalignedData = .splitBytes →
      ((∀ i < w.bytes, validAccess s.params (.load .byte) (s.readReg rs1 + imm + BitVec.ofNat 32 i) = true) →
        s.mem.readLE w (s.readReg rs1 + imm) = some v →
        Completes (mk rd rs1 imm) s (fun t => Writes s t rd (ext v))) ∧
      ((∀ i < w.bytes, validAccess s.params (.load .byte) (s.readReg rs1 + imm + BitVec.ofNat 32 i) = true) →
        s.mem.readLE w (s.readReg rs1 + imm) = none →
        exec (mk rd rs1 imm) s = .fault (.unwrittenLoad (s.readReg rs1 + imm))) ∧
      (¬ (∀ i < w.bytes, validAccess s.params (.load .byte) (s.readReg rs1 + imm + BitVec.ofNat 32 i) = true) →
        Completes (mk rd rs1 imm) s (fun t => Traps s t .loadAccessFault)))

/-- A misaligned store under the three settings of `MISALIGNED_DATA` that do not refuse it (notes/assumptions/8.md): the Store
Access Fault; the aligned store at the address with its low bits ignored; the `n` single-byte stores, or the Store Access
Fault with none of them done when the platform does not allow all of them. -/
def MisalignedStoreClaim (mk : Reg → Reg → Word → Instr) (w : Width) : Prop :=
  ∀ (s : State) (rs1 rs2 : Reg) (imm : Word), (s.readReg rs1 + imm).toNat % w.bytes ≠ 0 →
    (s.params.misalignedData = .trap → Completes (mk rs1 rs2 imm) s (fun t => Traps s t .storeAccessFault)) ∧
    (s.params.misalignedData = .ignoreLowBits →
      ∀ a : Word, a.toNat = (s.readReg rs1 + imm).toNat - (s.readReg rs1 + imm).toNat % w.bytes →
        (validAccess s.params (.store w) a = true →
          Completes (mk rs1 rs2 imm) s (fun t => Stores s t a w.bytes (s.readReg rs2))) ∧
        (validAccess s.params (.store w) a = false →
          Completes (mk rs1 rs2 imm) s (fun t => Traps s t .storeAccessFault))) ∧
    (s.params.misalignedData = .splitBytes →
      ((∀ i < w.bytes, validAccess s.params (.store .byte) (s.readReg rs1 + imm + BitVec.ofNat 32 i) = true) →
        Completes (mk rs1 rs2 imm) s (fun t => Stores s t (s.readReg rs1 + imm) w.bytes (s.readReg rs2))) ∧
      (¬ (∀ i < w.bytes, validAccess s.params (.store .byte) (s.readReg rs1 + imm + BitVec.ofNat 32 i) = true) →
        Completes (mk rs1 rs2 imm) s (fun t => Traps s t .storeAccessFault)))

/-- The two exact results of a lane are in range under `SIMD_OVF` (48_simd.md R191). -/
def LaneInRange (o : SimdOvf) (w : Nat) (es eu : Int) : Prop :=
  match o with
  | .signed => -2 ^ (w - 1) ≤ es ∧ es ≤ 2 ^ (w - 1) - 1
  | .unsigned => 0 ≤ eu ∧ eu ≤ 2 ^ w - 1
  | .either => (-2 ^ (w - 1) ≤ es ∧ es ≤ 2 ^ (w - 1) - 1) ∧ 0 ≤ eu ∧ eu ≤ 2 ^ w - 1

/-- `f` on the signed readings of lane `i` (48_simd.md R191). -/
def laneSigned (f : Int → Int → Int) (w : Nat) (a b : Word) (i : Nat) : Int :=
  f (a.extractLsb' (w * i) w).toInt (b.extractLsb' (w * i) w).toInt

/-- `f` on the unsigned readings of lane `i` (48_simd.md R191). -/
def laneUnsigned (f : Int → Int → Int) (w : Nat) (a b : Word) (i : Nat) : Int :=
  f ((a.extractLsb' (w * i) w).toNat : Int) ((b.extractLsb' (w * i) w).toNat : Int)

/-- Every lane of the two operands is in range under `o`. -/
def LanesInRange (o : SimdOvf) (f : Int → Int → Int) (w n : Nat) (a b : Word) : Prop :=
  ∀ i < n, LaneInRange o w (laneSigned f w a b i) (laneUnsigned f w a b i)

/-- An arithmetic SIMD instruction with `n` lanes of `w` bits, for every state and operands (48_simd.md R191): when every
lane is in range it writes the low `w` bits of each exact lane result, else it takes Arithmetic Overflow. -/
def SimdClaim (mk : Reg → Reg → Reg → Instr) (f : Int → Int → Int) (w n : Nat) : Prop :=
  ∀ (s : State) (rd rs1 rs2 : Reg),
    (LanesInRange s.params.simdOvf f w n (s.readReg rs1) (s.readReg rs2) →
      Completes (mk rd rs1 rs2) s (fun t => ∃ v, Writes s t rd v ∧
        ∀ i < n, v.extractLsb' (w * i) w = BitVec.ofInt w (laneUnsigned f w (s.readReg rs1) (s.readReg rs2) i))) ∧
    (¬ LanesInRange s.params.simdOvf f w n (s.readReg rs1) (s.readReg rs2) →
      Completes (mk rd rs1 rs2) s (fun t => Traps s t .arithmeticOverflow))

/-- `s` with `SIMD_OVF` set to `o`. -/
def withSimdOvf (o : SimdOvf) (s : State) : State := { s with params := { s.params with simdOvf := o } }

/-- The value an arithmetic SIMD instruction writes does not depend on `SIMD_OVF` (48_simd.md R191): one value is written
under every setting under which no lane overflows, each lane of it the low bits of the exact lane result, and when no
lane overflows under `either`, it is the exact result under both readings. -/
def SimdSettingClaim (mk : Reg → Reg → Reg → Instr) (f : Int → Int → Int) (w n : Nat) : Prop :=
  ∀ (s : State) (rd rs1 rs2 : Reg), ∃ v : Word,
    (∀ i < n, v.extractLsb' (w * i) w = BitVec.ofInt w (laneSigned f w (s.readReg rs1) (s.readReg rs2) i)) ∧
    (∀ o, LanesInRange o f w n (s.readReg rs1) (s.readReg rs2) →
      Completes (mk rd rs1 rs2) (withSimdOvf o s) (fun t => Writes (withSimdOvf o s) t rd v)) ∧
    (LanesInRange .either f w n (s.readReg rs1) (s.readReg rs2) → ∀ i < n,
      (v.extractLsb' (w * i) w).toInt = laneSigned f w (s.readReg rs1) (s.readReg rs2) i ∧
      ((v.extractLsb' (w * i) w).toNat : Int) = laneUnsigned f w (s.readReg rs1) (s.readReg rs2) i)

/-- The words of 93_implementation_defined.md U6: LUI, AUIPC, FENCE, ECALL, EBREAK, WFI, CSR access, the multiply and
divide group, and every word that would begin a 16-bit form, but not the all-zero word. -/
def IsU6 (w : Word) : Prop :=
  w ≠ 0 ∧ (w &&& 3#32 ≠ 3#32 ∨ w &&& 0x7F#32 = 0x37#32 ∨ w &&& 0x7F#32 = 0x17#32 ∨ w &&& 0x7F#32 = 0x0F#32 ∨
    w = 0x00000073#32 ∨ w = 0x00100073#32 ∨ w = 0x10500073#32 ∨
    (w &&& 0x7F#32 = 0x73#32 ∧ w &&& 0x7000#32 ≠ 0#32 ∧ w &&& 0x7000#32 ≠ 0x4000#32) ∨
    w &&& 0xFE00007F#32 = 0x02000033#32)

/-! ## Invariants -/

/-- Memory, the image and the set of stored-to addresses are in canonical form, within the address space. -/
abbrev State.Canonical (s : State) : Prop := s.mem.wf ∧ s.image.wf ∧ s.stored.wf ∧ ∀ x ∈ s.stored, x < addressSpace

/-- A byte that no store of the run has written is the byte of the initial image (20_memory.md R52). -/
def State.UnstoredAsImage (s : State) : Prop := ∀ x, x ∉ s.stored → s.mem.read x = s.image.read x

/-- Under the spec's setting of `MISALIGNED_FETCH`, the return address is a multiple of 4 (10_state.md R28). -/
abbrev State.MepcAligned (s : State) : Prop := s.params.misalignedFetch = .refuse ∧ isAligned s.mepc 4 = true

/-! ## Stops and the end of a run -/

/-- The machine answers a next state. -/
def State.Runs (s : State) : Prop := ∃ t, step s = .next t

/-- A safe run of `k` steps: no fault and no refusal on the way. -/
def SafeFor (k : Nat) (s : State) : Prop := ∃ t, Sys2Proof.core.run k s = .next t

/-- The run is over, by the runner's convention `HALT_PC` (70_reset_and_hazards.md R273; notes/assumptions/26.md). -/
def Halted (haltPc : Word) (s : State) : Prop := s.pc = haltPc

/-- The endless trap loop of 60_exceptions.md R243, stuck for any claim about termination
(93_implementation_defined.md U11). -/
def InFetchFaultLoop (s : State) : Prop := s.pc = trapVector ∧ validAccess s.params .fetch trapVector = false

end Sys2Proof.Machine
end

