-- ==== Sys2Proof/Certificates/Slice0/Obligations.lean ====
section
/-! DEFINITION. The statements for the provers. `Completes i s P` says that `exec i s` answers a next state `t` with `P t`;
`Writes`, `Links`, `GoesTo`, `Stores` and `Traps` are whole frames (Safety.lean). Every statement about a state holds for
every choice of the open parameters, which the state carries. `decode` and `encode` are those of the spec's encoding; a
step decodes by `s.params.enc`, the `ENC` of its platform, which after reset is the spec's (`specEnc`). -/

open Sys2Proof Sys2Proof.Machine

/-! ## Encoding -/

/-- Every well-formed instruction is read back from its own word, and from its four bytes in memory order. Rests on the
spec's encoding table (30_encoding.md R61 to R79). -/
def Obligations.DecodeEncodeRoundTrip : Prop :=
  ∀ i : Instr, WellFormed i → decode (encode i) = .ok i ∧
    decodeBytes (byteOf (encode i) 0) (byteOf (encode i) 1) (byteOf (encode i) 2) (byteOf (encode i) 3) = .ok i

/-- A word that decodes is the word of the instruction it decodes to, which is well formed: no bit of it is ignored. -/
def Obligations.EncodeDecodeRoundTrip : Prop :=
  ∀ (w : Word) (i : Instr), decode w = .ok i → WellFormed i ∧ encode i = w

/-- 30_encoding.md R75: 55 rows, one per mnemonic, no two of which can match one word; a word that matches a row is that
row's instruction, a word that matches none is no instruction. -/
def Obligations.OpcodeTableIsUnambiguous : Prop :=
  opcodeTable.length = 55 ∧ (opcodeTable.map Row.mnemonic).Nodup ∧
  (∀ r ∈ opcodeTable, ∀ q ∈ opcodeTable, ∀ w : Word, w &&& r.mask = r.pattern → w &&& q.mask = q.pattern →
    r.mnemonic = q.mnemonic) ∧
  (∀ r ∈ opcodeTable, ∀ w : Word, w &&& r.mask = r.pattern → decode w = .ok (r.build w)) ∧
  (∀ w : Word, (∀ r ∈ opcodeTable, w &&& r.mask ≠ r.pattern) → ∃ e, decode w = .error e)

/-- `ENC` is open to replace (00_scope.md R4; notes/assumptions/11.md). Under every `ENC` in which operands and fixed bits
do not overlap and no word matches two rows, an instruction that has a word is read back from it, a word that matches a row
is that row's instruction, and a word that matches none is no instruction; if moreover every bit is a fixed bit or an
operand bit, a word that decodes is the word of the instruction it decodes to. -/
def Obligations.EveryEncodingRoundTrips : Prop :=
  ∀ e : Enc, e.wf = true →
    (∀ i : Instr, e.holds i = true → e.decode (e.encode i) = .ok i) ∧
    (∀ r ∈ e.rows, ∀ w : Word, w &&& r.mask = r.pattern → e.decode w = .ok (r.build w)) ∧
    (∀ w : Word, (∀ r ∈ e.rows, w &&& r.mask ≠ r.pattern) → ∃ x, e.decode w = .error x) ∧
    (e.exact = true → ∀ (w : Word) (i : Instr), e.decode w = .ok i → e.holds i = true ∧ e.encode i = w)

/-- The spec's bit patterns (30_encoding.md R66, R67, R75 to R79) are such an `ENC`, every bit of every word a fixed bit or
an operand bit; its words are those of `encode`, which is written from the fields of R76 to R79; and it is the `ENC` after
reset (notes/assumptions/11.md). -/
def Obligations.SpecEncodingIsOne : Prop :=
  specEnc.wf = true ∧ specEnc.exact = true ∧ (∀ i : Instr, specEnc.holds i = i.wellFormed ∧ specEnc.encode i = encode i) ∧
  State.reset.params.enc = specEnc

/-- One word of each family, as 95_test_vectors.md gives it. -/
def Obligations.SampleWordsDecode : Prop :=
  decode 0x003100B3#32 = .ok (.add 1 2 3) ∧ decode 0x0641008B#32 = .ok (.subi 1 2 100#32) ∧
  decode 0xFFF14093#32 = .ok (.xori 1 2 0xFFFFFFFF#32) ∧ decode 0x40415093#32 = .ok (.srai 1 2 4) ∧
  decode 0x06413093#32 = .ok (.sltiu 1 2 100#32) ∧ decode 0x06415083#32 = .ok (.lhu 1 2 100#32) ∧
  decode 0xFE112E23#32 = .ok (.sw 2 1 0xFFFFFFFC#32) ∧ decode 0xFE0694E3#32 = .ok (.bne 13 0 0xFFFFFFE8#32) ∧
  decode 0xFFDFF0EF#32 = .ok (.jal 1 0xFFFFFFFC#32) ∧ decode 0x68C5855B#32 = .ok (.mac 10 11 12 13) ∧
  decode 0xFE3170FB#32 = .ok (.maci 1 2 3 0xFFFFFFFF#32) ∧ decode 0x123100AB#32 = .ok (.mul2 1 2 3) ∧
  decode 0x1405072B#32 = .ok (.sat 14 10) ∧ decode 0x30200073#32 = .ok .mret

/-- 30_encoding.md R80 and 60_exceptions.md R237: a fetched word that matches no row raises Illegal Instruction, but for
the words of 93_implementation_defined.md U6 when the parameter says to refuse them (notes/assumptions/12.md). In
the spec's encoding the all-zero and the all-one word raise it. -/
def Obligations.UnmatchedWordTrapsOrIsRefused : Prop :=
  (∀ (s : State) (w : Word), s.fetch = .word w → (∀ r ∈ s.params.enc.rows, w &&& r.mask ≠ r.pattern) →
    (¬ IsU6 w → ∃ t, step s = .next t ∧ Traps s t .illegalInstruction) ∧
    (s.params.unlistedWords = .trap → ∃ t, step s = .next t ∧ Traps s t .illegalInstruction) ∧
    (IsU6 w → s.params.unlistedWords = .refuse → ∃ g, step s = .refused (.unlistedWord g))) ∧
  (∀ s : State, s.params.enc = specEnc → s.fetch = .word 0x00000000#32 ∨ s.fetch = .word 0xFFFFFFFF#32 →
    ∃ t, step s = .next t ∧ Traps s t .illegalInstruction)

/-- The class of 93_implementation_defined.md U6 is exactly what the decoder rejects as unlisted, and holds no word of the
table. -/
def Obligations.UnlistedClassIsExact : Prop :=
  (∀ w : Word, (∃ g, decode w = .error (.unlisted g)) ↔ IsU6 w) ∧
  (∀ w : Word, IsU6 w → ∀ r ∈ opcodeTable, w &&& r.mask ≠ r.pattern)

/-! ## Steps and fetch -/

/-- 00_scope.md R8, 20_memory.md R45: at an aligned, valid pc whose four bytes, as the fetch sees them, decode to an
instruction, the step is the execution of that instruction and nothing else. Which bytes the fetch sees is the parameter of
20_memory.md R54: R45 reads memory, which is the case unset of a word no store has written; that `sees` reads memory and
`seesNot` the initial image is the model's choice, a DESIGN CHOICE (notes/assumptions/10.md). -/
def Obligations.StepRunsDecodedInstruction : Prop :=
  ∀ (s : State) (w : Word) (i : Instr), s.pc.toNat % 4 = 0 → validAccess s.params .fetch s.pc = true →
    FetchSees s s.pc w → s.params.enc.decode w = .ok i → step s = exec i s

/-- A fetch at an aligned, valid pc of which a byte holds no value faults by name (93_implementation_defined.md U9, the
model's choice of notes/assumptions/4.md); so does the first step from `State.reset`, whose memory lists nothing
(notes/assumptions/25.md). -/
def Obligations.UnwrittenFetchFaults : Prop :=
  (∀ s : State, s.pc.toNat % 4 = 0 → validAccess s.params .fetch s.pc = true → FetchLacks s s.pc →
    step s = .fault (.unwrittenFetch s.pc)) ∧
  step State.reset = .fault (.unwrittenFetch State.reset.pc)

/-- An instruction placed from outside, by its word in the `ENC` of the platform, is the one the very next step runs. -/
def Obligations.PlacedWordRunsNext : Prop :=
  ∀ (s : State) (i : Instr), s.params.enc.wf = true → s.params.enc.holds i = true → s.pc.toNat % 4 = 0 →
    validAccess s.params .fetch s.pc = true →
    step (s.withFetchWord 32 (s.params.enc.encode i).toNat) = exec i (s.withFetchWord 32 (s.params.enc.encode i).toNat)

/-- 20_memory.md R46 (the spec's decision D5, notes/assumptions/9.md): a step that begins with a misaligned pc is
refused; the instruction that produced the target completes first, its link register written, and the refusal is at the
next step. -/
def Obligations.MisalignedFetchRefusedAtNextStep : Prop :=
  (∀ s : State, s.params.misalignedFetch = .refuse → s.pc.toNat % 4 ≠ 0 → step s = .refused (.misalignedFetch s.pc)) ∧
  (∀ (i : Instr) (s t : State), s.params.misalignedFetch = .refuse → exec i s = .next t → t.pc.toNat % 4 ≠ 0 →
    step t = .refused (.misalignedFetch t.pc)) ∧
  (∀ (s : State) (rd : Reg) (imm : Word), s.params.misalignedFetch = .refuse → (s.pc + imm).toNat % 4 ≠ 0 →
    Completes (.jal rd imm) s (fun t => Links s t rd (s.pc + imm) ∧ step t = .refused (.misalignedFetch (s.pc + imm)))) ∧
  (∀ (s : State) (rd rs1 : Reg) (imm : Word), s.params.misalignedFetch = .refuse →
    ((s.readReg rs1 + imm) &&& 0xFFFFFFFE#32).toNat % 4 ≠ 0 →
    Completes (.jalr rd rs1 imm) s (fun t => Links s t rd ((s.readReg rs1 + imm) &&& 0xFFFFFFFE#32) ∧
      step t = .refused (.misalignedFetch ((s.readReg rs1 + imm) &&& 0xFFFFFFFE#32))))

/-- The other two settings of `MISALIGNED_FETCH` (notes/assumptions/9.md, a DESIGN CHOICE): an Instruction Access Fault,
or a fetch with the two low bits of the pc ignored. That fetch does at the aligned address what a fetch does anywhere:
Instruction Access Fault where the platform does not allow it, and by `IFETCH_SEES_STORES` (notes/assumptions/10.md) the
refusal of a stored-to byte, the fault of a byte without a value, or the word the fetch sees, which runs. -/
def Obligations.MisalignedFetchParameter : Prop :=
  (∀ s : State, s.params.misalignedFetch = .trap → s.pc.toNat % 4 ≠ 0 →
    ∃ t, step s = .next t ∧ Traps s t .instructionAccessFault) ∧
  (∀ (s : State) (a : Word), s.params.misalignedFetch = .ignoreLowBits → a = s.pc &&& 0xFFFFFFFC#32 →
    (∀ (w : Word) (i : Instr), validAccess s.params .fetch a = true → FetchSees s a w →
      s.params.enc.decode w = .ok i → step s = exec i s) ∧
    (validAccess s.params .fetch a = false → ∃ t, step s = .next t ∧ Traps s t .instructionAccessFault) ∧
    (∀ x ∈ byteAddrs a 4, validAccess s.params .fetch a = true → s.params.fetchCoherence = .unset → x ∈ s.stored →
      step s = .refused (.fetchAfterStore s.pc)) ∧
    (validAccess s.params .fetch a = true → FetchLacks s a → step s = .fault (.unwrittenFetch a)))

/-- 60_exceptions.md R232: the fetch at an aligned pc the platform does not allow raises Instruction Access Fault,
whatever stands in memory there; `mepc` receives the pc that could not be fetched. -/
def Obligations.InvalidFetchTraps : Prop :=
  ∀ s : State, s.pc.toNat % 4 = 0 → validAccess s.params .fetch s.pc = false →
    ∃ t, step s = .next t ∧ Traps s t .instructionAccessFault

/-- 20_memory.md R54, the parameter unset: a fetch of any byte that a store has written since the start of the run is
refused. The clauses after the first say that `stored` holds those bytes: none at the start, those of a store after it,
and none is ever dropped; the third ends with the refusal of the step after an SW over the next instruction. -/
def Obligations.FetchOfStoredByteRefused : Prop :=
  (∀ (s : State) (x : Nat), s.params.fetchCoherence = .unset → s.pc.toNat % 4 = 0 →
    validAccess s.params .fetch s.pc = true → x ∈ byteAddrs s.pc 4 → x ∈ s.stored →
    step s = .refused (.fetchAfterStore s.pc)) ∧
  (∀ (p : Params) (pc : Word) (m : Memory), (State.resetWith p pc m).stored = []) ∧
  (∀ (s : State) (rs1 rs2 : Reg) (imm : Word), s.params.fetchCoherence = .unset → (s.pc + 4#32).toNat % 4 = 0 →
    validAccess s.params .fetch (s.pc + 4#32) = true → s.readReg rs1 + imm = s.pc + 4#32 →
    validAccess s.params (.store .word) (s.pc + 4#32) = true →
    Completes (.sw rs1 rs2 imm) s (fun t => step t = .refused (.fetchAfterStore (s.pc + 4#32)))) ∧
  (∀ (s t : State) (x : Nat), step s = .next t → x ∈ s.stored → x ∈ t.stored)

/-! ## Exceptions -/

/-- 60_exceptions.md R240: trap entry writes `mepc`, `mcause` and the pc, and changes nothing else. -/
def Obligations.TrapEntrySavesAndVectors : Prop :=
  ∀ (s : State) (c : Cause), Traps s (s.raise c) c ∧ (s.raise c).regs = s.regs ∧ (s.raise c).mem = s.mem

/-- The codes of 60_exceptions.md R231, which the machine has after reset. -/
def Obligations.SpecCauseCodes : Prop :=
  codeOf State.reset.params.causes .instructionAccessFault = 1#32 ∧
  codeOf State.reset.params.causes .illegalInstruction = 2#32 ∧
  codeOf State.reset.params.causes .loadAccessFault = 5#32 ∧
  codeOf State.reset.params.causes .storeAccessFault = 7#32 ∧
  codeOf State.reset.params.causes .arithmeticOverflow = 24#32 ∧
  codeOf State.reset.params.causes .divisionByZero = 25#32

/-- 10_state.md R27, R28; 60_exceptions.md R236: a step leaves `mcause` and `mepc` alone unless it is a trap entry, and no
step is a Division by Zero. -/
def Obligations.OnlyTrapsWriteTrapRegisters : Prop :=
  ∀ s t : State, step s = .next t → SameTrapRegs s t ∨ ∃ c, c ≠ .divisionByZero ∧ Traps s t c

/-- 10_state.md R27, R28: nothing reads `mcause`, and only MRET reads `mepc`. Two states that differ there only step alike
and differ afterwards at most there. -/
def Obligations.TrapRegistersReadOnlyByMret : Prop :=
  (∀ (s : State) (v : Word),
    match step s, step { s with mcause := v } with
    | .next t, .next u => ({ t with mcause := v } : State) = { u with mcause := v }
    | .fault f, .fault g => f = g
    | .refused f, .refused g => f = g
    | _, _ => False) ∧
  (∀ (i : Instr) (s : State) (v : Word), i ≠ .mret →
    match exec i s, exec i { s with mepc := v } with
    | .next t, .next u => ({ t with mepc := v } : State) = { u with mepc := v }
    | .fault f, .fault g => f = g
    | .refused f, .refused g => f = g
    | _, _ => False)

/-- 60_exceptions.md R245: MRET is the one word 0x30200073; it sets the pc to `mepc` and changes nothing else. -/
def Obligations.MretJumpsToSavedPc : Prop :=
  (∀ w : Word, decode w = .ok .mret ↔ w = 0x30200073#32) ∧
  ∀ s : State, Completes .mret s (fun t => GoesTo s t s.mepc)

/-- 60_exceptions.md R243: when the handler cannot be fetched, or its first word selects no instruction, the step at the
vector traps to the vector, and the state it reaches steps to itself for ever. A word of 93_implementation_defined.md U6
does so when the parameter says to trap it (notes/assumptions/12.md). -/
def Obligations.FetchFaultLoopsForEver : Prop :=
  (∀ s : State, InFetchFaultLoop s → ∃ t, step s = .next t ∧ Traps s t .instructionAccessFault ∧
    t.mepc = 0x00000000#32 ∧ step t = .next t) ∧
  (∀ (s : State) (w : Word) (r : Reject), s.pc = 0x00000000#32 → s.fetch = .word w → s.params.enc.decode w = .error r →
    r = .illegal ∨ s.params.unlistedWords = .trap →
    ∃ t, step s = .next t ∧ Traps s t .illegalInstruction ∧ t.mepc = 0x00000000#32 ∧ step t = .next t)

/-- 60_exceptions.md R244, R246: a trap in the handler's first instruction overwrites `mepc` and `mcause`; MRET right
after trap entry goes back to the instruction that trapped, with every register and byte as it was. -/
def Obligations.NestedTrapAndReturn : Prop :=
  (∀ (s : State) (c d : Cause), Traps (s.raise c) ((s.raise c).raise d) d ∧ ((s.raise c).raise d).mepc = 0x00000000#32) ∧
  (∀ (s : State) (c : Cause), Completes .mret (s.raise c) (fun t => t.pc = s.pc ∧ SameRegs s t ∧ SameStorage s t))

/-! ## Invariants and whole-machine rules -/

/-- 10_state.md R28, a consequence the spec derives: while misaligned fetches are refused, every step keeps `mepc` a
multiple of 4. -/
def Obligations.MepcStaysAligned : Prop :=
  ∀ s t : State, s.MepcAligned → step s = .next t → t.MepcAligned

/-- Every step keeps memory, the image and the set of stored-to addresses in canonical form (the model's own form,
notes/assumptions/4.md; the address space of 20_memory.md R40). -/
def Obligations.MemoryStaysCanonical : Prop :=
  ∀ s t : State, s.Canonical → step s = .next t → t.Canonical

/-- 20_memory.md R52: every step keeps the bytes that no store of the run has written equal to the initial image. -/
def Obligations.UnstoredBytesKeepImage : Prop :=
  ∀ s t : State, s.UnstoredAsImage → step s = .next t → t.UnstoredAsImage

/-- The three invariants hold after reset, whatever the parameters, the reset vector and the image. That `mepc` is aligned
then rests on its reset value, a DESIGN CHOICE (notes/assumptions/2.md). -/
def Obligations.InvariantsHoldAtReset : Prop :=
  State.reset.MepcAligned ∧ State.reset.Canonical ∧ State.reset.UnstoredAsImage ∧
  ∀ (p : Params) (pc : Word) (m : Memory), m.wf →
    (State.resetWith p pc m).Canonical ∧ (State.resetWith p pc m).UnstoredAsImage

/-- The open parameters and the initial image are fixed for a run (00_scope.md R4). -/
def Obligations.ParametersNeverChange : Prop :=
  ∀ s t : State, step s = .next t → t.params = s.params ∧ t.image = s.image

/-- 10_state.md R31: SB, SH, SW write memory and nothing else does. -/
def Obligations.OnlyStoresChangeMemory : Prop :=
  ∀ (i : Instr) (s t : State), ¬ IsStore i → exec i s = .next t →
    (∀ x, t.mem.read x = s.mem.read x) ∧ t.stored = s.stored

/-- 10_state.md R21: an instruction writes no register but its destination, and a write to `x0` is discarded. -/
def Obligations.OnlyDestinationRegisterChanges : Prop :=
  ∀ (i : Instr) (s t : State), exec i s = .next t →
    ∀ r : Reg, r = 0 ∨ destOf i ≠ some r → t.readReg r = s.readReg r

/-- Every instruction answers a next state in every state, but for a load or store refused as misaligned and a load of a
byte that holds no value. -/
def Obligations.OnlyLoadsAndStoresStop : Prop :=
  ∀ (i : Instr) (s : State), (∃ t, exec i s = .next t) ∨
    ((IsLoad i ∨ IsStore i) ∧ s.params.misalignedData = .refuse ∧ ∃ ea, exec i s = .refused (.misalignedData ea)) ∨
    (IsLoad i ∧ ∃ a, exec i s = .fault (.unwrittenLoad a))

/-- 60_exceptions.md R235, R237, R248: an instruction that is no load, no store and none of the MAC and SIMD instructions
that can overflow never takes an exception. -/
def Obligations.PlainInstructionsNeverTrap : Prop :=
  ∀ (i : Instr) (s t : State), ¬ IsLoad i → ¬ IsStore i → ¬ MayOverflow i → exec i s = .next t → SameTrapRegs s t

/-- 10_state.md R33, 70_reset_and_hazards.md R270: after reset `x0` reads 0, the pc is `RESET_PC`, memory is what the
platform provides. The registers R33 leaves unspecified are not stated. That `State.reset` takes the parameters, the reset
vector and the empty memory it takes is the model's choice (notes/assumptions/3.md, 4.md, 5.md). -/
def Obligations.ResetLeaves : Prop :=
  ∀ (p : Params) (pc : Word) (m : Memory),
    (State.resetWith p pc m).readReg 0 = 0#32 ∧ (State.resetWith p pc m).pc = pc ∧
    (∀ x, (State.resetWith p pc m).mem.read x = m.read x) ∧ (State.resetWith p pc m).params = p ∧
    State.reset = State.resetWith specParams resetPc []

/-! ## Memory -/

/-- 20_memory.md R41: the four equations of the byte order (the spec's decision D3, notes/assumptions/7.md). -/
def Obligations.LittleEndianLayout : Prop :=
  (∀ (m : Memory) (a : Word) (b0 b1 b2 b3 : Byte), m.read a.toNat = some b0 → m.read (a + 1#32).toNat = some b1 →
    m.read (a + 2#32).toNat = some b2 → m.read (a + 3#32).toNat = some b3 →
    m.readLE .byte a = some (b0.setWidth 32) ∧ m.readLE .half a = some ((b1 ++ b0).setWidth 32) ∧
    m.readLE .word a = some (b3 ++ b2 ++ b1 ++ b0)) ∧
  (∀ (m : Memory) (w : Width) (a v : Word), ∀ i < w.bytes,
    (m.writeLE w a v).read (a + BitVec.ofNat 32 i).toNat = some (v.extractLsb' (8 * i) 8)) ∧
  (∀ (m : Memory) (w : Width) (a v : Word) (x : Nat), x ∉ byteAddrs a w.bytes → (m.writeLE w a v).read x = m.read x)

/-- 20_memory.md R41, an inference the spec marks as its own: what accesses of the other widths see of a stored word. -/
def Obligations.MixedWidthAccess : Prop :=
  ∀ (m : Memory) (a v : Word),
    (∀ i < 4, (m.writeLE .word a v).readLE .byte (a + BitVec.ofNat 32 i) = some ((v.extractLsb' (8 * i) 8).setWidth 32)) ∧
    (m.writeLE .word a v).readLE .half a = some ((v.extractLsb' 0 16).setWidth 32) ∧
    (m.writeLE .word a v).readLE .half (a + 2#32) = some ((v.extractLsb' 16 16).setWidth 32) ∧
    (m.writeLE .word a v).readLE .word a = some v

/-- 20_memory.md R52: a load after a store to the same bytes returns the stored bytes, at each width, and of two stores to
the same bytes the later is read. -/
def Obligations.LoadReturnsLatestStore : Prop :=
  ∀ (s : State) (rd rs1 rs2 q : Reg) (imm : Word),
    (validAccess s.params (.store .byte) (s.readReg rs1 + imm) = true →
      validAccess s.params (.load .byte) (s.readReg rs1 + imm) = true →
      Completes (.sb rs1 rs2 imm) s (fun t => Completes (.lbu rd rs1 imm) t (fun u =>
        Writes t u rd (((s.readReg rs2).extractLsb' 0 8).setWidth 32)))) ∧
    ((s.readReg rs1 + imm).toNat % 2 = 0 → validAccess s.params (.store .half) (s.readReg rs1 + imm) = true →
      validAccess s.params (.load .half) (s.readReg rs1 + imm) = true →
      Completes (.sh rs1 rs2 imm) s (fun t => Completes (.lhu rd rs1 imm) t (fun u =>
        Writes t u rd (((s.readReg rs2).extractLsb' 0 16).setWidth 32)))) ∧
    ((s.readReg rs1 + imm).toNat % 4 = 0 → validAccess s.params (.store .word) (s.readReg rs1 + imm) = true →
      validAccess s.params (.load .word) (s.readReg rs1 + imm) = true →
      Completes (.sw rs1 q imm) s (fun p => Completes (.sw rs1 rs2 imm) p (fun t => Completes (.lw rd rs1 imm) t (fun u =>
        Writes t u rd (s.readReg rs2)))))

/-! ## Arithmetic, logic, shifts, comparisons -/

/-- 40_arithmetic.md R100 to R103: encodings, results modulo 2^32, no exception, nothing else changed. -/
def Obligations.AddSubResults : Prop :=
  Selects 0xFE00707F#32 0x00000033#32 (fun w => .add (rdOf w) (rs1Of w) (rs2Of w)) ∧
  Selects 0xFE00707F#32 0x40000033#32 (fun w => .sub (rdOf w) (rs1Of w) (rs2Of w)) ∧
  Selects 0x0000707F#32 0x00000013#32 (fun w => .addi (rdOf w) (rs1Of w) ((w.extractLsb' 20 12).signExtend 32)) ∧
  Selects 0x0000707F#32 0x0000000B#32 (fun w => .subi (rdOf w) (rs1Of w) ((w.extractLsb' 20 12).signExtend 32)) ∧
  ∀ (s : State) (rd rs1 rs2 : Reg) (imm : Word),
    Completes (.add rd rs1 rs2) s (fun t =>
      Writes s t rd (BitVec.ofNat 32 ((s.readReg rs1).toNat + (s.readReg rs2).toNat))) ∧
    Completes (.sub rd rs1 rs2) s (fun t =>
      Writes s t rd (BitVec.ofInt 32 (((s.readReg rs1).toNat : Int) - ((s.readReg rs2).toNat : Int)))) ∧
    Completes (.addi rd rs1 imm) s (fun t => Writes s t rd (BitVec.ofNat 32 ((s.readReg rs1).toNat + imm.toNat))) ∧
    Completes (.subi rd rs1 imm) s (fun t =>
      Writes s t rd (BitVec.ofInt 32 (((s.readReg rs1).toNat : Int) - (imm.toNat : Int))))

/-- 41_logical.md R110 to R115: encodings, each result bit from the same bit of the operands, nothing else changed. -/
def Obligations.LogicalResults : Prop :=
  Selects 0xFE00707F#32 0x00007033#32 (fun w => .and (rdOf w) (rs1Of w) (rs2Of w)) ∧
  Selects 0xFE00707F#32 0x00006033#32 (fun w => .or (rdOf w) (rs1Of w) (rs2Of w)) ∧
  Selects 0xFE00707F#32 0x00004033#32 (fun w => .xor (rdOf w) (rs1Of w) (rs2Of w)) ∧
  Selects 0x0000707F#32 0x00007013#32 (fun w => .andi (rdOf w) (rs1Of w) ((w.extractLsb' 20 12).signExtend 32)) ∧
  Selects 0x0000707F#32 0x00006013#32 (fun w => .ori (rdOf w) (rs1Of w) ((w.extractLsb' 20 12).signExtend 32)) ∧
  Selects 0x0000707F#32 0x00004013#32 (fun w => .xori (rdOf w) (rs1Of w) ((w.extractLsb' 20 12).signExtend 32)) ∧
  ∀ (s : State) (rd rs1 rs2 : Reg) (imm : Word),
    Completes (.and rd rs1 rs2) s (fun t => Writes s t rd (s.readReg rs1 &&& s.readReg rs2)) ∧
    Completes (.or rd rs1 rs2) s (fun t => Writes s t rd (s.readReg rs1 ||| s.readReg rs2)) ∧
    Completes (.xor rd rs1 rs2) s (fun t => Writes s t rd (s.readReg rs1 ^^^ s.readReg rs2)) ∧
    Completes (.andi rd rs1 imm) s (fun t => Writes s t rd (s.readReg rs1 &&& imm)) ∧
    Completes (.ori rd rs1 imm) s (fun t => Writes s t rd (s.readReg rs1 ||| imm)) ∧
    Completes (.xori rd rs1 imm) s (fun t => Writes s t rd (s.readReg rs1 ^^^ imm))

/-- 42_shift.md R120 to R125: encodings; the amount is `x[rs2]` modulo 32 or `shamt`; left multiplies by a power of 2,
logical right divides the unsigned value, arithmetic right divides the signed value, rounding toward minus infinity; the
other words of the two shift-immediate `funct3` values are illegal. -/
def Obligations.ShiftResults : Prop :=
  Selects 0xFE00707F#32 0x00001033#32 (fun w => .sll (rdOf w) (rs1Of w) (rs2Of w)) ∧
  Selects 0xFE00707F#32 0x00005033#32 (fun w => .srl (rdOf w) (rs1Of w) (rs2Of w)) ∧
  Selects 0xFE00707F#32 0x40005033#32 (fun w => .sra (rdOf w) (rs1Of w) (rs2Of w)) ∧
  Selects 0xFE00707F#32 0x00001013#32 (fun w => .slli (rdOf w) (rs1Of w) (w.extractLsb' 20 5).toFin) ∧
  Selects 0xFE00707F#32 0x00005013#32 (fun w => .srli (rdOf w) (rs1Of w) (w.extractLsb' 20 5).toFin) ∧
  Selects 0xFE00707F#32 0x40005013#32 (fun w => .srai (rdOf w) (rs1Of w) (w.extractLsb' 20 5).toFin) ∧
  (∀ w : Word, w &&& 0x0000707F#32 = 0x00001013#32 → w.extractLsb' 25 7 ≠ 0b0000000#7 → decode w = .error .illegal) ∧
  (∀ w : Word, w &&& 0x0000707F#32 = 0x00005013#32 → w.extractLsb' 25 7 ≠ 0b0000000#7 →
    w.extractLsb' 25 7 ≠ 0b0100000#7 → decode w = .error .illegal) ∧
  ∀ (s : State) (rd rs1 rs2 : Reg) (k : Shamt),
    Completes (.sll rd rs1 rs2) s (fun t =>
      Writes s t rd (BitVec.ofNat 32 ((s.readReg rs1).toNat * 2 ^ ((s.readReg rs2).toNat % 32)))) ∧
    Completes (.srl rd rs1 rs2) s (fun t =>
      Writes s t rd (BitVec.ofNat 32 ((s.readReg rs1).toNat / 2 ^ ((s.readReg rs2).toNat % 32)))) ∧
    Completes (.sra rd rs1 rs2) s (fun t =>
      Writes s t rd (BitVec.ofInt 32 ((s.readReg rs1).toInt / 2 ^ ((s.readReg rs2).toNat % 32)))) ∧
    Completes (.slli rd rs1 k) s (fun t => Writes s t rd (BitVec.ofNat 32 ((s.readReg rs1).toNat * 2 ^ k.val))) ∧
    Completes (.srli rd rs1 k) s (fun t => Writes s t rd (BitVec.ofNat 32 ((s.readReg rs1).toNat / 2 ^ k.val))) ∧
    Completes (.srai rd rs1 k) s (fun t => Writes s t rd (BitVec.ofInt 32 ((s.readReg rs1).toInt / 2 ^ k.val)))

/-- 43_compare.md R130 to R133: encodings; 1 when the comparison of the signed or unsigned values holds, else 0. -/
def Obligations.CompareResults : Prop :=
  Selects 0xFE00707F#32 0x00002033#32 (fun w => .slt (rdOf w) (rs1Of w) (rs2Of w)) ∧
  Selects 0xFE00707F#32 0x00003033#32 (fun w => .sltu (rdOf w) (rs1Of w) (rs2Of w)) ∧
  Selects 0x0000707F#32 0x00002013#32 (fun w => .slti (rdOf w) (rs1Of w) ((w.extractLsb' 20 12).signExtend 32)) ∧
  Selects 0x0000707F#32 0x00003013#32 (fun w => .sltiu (rdOf w) (rs1Of w) ((w.extractLsb' 20 12).signExtend 32)) ∧
  ∀ (s : State) (rd rs1 rs2 : Reg) (imm : Word),
    Completes (.slt rd rs1 rs2) s (fun t =>
      Writes s t rd (if (s.readReg rs1).toInt < (s.readReg rs2).toInt then 1#32 else 0#32)) ∧
    Completes (.sltu rd rs1 rs2) s (fun t =>
      Writes s t rd (if (s.readReg rs1).toNat < (s.readReg rs2).toNat then 1#32 else 0#32)) ∧
    Completes (.slti rd rs1 imm) s (fun t =>
      Writes s t rd (if (s.readReg rs1).toInt < imm.toInt then 1#32 else 0#32)) ∧
    Completes (.sltiu rd rs1 imm) s (fun t =>
      Writes s t rd (if (s.readReg rs1).toNat < imm.toNat then 1#32 else 0#32))

/-! ## Loads and stores -/

/-- 44_load_store.md R142 to R146 with 20_memory.md R47: encodings, value loaded, Load Access Fault, misaligned refusal.
-/
def Obligations.LoadResults : Prop :=
  Selects 0x0000707F#32 0x00000003#32 (fun w => .lb (rdOf w) (rs1Of w) ((w.extractLsb' 20 12).signExtend 32)) ∧
  Selects 0x0000707F#32 0x00001003#32 (fun w => .lh (rdOf w) (rs1Of w) ((w.extractLsb' 20 12).signExtend 32)) ∧
  Selects 0x0000707F#32 0x00002003#32 (fun w => .lw (rdOf w) (rs1Of w) ((w.extractLsb' 20 12).signExtend 32)) ∧
  Selects 0x0000707F#32 0x00004003#32 (fun w => .lbu (rdOf w) (rs1Of w) ((w.extractLsb' 20 12).signExtend 32)) ∧
  Selects 0x0000707F#32 0x00005003#32 (fun w => .lhu (rdOf w) (rs1Of w) ((w.extractLsb' 20 12).signExtend 32)) ∧
  LoadClaim .lb .byte (fun m a => (m.read a.toNat).map fun b0 => b0.signExtend 32) ∧
  LoadClaim .lbu .byte (fun m a => (m.read a.toNat).map fun b0 => b0.setWidth 32) ∧
  LoadClaim .lh .half (fun m a => (m.read a.toNat).bind fun b0 => (m.read (a + 1#32).toNat).map fun b1 =>
    (b1 ++ b0).signExtend 32) ∧
  LoadClaim .lhu .half (fun m a => (m.read a.toNat).bind fun b0 => (m.read (a + 1#32).toNat).map fun b1 =>
    (b1 ++ b0).setWidth 32) ∧
  LoadClaim .lw .word (fun m a => (m.read a.toNat).bind fun b0 => (m.read (a + 1#32).toNat).bind fun b1 =>
    (m.read (a + 2#32).toNat).bind fun b2 => (m.read (a + 3#32).toNat).map fun b3 => b3 ++ b2 ++ b1 ++ b0)

/-- A load of which a byte, the first or a later one, has been written neither by the image nor by a store faults
(93_implementation_defined.md U9, the model's choice of notes/assumptions/4.md). -/
def Obligations.UnwrittenLoadFaults : Prop :=
  ∀ (s : State) (rd rs1 : Reg) (imm : Word),
    (validAccess s.params (.load .byte) (s.readReg rs1 + imm) = true → s.mem.read (s.readReg rs1 + imm).toNat = none →
      exec (.lb rd rs1 imm) s = .fault (.unwrittenLoad (s.readReg rs1 + imm)) ∧
      exec (.lbu rd rs1 imm) s = .fault (.unwrittenLoad (s.readReg rs1 + imm))) ∧
    ((s.readReg rs1 + imm).toNat % 2 = 0 → validAccess s.params (.load .half) (s.readReg rs1 + imm) = true →
      (∃ i < 2, s.mem.read (s.readReg rs1 + imm + BitVec.ofNat 32 i).toNat = none) →
      exec (.lh rd rs1 imm) s = .fault (.unwrittenLoad (s.readReg rs1 + imm)) ∧
      exec (.lhu rd rs1 imm) s = .fault (.unwrittenLoad (s.readReg rs1 + imm))) ∧
    ((s.readReg rs1 + imm).toNat % 4 = 0 → validAccess s.params (.load .word) (s.readReg rs1 + imm) = true →
      (∃ i < 4, s.mem.read (s.readReg rs1 + imm + BitVec.ofNat 32 i).toNat = none) →
      exec (.lw rd rs1 imm) s = .fault (.unwrittenLoad (s.readReg rs1 + imm)))

/-- 44_load_store.md R147 to R149 with 20_memory.md R48: encodings, bytes stored and every other byte unchanged, Store
Access Fault, misaligned refusal. -/
def Obligations.StoreResults : Prop :=
  Selects 0x0000707F#32 0x00000023#32
    (fun w => .sb (rs1Of w) (rs2Of w) ((w.extractLsb' 25 7 ++ w.extractLsb' 7 5).signExtend 32)) ∧
  Selects 0x0000707F#32 0x00001023#32
    (fun w => .sh (rs1Of w) (rs2Of w) ((w.extractLsb' 25 7 ++ w.extractLsb' 7 5).signExtend 32)) ∧
  Selects 0x0000707F#32 0x00002023#32
    (fun w => .sw (rs1Of w) (rs2Of w) ((w.extractLsb' 25 7 ++ w.extractLsb' 7 5).signExtend 32)) ∧
  StoreClaim .sb .byte ∧ StoreClaim .sh .half ∧ StoreClaim .sw .word

/-- The other settings of `MISALIGNED_DATA` (20_memory.md R43; notes/assumptions/8.md, a DESIGN CHOICE), at a misaligned
address: an access fault, the access at the address with its low bits ignored, or an access byte by byte. -/
def Obligations.MisalignedDataParameter : Prop :=
  MisalignedLoadClaim .lw .word (fun v => v) ∧ MisalignedLoadClaim .lhu .half (fun v => v) ∧
  MisalignedLoadClaim .lh .half (fun v => (v.setWidth 16).signExtend 32) ∧
  MisalignedStoreClaim .sw .word ∧ MisalignedStoreClaim .sh .half

/-! ## Branches and jumps -/

/-- 45_branch.md R160 to R166: encodings; `pc + imm` when the condition holds, else `pc + 4`; no register and no byte
changed. -/
def Obligations.BranchResults : Prop :=
  Selects 0x0000707F#32 0x00000063#32 (fun w => .beq (rs1Of w) (rs2Of w) (immB w)) ∧
  Selects 0x0000707F#32 0x00001063#32 (fun w => .bne (rs1Of w) (rs2Of w) (immB w)) ∧
  Selects 0x0000707F#32 0x00004063#32 (fun w => .blt (rs1Of w) (rs2Of w) (immB w)) ∧
  Selects 0x0000707F#32 0x00005063#32 (fun w => .bge (rs1Of w) (rs2Of w) (immB w)) ∧
  Selects 0x0000707F#32 0x00006063#32 (fun w => .bltu (rs1Of w) (rs2Of w) (immB w)) ∧
  Selects 0x0000707F#32 0x00007063#32 (fun w => .bgeu (rs1Of w) (rs2Of w) (immB w)) ∧
  ∀ (s : State) (rs1 rs2 : Reg) (imm : Word),
    Completes (.beq rs1 rs2 imm) s (fun t =>
      GoesTo s t (if s.readReg rs1 = s.readReg rs2 then s.pc + imm else s.pc + 4#32)) ∧
    Completes (.bne rs1 rs2 imm) s (fun t =>
      GoesTo s t (if s.readReg rs1 ≠ s.readReg rs2 then s.pc + imm else s.pc + 4#32)) ∧
    Completes (.blt rs1 rs2 imm) s (fun t =>
      GoesTo s t (if (s.readReg rs1).toInt < (s.readReg rs2).toInt then s.pc + imm else s.pc + 4#32)) ∧
    Completes (.bge rs1 rs2 imm) s (fun t =>
      GoesTo s t (if (s.readReg rs1).toInt ≥ (s.readReg rs2).toInt then s.pc + imm else s.pc + 4#32)) ∧
    Completes (.bltu rs1 rs2 imm) s (fun t =>
      GoesTo s t (if (s.readReg rs1).toNat < (s.readReg rs2).toNat then s.pc + imm else s.pc + 4#32)) ∧
    Completes (.bgeu rs1 rs2 imm) s (fun t =>
      GoesTo s t (if (s.readReg rs1).toNat ≥ (s.readReg rs2).toNat then s.pc + imm else s.pc + 4#32))

/-- 46_jump.md R170, R171 (the spec's decision D19, notes/assumptions/15.md): encodings; the link `pc + 4` to `rd`, the
target from the old registers, nothing else changed. -/
def Obligations.JumpResults : Prop :=
  Selects 0x0000007F#32 0x0000006F#32 (fun w => .jal (rdOf w) (immJ w)) ∧
  Selects 0x0000707F#32 0x00000067#32 (fun w => .jalr (rdOf w) (rs1Of w) ((w.extractLsb' 20 12).signExtend 32)) ∧
  ∀ (s : State) (rd rs1 : Reg) (imm : Word),
    Completes (.jal rd imm) s (fun t => Links s t rd (s.pc + imm)) ∧
    Completes (.jalr rd rs1 imm) s (fun t => Links s t rd ((s.readReg rs1 + imm) &&& 0xFFFFFFFE#32))

/-- 70_reset_and_hazards.md R273: `jal x0, 0`, the end of the spec's programs, jumps to itself and changes no state. -/
def Obligations.SelfJumpChangesNothing : Prop :=
  decode 0x0000006F#32 = .ok (.jal 0 0#32) ∧ ∀ s : State, exec (.jal 0 0#32) s = .next s

/-! ## MAC -/

/-- 47_mac.md R181, R183 (the spec's decision D20, notes/assumptions/16.md): encodings; the exact `a * b + c` when it
fits 32 bits under the instruction's signedness, else Arithmetic Overflow and nothing written. -/
def Obligations.MacResults : Prop :=
  Selects 0x0600707F#32 0x0000005B#32 (fun w => .mac (rdOf w) (rs1Of w) (rs2Of w) (w.extractLsb' 27 5).toFin) ∧
  Selects 0x0600707F#32 0x0200005B#32 (fun w => .macu (rdOf w) (rs1Of w) (rs2Of w) (w.extractLsb' 27 5).toFin) ∧
  (∀ (s : State) (rd rs1 rs2 rs3 : Reg) (e : Int),
    e = (s.readReg rs1).toInt * (s.readReg rs2).toInt + (s.readReg rs3).toInt →
    (-2 ^ 31 ≤ e ∧ e ≤ 2 ^ 31 - 1 →
      Completes (.mac rd rs1 rs2 rs3) s (fun t => Writes s t rd (BitVec.ofInt 32 e))) ∧
    (e < -2 ^ 31 ∨ e > 2 ^ 31 - 1 →
      Completes (.mac rd rs1 rs2 rs3) s (fun t => Traps s t .arithmeticOverflow))) ∧
  (∀ (s : State) (rd rs1 rs2 rs3 : Reg) (e : Nat),
    e = (s.readReg rs1).toNat * (s.readReg rs2).toNat + (s.readReg rs3).toNat →
    (e ≤ 2 ^ 32 - 1 → Completes (.macu rd rs1 rs2 rs3) s (fun t => Writes s t rd (BitVec.ofNat 32 e))) ∧
    (e > 2 ^ 32 - 1 → Completes (.macu rd rs1 rs2 rs3) s (fun t => Traps s t .arithmeticOverflow)))

/-- 47_mac.md R182, at the spec's operand role: encoding; the exact `a * b + imm`, signed, else Arithmetic Overflow. -/
def Obligations.MaciResults : Prop :=
  Selects 0x0000007F#32 0x0000007B#32
    (fun w => .maci (rdOf w) (rs1Of w) (rs2Of w) ((w.extractLsb' 25 7 ++ w.extractLsb' 12 3).signExtend 32)) ∧
  ∀ (s : State) (rd rs1 rs2 : Reg) (imm : Word) (e : Int), s.params.maciRole = .immIsAddend →
    e = (s.readReg rs1).toInt * (s.readReg rs2).toInt + imm.toInt →
    (-2 ^ 31 ≤ e ∧ e ≤ 2 ^ 31 - 1 →
      Completes (.maci rd rs1 rs2 imm) s (fun t => Writes s t rd (BitVec.ofInt 32 e))) ∧
    (e < -2 ^ 31 ∨ e > 2 ^ 31 - 1 →
      Completes (.maci rd rs1 rs2 imm) s (fun t => Traps s t .arithmeticOverflow))

/-- The other operand role of MACI (93_implementation_defined.md U4; notes/assumptions/22.md): the immediate a factor. -/
def Obligations.MaciFactorRole : Prop :=
  ∀ (s : State) (rd rs1 rs2 : Reg) (imm : Word) (e : Int), s.params.maciRole = .immIsFactor →
    e = (s.readReg rs1).toInt * imm.toInt + (s.readReg rs2).toInt →
    (-2 ^ 31 ≤ e ∧ e ≤ 2 ^ 31 - 1 →
      Completes (.maci rd rs1 rs2 imm) s (fun t => Writes s t rd (BitVec.ofInt 32 e))) ∧
    (e < -2 ^ 31 ∨ e > 2 ^ 31 - 1 →
      Completes (.maci rd rs1 rs2 imm) s (fun t => Traps s t .arithmeticOverflow))

/-- 47_mac.md R180, a consequence the spec derives: whenever neither raises, MAC and MACU reach the same state. -/
def Obligations.MacAndMacuAgree : Prop :=
  ∀ (s t u : State) (rd rs1 rs2 rs3 : Reg),
    (let e := (s.readReg rs1).toInt * (s.readReg rs2).toInt + (s.readReg rs3).toInt; -2 ^ 31 ≤ e ∧ e ≤ 2 ^ 31 - 1) →
    (s.readReg rs1).toNat * (s.readReg rs2).toNat + (s.readReg rs3).toNat ≤ 2 ^ 32 - 1 →
    exec (.mac rd rs1 rs2 rs3) s = .next t → exec (.macu rd rs1 rs2 rs3) s = .next u → t = u

/-! ## SIMD -/

/-- 48_simd.md R192 to R194 with R190, R191 (the spec's decision D21, notes/assumptions/17.md): encodings, lane results,
overflow trap. -/
def Obligations.Simd4Results : Prop :=
  Selects 0xFE00707F#32 0x0000002B#32 (fun w => .add4 (rdOf w) (rs1Of w) (rs2Of w)) ∧
  Selects 0xFE00707F#32 0x0200002B#32 (fun w => .sub4 (rdOf w) (rs1Of w) (rs2Of w)) ∧
  Selects 0xFE00707F#32 0x0400002B#32 (fun w => .mul4 (rdOf w) (rs1Of w) (rs2Of w)) ∧
  SimdClaim .add4 (fun a b => a + b) 8 4 ∧ SimdClaim .sub4 (fun a b => a - b) 8 4 ∧
  SimdClaim .mul4 (fun a b => a * b) 8 4

/-- 48_simd.md R199 to R201 with R190, R191 (the spec's decision D21, notes/assumptions/17.md): encodings, lane results,
overflow trap. -/
def Obligations.Simd2Results : Prop :=
  Selects 0xFE00707F#32 0x0E00002B#32 (fun w => .add2 (rdOf w) (rs1Of w) (rs2Of w)) ∧
  Selects 0xFE00707F#32 0x1000002B#32 (fun w => .sub2 (rdOf w) (rs1Of w) (rs2Of w)) ∧
  Selects 0xFE00707F#32 0x1200002B#32 (fun w => .mul2 (rdOf w) (rs1Of w) (rs2Of w)) ∧
  SimdClaim .add2 (fun a b => a + b) 16 2 ∧ SimdClaim .sub2 (fun a b => a - b) 16 2 ∧
  SimdClaim .mul2 (fun a b => a * b) 16 2

/-- 48_simd.md R191: the value an arithmetic SIMD instruction (ADD4, SUB4, MUL4, ADD2, SUB2, MUL2) writes never depends on
`SIMD_OVF`; AND4, OR4, XOR4 and SHIFT4 do not look at the setting at all. -/
def Obligations.SimdResultIgnoresOverflowSetting : Prop :=
  SimdSettingClaim .add4 (fun a b => a + b) 8 4 ∧ SimdSettingClaim .sub4 (fun a b => a - b) 8 4 ∧
  SimdSettingClaim .mul4 (fun a b => a * b) 8 4 ∧ SimdSettingClaim .add2 (fun a b => a + b) 16 2 ∧
  SimdSettingClaim .sub2 (fun a b => a - b) 16 2 ∧ SimdSettingClaim .mul2 (fun a b => a * b) 16 2 ∧
  ∀ (o : SimdOvf) (s t : State) (rd rs1 rs2 : Reg) (i : Instr),
    i = .and4 rd rs1 rs2 ∨ i = .or4 rd rs1 rs2 ∨ i = .xor4 rd rs1 rs2 ∨ i = .shift4 rd rs1 rs2 →
    exec i s = .next t → exec i (withSimdOvf o s) = .next (withSimdOvf o t)

/-- 48_simd.md R195 to R197: encodings; the bitwise result to `rd`, nothing else changed, no trap. -/
def Obligations.SimdLogicalResults : Prop :=
  Selects 0xFE00707F#32 0x0600002B#32 (fun w => .and4 (rdOf w) (rs1Of w) (rs2Of w)) ∧
  Selects 0xFE00707F#32 0x0800002B#32 (fun w => .or4 (rdOf w) (rs1Of w) (rs2Of w)) ∧
  Selects 0xFE00707F#32 0x0A00002B#32 (fun w => .xor4 (rdOf w) (rs1Of w) (rs2Of w)) ∧
  ∀ (s : State) (rd rs1 rs2 : Reg),
    Completes (.and4 rd rs1 rs2) s (fun t => Writes s t rd (s.readReg rs1 &&& s.readReg rs2)) ∧
    Completes (.or4 rd rs1 rs2) s (fun t => Writes s t rd (s.readReg rs1 ||| s.readReg rs2)) ∧
    Completes (.xor4 rd rs1 rs2) s (fun t => Writes s t rd (s.readReg rs1 ^^^ s.readReg rs2))

/-- 48_simd.md R195 ("AND4 computes exactly what AND computes"), R196, R197, inferences the spec marks as its own: the
lane form and the whole-word form are one function of the state. -/
def Obligations.SimdLogicalIsWholeWord : Prop :=
  ∀ (s : State) (rd rs1 rs2 : Reg),
    exec (.and4 rd rs1 rs2) s = exec (.and rd rs1 rs2) s ∧ exec (.or4 rd rs1 rs2) s = exec (.or rd rs1 rs2) s ∧
    exec (.xor4 rd rs1 rs2) s = exec (.xor rd rs1 rs2) s

/-- 48_simd.md R198: encoding; SHIFT4 completes in every state, with the value of the open function written to `rd`, or
with Arithmetic Overflow where the function says so. Holds for every `SHIFT4_FN` (notes/assumptions/19.md). -/
def Obligations.Shift4Results : Prop :=
  Selects 0xFE00707F#32 0x0C00002B#32 (fun w => .shift4 (rdOf w) (rs1Of w) (rs2Of w)) ∧
  ∀ (s : State) (rd rs1 rs2 : Reg), Completes (.shift4 rd rs1 rs2) s (fun t =>
    match Config.shift4Fn (s.readReg rs1) (s.readReg rs2) with
    | some r => Writes s t rd r
    | none => Traps s t .arithmeticOverflow)

/-! ## DSP-specific -/

/-- 49_dsp_specific.md R211, R212, R214: encodings; CLIP, ROUND and CIRCULAR_ADDR write the value of their open function
of the operand values. Holds for every `CLIP_FN`, `ROUND_FN`, `CIRC_FN` (notes/assumptions/19.md). -/
def Obligations.OpenDspResults : Prop :=
  Selects 0xFE00707F#32 0x1600002B#32 (fun w => .clip (rdOf w) (rs1Of w) (rs2Of w)) ∧
  Selects 0xFFF0707F#32 0x1800002B#32 (fun w => .round (rdOf w) (rs1Of w)) ∧
  Selects 0xFE00707F#32 0x1C00002B#32 (fun w => .circularAddr (rdOf w) (rs1Of w) (rs2Of w)) ∧
  ∀ (s : State) (rd rs1 rs2 : Reg),
    Completes (.clip rd rs1 rs2) s (fun t => Writes s t rd (Config.clipFn (s.readReg rs1) (s.readReg rs2))) ∧
    Completes (.round rd rs1) s (fun t => Writes s t rd (Config.roundFn (s.readReg rs1))) ∧
    Completes (.circularAddr rd rs1 rs2) s (fun t => Writes s t rd (Config.circFn (s.readReg rs1) (s.readReg rs2)))

/-- 49_dsp_specific.md R210 (the spec's decision D22, notes/assumptions/18.md): encoding; the signed value forced into
[-32768, 32767]; SAT of a SAT result changes nothing. -/
def Obligations.SatResults : Prop :=
  Selects 0xFFF0707F#32 0x1400002B#32 (fun w => .sat (rdOf w) (rs1Of w)) ∧
  ∀ (s : State) (rd rs1 : Reg), Completes (.sat rd rs1) s (fun t => ∃ v : Word, Writes s t rd v ∧
    v.toInt = (if (s.readReg rs1).toInt > 32767 then 32767
      else if (s.readReg rs1).toInt < -32768 then -32768 else (s.readReg rs1).toInt) ∧
    ∀ q : Reg, rd ≠ 0 → Completes (.sat q rd) t (fun u => Writes t u q v))

/-- 49_dsp_specific.md R213 (the spec's decision D23, notes/assumptions/18.md): encoding; bit `i` of the result is bit
`31 - i` of the operand; reversing twice gives the original value. -/
def Obligations.BitReverseResults : Prop :=
  Selects 0xFFF0707F#32 0x1A00002B#32 (fun w => .bitReverse (rdOf w) (rs1Of w)) ∧
  ∀ (s : State) (rd rs1 : Reg), Completes (.bitReverse rd rs1) s (fun t => ∃ v : Word, Writes s t rd v ∧
    (∀ i < 32, v.getLsbD i = (s.readReg rs1).getLsbD (31 - i)) ∧
    ∀ q : Reg, rd ≠ 0 → Completes (.bitReverse q rd) t (fun u => Writes t u q (s.readReg rs1)))
end

