-- ==== Sys2Proof/Laws/Decode.lean ====
section
/-! SUPPORT. The fields of each layout, and what the masks of the opcode table keep of it (30_encoding.md R61 to R74). -/

namespace Sys2Proof

@[simp] theorem toFin_fieldOf (r : Fin 32) : (fieldOf r).toFin = r := rfl

/-! ## The decoder -/

/-- Everything the decoder can answer under an `ENC`. -/
theorem Enc.decode_cases (e : Enc) (w : Word) :
    (∃ r ∈ e.rows, w &&& r.mask = r.pattern ∧ e.decode w = .ok (r.build w)) ∨
      ((∀ r ∈ e.rows, w &&& r.mask ≠ r.pattern) ∧ e.decode w = .error (classify w)) := by
  unfold Enc.decode
  cases h : e.rows.find? (·.selects w) with
  | some r =>
    exact .inl ⟨r, List.mem_of_find?_eq_some h, by simpa [Row.selects] using List.find?_some h, rfl⟩
  | none =>
    refine .inr ⟨fun r hr => ?_, rfl⟩
    simpa [Row.selects] using List.find?_eq_none.1 h r hr

/-- The row of the spec's opcode table that a row of spec/opcode_table.json gives. -/
def SpecRow.row (r : SpecRow) : Row :=
  { mnemonic := r.mnemonic, mask := r.mask, pattern := r.pattern, build := r.build specEnc }

/-- The opcode table of the spec is spec/opcode_table.json row by row. -/
theorem opcodeTable_eq : opcodeTable = specRows.map SpecRow.row := rfl

theorem specRows_length : specRows.length = 55 := rfl

theorem Enc.rows_length (e : Enc) : e.rows.length = 55 := by
  simp [Enc.rows, specRows_length]

/-- Row `k` of the opcode table of an `ENC`: row `k` of spec/opcode_table.json with the pattern `k` of the `ENC`. -/
theorem Enc.rows_getElem (e : Enc) (k : Nat) (_ : k < 55) (hr : k < e.rows.length) (hs : k < specRows.length) :
    e.rows[k] = ⟨specRows[k].mnemonic, (e.patterns[k]).mask, (e.patterns[k]).pattern, specRows[k].build e⟩ := by
  simp only [Enc.rows, List.getElem_zipWith]
  rfl

/-! ## The two places of `ENC` at the spec's values -/

/-- `rs3 = inst[31:27]` (30_encoding.md R66). -/
theorem specEnc_rs3Of (w : Word) : specEnc.rs3Of w = (w.extractLsb' 27 5).toFin := rfl

/-- `imm = sext_32({inst[31:25], inst[14:12]})` (30_encoding.md R74). -/
theorem specEnc_immI4 (w : Word) : specEnc.immI4 w = (w.extractLsb' 25 7 ++ w.extractLsb' 12 3).signExtend 32 := by
  show (((((w.extractLsb' 25 7).setWidth 32) <<< 3) ||| ((((w.extractLsb' 12 3).setWidth 32) <<< 0) ||| 0#32)).setWidth
    10).signExtend 32 = _
  congr 1
  apply BitVec.eq_of_getLsbD_eq
  intro i hi
  simp only [BitVec.getLsbD_setWidth, BitVec.getLsbD_or, BitVec.getLsbD_shiftLeft, BitVec.getLsbD_extractLsb',
    BitVec.getLsbD_append]
  interval_cases i <;> simp

/-! ## layoutR -/

section layoutR
variable (f7 : BitVec 7) (rs2 rs1 : Reg) (f3 : BitVec 3) (rd : Reg) (op : BitVec 7)

theorem extract_rd_layoutR : (layoutR f7 rs2 rs1 f3 rd op).extractLsb' 7 5 = fieldOf rd := by
  apply BitVec.eq_of_getLsbD_eq
  intro i hi
  simp only [layoutR, BitVec.getLsbD_extractLsb', BitVec.getLsbD_append]
  interval_cases i <;> simp

theorem extract_rs1_layoutR : (layoutR f7 rs2 rs1 f3 rd op).extractLsb' 15 5 = fieldOf rs1 := by
  apply BitVec.eq_of_getLsbD_eq
  intro i hi
  simp only [layoutR, BitVec.getLsbD_extractLsb', BitVec.getLsbD_append]
  interval_cases i <;> simp

theorem extract_rs2_layoutR : (layoutR f7 rs2 rs1 f3 rd op).extractLsb' 20 5 = fieldOf rs2 := by
  apply BitVec.eq_of_getLsbD_eq
  intro i hi
  simp only [layoutR, BitVec.getLsbD_extractLsb', BitVec.getLsbD_append]
  interval_cases i <;> simp

@[simp] theorem rdOf_layoutR : rdOf (layoutR f7 rs2 rs1 f3 rd op) = rd := by
  simp [rdOf, extract_rd_layoutR]

@[simp] theorem rs1Of_layoutR : rs1Of (layoutR f7 rs2 rs1 f3 rd op) = rs1 := by
  simp [rs1Of, extract_rs1_layoutR]

@[simp] theorem rs2Of_layoutR : rs2Of (layoutR f7 rs2 rs1 f3 rd op) = rs2 := by
  simp [rs2Of, extract_rs2_layoutR]

@[simp] theorem shamtOf_layoutR : shamtOf (layoutR f7 rs2 rs1 f3 rd op) = rs2 := by
  simp [shamtOf, extract_rs2_layoutR]

end layoutR

/-! ## layoutI -/

section layoutI
variable (imm : Word) (rs1 : Reg) (f3 : BitVec 3) (rd : Reg) (op : BitVec 7)

theorem extract_rd_layoutI : (layoutI imm rs1 f3 rd op).extractLsb' 7 5 = fieldOf rd := by
  apply BitVec.eq_of_getLsbD_eq
  intro i hi
  simp only [layoutI, BitVec.getLsbD_extractLsb', BitVec.getLsbD_append]
  interval_cases i <;> simp

theorem extract_rs1_layoutI : (layoutI imm rs1 f3 rd op).extractLsb' 15 5 = fieldOf rs1 := by
  apply BitVec.eq_of_getLsbD_eq
  intro i hi
  simp only [layoutI, BitVec.getLsbD_extractLsb', BitVec.getLsbD_append]
  interval_cases i <;> simp

@[simp] theorem rdOf_layoutI : rdOf (layoutI imm rs1 f3 rd op) = rd := by
  simp [rdOf, extract_rd_layoutI]

@[simp] theorem rs1Of_layoutI : rs1Of (layoutI imm rs1 f3 rd op) = rs1 := by
  simp [rs1Of, extract_rs1_layoutI]

end layoutI

/-! ## layoutS -/

section layoutS
variable (imm : Word) (rs2 rs1 : Reg) (f3 : BitVec 3) (op : BitVec 7)

theorem extract_rs1_layoutS : (layoutS imm rs2 rs1 f3 op).extractLsb' 15 5 = fieldOf rs1 := by
  apply BitVec.eq_of_getLsbD_eq
  intro i hi
  simp only [layoutS, BitVec.getLsbD_extractLsb', BitVec.getLsbD_append]
  interval_cases i <;> simp

theorem extract_rs2_layoutS : (layoutS imm rs2 rs1 f3 op).extractLsb' 20 5 = fieldOf rs2 := by
  apply BitVec.eq_of_getLsbD_eq
  intro i hi
  simp only [layoutS, BitVec.getLsbD_extractLsb', BitVec.getLsbD_append]
  interval_cases i <;> simp

@[simp] theorem rs1Of_layoutS : rs1Of (layoutS imm rs2 rs1 f3 op) = rs1 := by
  simp [rs1Of, extract_rs1_layoutS]

@[simp] theorem rs2Of_layoutS : rs2Of (layoutS imm rs2 rs1 f3 op) = rs2 := by
  simp [rs2Of, extract_rs2_layoutS]

end layoutS

/-! ## layoutB -/

section layoutB
variable (imm : Word) (rs2 rs1 : Reg) (f3 : BitVec 3) (op : BitVec 7)

theorem extract_rs1_layoutB : (layoutB imm rs2 rs1 f3 op).extractLsb' 15 5 = fieldOf rs1 := by
  apply BitVec.eq_of_getLsbD_eq
  intro i hi
  simp only [layoutB, BitVec.getLsbD_extractLsb', BitVec.getLsbD_append]
  interval_cases i <;> simp

theorem extract_rs2_layoutB : (layoutB imm rs2 rs1 f3 op).extractLsb' 20 5 = fieldOf rs2 := by
  apply BitVec.eq_of_getLsbD_eq
  intro i hi
  simp only [layoutB, BitVec.getLsbD_extractLsb', BitVec.getLsbD_append]
  interval_cases i <;> simp

@[simp] theorem rs1Of_layoutB : rs1Of (layoutB imm rs2 rs1 f3 op) = rs1 := by
  simp [rs1Of, extract_rs1_layoutB]

@[simp] theorem rs2Of_layoutB : rs2Of (layoutB imm rs2 rs1 f3 op) = rs2 := by
  simp [rs2Of, extract_rs2_layoutB]

end layoutB

/-! ## layoutJ -/

section layoutJ
variable (imm : Word) (rd : Reg) (op : BitVec 7)

theorem extract_rd_layoutJ : (layoutJ imm rd op).extractLsb' 7 5 = fieldOf rd := by
  apply BitVec.eq_of_getLsbD_eq
  intro i hi
  simp only [layoutJ, BitVec.getLsbD_extractLsb', BitVec.getLsbD_append]
  interval_cases i <;> simp

@[simp] theorem rdOf_layoutJ : rdOf (layoutJ imm rd op) = rd := by
  simp [rdOf, extract_rd_layoutJ]

end layoutJ

/-! ## layoutR4 -/

section layoutR4
variable (rs3 : Reg) (f2 : BitVec 2) (rs2 rs1 : Reg) (f3 : BitVec 3) (rd : Reg) (op : BitVec 7)

theorem extract_rd_layoutR4 : (layoutR4 rs3 f2 rs2 rs1 f3 rd op).extractLsb' 7 5 = fieldOf rd := by
  apply BitVec.eq_of_getLsbD_eq
  intro i hi
  simp only [layoutR4, BitVec.getLsbD_extractLsb', BitVec.getLsbD_append]
  interval_cases i <;> simp

theorem extract_rs1_layoutR4 : (layoutR4 rs3 f2 rs2 rs1 f3 rd op).extractLsb' 15 5 = fieldOf rs1 := by
  apply BitVec.eq_of_getLsbD_eq
  intro i hi
  simp only [layoutR4, BitVec.getLsbD_extractLsb', BitVec.getLsbD_append]
  interval_cases i <;> simp

theorem extract_rs2_layoutR4 : (layoutR4 rs3 f2 rs2 rs1 f3 rd op).extractLsb' 20 5 = fieldOf rs2 := by
  apply BitVec.eq_of_getLsbD_eq
  intro i hi
  simp only [layoutR4, BitVec.getLsbD_extractLsb', BitVec.getLsbD_append]
  interval_cases i <;> simp

theorem extract_rs3_layoutR4 : (layoutR4 rs3 f2 rs2 rs1 f3 rd op).extractLsb' 27 5 = fieldOf rs3 := by
  apply BitVec.eq_of_getLsbD_eq
  intro i hi
  simp only [layoutR4, BitVec.getLsbD_extractLsb', BitVec.getLsbD_append]
  interval_cases i <;> simp

@[simp] theorem rdOf_layoutR4 : rdOf (layoutR4 rs3 f2 rs2 rs1 f3 rd op) = rd := by
  simp [rdOf, extract_rd_layoutR4]

@[simp] theorem rs1Of_layoutR4 : rs1Of (layoutR4 rs3 f2 rs2 rs1 f3 rd op) = rs1 := by
  simp [rs1Of, extract_rs1_layoutR4]

@[simp] theorem rs2Of_layoutR4 : rs2Of (layoutR4 rs3 f2 rs2 rs1 f3 rd op) = rs2 := by
  simp [rs2Of, extract_rs2_layoutR4]

@[simp] theorem rs3Of_layoutR4 : specEnc.rs3Of (layoutR4 rs3 f2 rs2 rs1 f3 rd op) = rs3 := by
  simp [specEnc_rs3Of, extract_rs3_layoutR4]

end layoutR4

/-! ## layoutI4 -/

section layoutI4
variable (imm : Word) (rs2 rs1 rd : Reg) (op : BitVec 7)

theorem extract_rd_layoutI4 : (layoutI4 imm rs2 rs1 rd op).extractLsb' 7 5 = fieldOf rd := by
  apply BitVec.eq_of_getLsbD_eq
  intro i hi
  simp only [layoutI4, BitVec.getLsbD_extractLsb', BitVec.getLsbD_append]
  interval_cases i <;> simp

theorem extract_rs1_layoutI4 : (layoutI4 imm rs2 rs1 rd op).extractLsb' 15 5 = fieldOf rs1 := by
  apply BitVec.eq_of_getLsbD_eq
  intro i hi
  simp only [layoutI4, BitVec.getLsbD_extractLsb', BitVec.getLsbD_append]
  interval_cases i <;> simp

theorem extract_rs2_layoutI4 : (layoutI4 imm rs2 rs1 rd op).extractLsb' 20 5 = fieldOf rs2 := by
  apply BitVec.eq_of_getLsbD_eq
  intro i hi
  simp only [layoutI4, BitVec.getLsbD_extractLsb', BitVec.getLsbD_append]
  interval_cases i <;> simp

@[simp] theorem rdOf_layoutI4 : rdOf (layoutI4 imm rs2 rs1 rd op) = rd := by
  simp [rdOf, extract_rd_layoutI4]

@[simp] theorem rs1Of_layoutI4 : rs1Of (layoutI4 imm rs2 rs1 rd op) = rs1 := by
  simp [rs1Of, extract_rs1_layoutI4]

@[simp] theorem rs2Of_layoutI4 : rs2Of (layoutI4 imm rs2 rs1 rd op) = rs2 := by
  simp [rs2Of, extract_rs2_layoutI4]

end layoutI4

/-! ## What the masks keep -/

theorem mask_layoutR (f7 : BitVec 7) (rs2 rs1 : Reg) (f3 : BitVec 3) (rd : Reg) (op : BitVec 7) :
    layoutR f7 rs2 rs1 f3 rd op &&& 0xFE00707F#32 = layoutR f7 0 0 f3 0 op := by
  apply BitVec.eq_of_getLsbD_eq
  intro i hi
  simp only [layoutR, fieldOf, BitVec.getLsbD_and, BitVec.getLsbD_append]
  interval_cases i <;> simp

theorem mask_layoutR_rs2 (f7 : BitVec 7) (rs2 rs1 : Reg) (f3 : BitVec 3) (rd : Reg) (op : BitVec 7) :
    layoutR f7 rs2 rs1 f3 rd op &&& 0xFFF0707F#32 = layoutR f7 rs2 0 f3 0 op := by
  apply BitVec.eq_of_getLsbD_eq
  intro i hi
  simp only [layoutR, fieldOf, BitVec.getLsbD_and, BitVec.getLsbD_append]
  interval_cases i <;> simp

theorem mask_layoutI (imm : Word) (rs1 : Reg) (f3 : BitVec 3) (rd : Reg) (op : BitVec 7) :
    layoutI imm rs1 f3 rd op &&& 0x0000707F#32 = layoutI 0 0 f3 0 op := by
  apply BitVec.eq_of_getLsbD_eq
  intro i hi
  simp only [layoutI, fieldOf, BitVec.getLsbD_and, BitVec.getLsbD_append]
  interval_cases i <;> simp

theorem mask_layoutS (imm : Word) (rs2 rs1 : Reg) (f3 : BitVec 3) (op : BitVec 7) :
    layoutS imm rs2 rs1 f3 op &&& 0x0000707F#32 = layoutS 0 0 0 f3 op := by
  apply BitVec.eq_of_getLsbD_eq
  intro i hi
  simp only [layoutS, fieldOf, BitVec.getLsbD_and, BitVec.getLsbD_append]
  interval_cases i <;> simp

theorem mask_layoutB (imm : Word) (rs2 rs1 : Reg) (f3 : BitVec 3) (op : BitVec 7) :
    layoutB imm rs2 rs1 f3 op &&& 0x0000707F#32 = layoutB 0 0 0 f3 op := by
  apply BitVec.eq_of_getLsbD_eq
  intro i hi
  simp only [layoutB, fieldOf, BitVec.getLsbD_and, BitVec.getLsbD_append]
  interval_cases i <;> simp

theorem mask_layoutJ (imm : Word) (rd : Reg) (op : BitVec 7) :
    layoutJ imm rd op &&& 0x0000007F#32 = layoutJ 0 0 op := by
  apply BitVec.eq_of_getLsbD_eq
  intro i hi
  simp only [layoutJ, fieldOf, BitVec.getLsbD_and, BitVec.getLsbD_append]
  interval_cases i <;> simp

theorem mask_layoutR4 (rs3 : Reg) (f2 : BitVec 2) (rs2 rs1 : Reg) (f3 : BitVec 3) (rd : Reg) (op : BitVec 7) :
    layoutR4 rs3 f2 rs2 rs1 f3 rd op &&& 0x0600707F#32 = layoutR4 0 f2 0 0 f3 0 op := by
  apply BitVec.eq_of_getLsbD_eq
  intro i hi
  simp only [layoutR4, fieldOf, BitVec.getLsbD_and, BitVec.getLsbD_append]
  interval_cases i <;> simp

theorem mask_layoutI4 (imm : Word) (rs2 rs1 rd : Reg) (op : BitVec 7) :
    layoutI4 imm rs2 rs1 rd op &&& 0x0000007F#32 = layoutI4 0 0 0 0 op := by
  apply BitVec.eq_of_getLsbD_eq
  intro i hi
  simp only [layoutI4, fieldOf, BitVec.getLsbD_and, BitVec.getLsbD_append]
  interval_cases i <;> simp

/-! ## Immediates: a well-formed immediate is read back -/

theorem sext_setWidth {n : Nat} {imm : Word} (h : fitsSext n imm = true) : (imm.setWidth n).signExtend 32 = imm := by
  simpa [fitsSext] using h

theorem immI_layoutI {imm : Word} (rs1 : Reg) (f3 : BitVec 3) (rd : Reg) (op : BitVec 7) (h : immOkI imm = true) :
    immI (layoutI imm rs1 f3 rd op) = imm := by
  rw [immI]
  conv_rhs => rw [← sext_setWidth h]
  congr 1
  apply BitVec.eq_of_getLsbD_eq
  intro i hi
  simp only [layoutI, BitVec.getLsbD_extractLsb', BitVec.getLsbD_append, BitVec.getLsbD_setWidth]
  interval_cases i <;> simp

theorem immS_layoutS {imm : Word} (rs2 rs1 : Reg) (f3 : BitVec 3) (op : BitVec 7) (h : immOkI imm = true) :
    immS (layoutS imm rs2 rs1 f3 op) = imm := by
  rw [immS]
  conv_rhs => rw [← sext_setWidth h]
  congr 1
  apply BitVec.eq_of_getLsbD_eq
  intro i hi
  simp only [layoutS, BitVec.getLsbD_extractLsb', BitVec.getLsbD_append, BitVec.getLsbD_setWidth]
  interval_cases i <;> simp

theorem immB_layoutB {imm : Word} (rs2 rs1 : Reg) (f3 : BitVec 3) (op : BitVec 7) (h : immOkB imm = true) :
    immB (layoutB imm rs2 rs1 f3 op) = imm := by
  rw [immOkB, Bool.and_eq_true] at h
  have h0 : imm[0] = false := by simpa [isEven] using h.2
  rw [immB]
  conv_rhs => rw [← sext_setWidth h.1]
  congr 1
  apply BitVec.eq_of_getLsbD_eq
  intro i hi
  simp only [layoutB, BitVec.getLsbD_extractLsb', BitVec.getLsbD_append, BitVec.getLsbD_setWidth]
  interval_cases i
  · simpa using h0
  all_goals simp

theorem immJ_layoutJ {imm : Word} (rd : Reg) (op : BitVec 7) (h : immOkJ imm = true) :
    immJ (layoutJ imm rd op) = imm := by
  rw [immOkJ, Bool.and_eq_true] at h
  have h0 : imm[0] = false := by simpa [isEven] using h.2
  rw [immJ]
  conv_rhs => rw [← sext_setWidth h.1]
  congr 1
  apply BitVec.eq_of_getLsbD_eq
  intro i hi
  simp only [layoutJ, BitVec.getLsbD_extractLsb', BitVec.getLsbD_append, BitVec.getLsbD_setWidth]
  interval_cases i
  · simpa using h0
  all_goals simp

theorem immI4_layoutI4 {imm : Word} (rs2 rs1 rd : Reg) (op : BitVec 7) (h : fitsSext 10 imm = true) :
    specEnc.immI4 (layoutI4 imm rs2 rs1 rd op) = imm := by
  rw [specEnc_immI4]
  conv_rhs => rw [← sext_setWidth h]
  congr 1
  apply BitVec.eq_of_getLsbD_eq
  intro i hi
  simp only [layoutI4, BitVec.getLsbD_extractLsb', BitVec.getLsbD_append, BitVec.getLsbD_setWidth]
  interval_cases i <;> simp

end Sys2Proof
end

