-- ==== Sys2Proof/Laws/Memory.lean ====
section
/-! SUPPORT. The laws of memory: read after write, the canonical form, the multi-byte accesses, the address set. -/

namespace Sys2Proof.Machine

/-! ## Single bytes -/

@[simp] theorem Memory.read_write_same (m : Memory) (a : Nat) (b : Byte) : (m.write a b).read a = some b := by
  induction m with
  | nil => simp [Memory.write, Memory.read]
  | cons c m ih =>
    obtain ⟨k, v⟩ := c
    simp only [Memory.write]
    split
    · simp [Memory.read]
    · split
      · simp [Memory.read]
      · next h => simp [Memory.read, h, ih]

theorem Memory.read_write_ne (m : Memory) {a x : Nat} (b : Byte) (h : x ≠ a) : (m.write a b).read x = m.read x := by
  induction m with
  | nil => simp [Memory.write, Memory.read, h]
  | cons c m ih =>
    obtain ⟨k, v⟩ := c
    simp only [Memory.write]
    split
    · simp [Memory.read, h]
    · split
      · next hk => subst hk; simp [Memory.read, h]
      · simp [Memory.read, ih]

theorem Memory.read_write (m : Memory) (a x : Nat) (b : Byte) :
    (m.write a b).read x = if x = a then some b else m.read x := by
  split
  · next h => subst h; exact m.read_write_same x b
  · next h => exact m.read_write_ne b h

/-- The entries of memory after a write. -/
theorem Memory.mem_write {m : Memory} {a : Nat} {b : Byte} {c : Host.Cell} (h : c ∈ m.write a b) :
    c = (a, b) ∨ c ∈ m := by
  induction m with
  | nil => simpa [Memory.write] using h
  | cons d m ih =>
    obtain ⟨k, v⟩ := d
    simp only [Memory.write] at h
    split at h
    · simpa using h
    · split at h
      · rcases List.mem_cons.1 h with h | h
        · exact .inl h
        · exact .inr (List.mem_cons_of_mem _ h)
      · rcases List.mem_cons.1 h with h | h
        · exact .inr (h ▸ List.mem_cons_self)
        · exact (ih h).imp id (List.mem_cons_of_mem _)

/-- A write keeps the canonical form. -/
theorem Memory.write_wf {m : Memory} (hm : m.wf) {a : Nat} (ha : a < addressSpace) (b : Byte) : (m.write a b).wf := by
  refine ⟨?_, fun c hc => ?_⟩
  · obtain ⟨hp, -⟩ := hm
    induction m with
    | nil => simp [Memory.write]
    | cons d m ih =>
      obtain ⟨k, v⟩ := d
      rw [List.pairwise_cons] at hp
      simp only [Memory.write]
      split
      · next hak =>
        refine List.pairwise_cons.2 ⟨fun c hc => ?_, List.pairwise_cons.2 hp⟩
        rcases List.mem_cons.1 hc with rfl | hc
        · exact hak
        · exact lt_trans hak (hp.1 c hc)
      · split
        · next hak => subst hak; exact List.pairwise_cons.2 hp
        · next h1 h2 =>
          refine List.pairwise_cons.2 ⟨fun c hc => ?_, ih hp.2⟩
          rcases Memory.mem_write hc with rfl | hc
          · show k < a; omega
          · exact hp.1 c hc
  · rcases Memory.mem_write hc with rfl | hc
    · exact ha
    · exact hm.2 c hc

/-! ## Addresses of a multi-byte access -/

theorem byteAddr_lt (a : Word) (i : Nat) : byteAddr a i < addressSpace := (a + BitVec.ofNat 32 i).isLt

/-- The bytes of one access have different addresses. -/
theorem byteAddr_inj {a : Word} {i j : Nat} (hi : i < 4) (hj : j < 4) (h : byteAddr a i = byteAddr a j) : i = j := by
  have h' : a + BitVec.ofNat 32 i = a + BitVec.ofNat 32 j := BitVec.eq_of_toNat_eq h
  have := congrArg BitVec.toNat (BitVec.add_right_inj a |>.1 h')
  simp only [BitVec.toNat_ofNat] at this
  omega

theorem mem_byteAddrs {a : Word} {n x : Nat} : x ∈ byteAddrs a n ↔ ∃ i < n, byteAddr a i = x := by
  simp [byteAddrs]

/-! ## Multi-byte writes -/

theorem Memory.read_writeBytes_other (m : Memory) (a v : Word) (n : Nat) {x : Nat} (h : x ∉ byteAddrs a n) :
    (m.writeBytes a v n).read x = m.read x := by
  induction n with
  | zero => rfl
  | succ n ih =>
    rw [mem_byteAddrs] at h
    rw [Memory.writeBytes, Memory.read_write_ne _ _ (fun e => h ⟨n, by omega, e.symm⟩),
      ih (fun hx => h (by obtain ⟨i, hi, e⟩ := mem_byteAddrs.1 hx; exact ⟨i, by omega, e⟩))]

theorem Memory.read_writeBytes (m : Memory) (a v : Word) {n i : Nat} (hn : n ≤ 4) (hi : i < n) :
    (m.writeBytes a v n).read (byteAddr a i) = some (byteOf v i) := by
  induction n with
  | zero => omega
  | succ n ih =>
    rw [Memory.writeBytes, Memory.read_write]
    split
    · next h =>
      have := byteAddr_inj (by omega) (by omega) h
      subst this; rfl
    · next h => exact ih (by omega) (by rcases Nat.lt_succ_iff_lt_or_eq.1 hi with h' | rfl <;> [exact h'; exact absurd rfl h])

theorem Memory.writeBytes_wf {m : Memory} (hm : m.wf) (a v : Word) (n : Nat) : (m.writeBytes a v n).wf := by
  induction n with
  | zero => exact hm
  | succ n ih => exact Memory.write_wf ih (byteAddr_lt a n) _

theorem width_bytes_le (w : Width) : w.bytes ≤ 4 := by cases w <;> simp [Width.bytes]

/-- A store keeps the canonical form. -/
theorem Memory.writeLE_wf {m : Memory} (hm : m.wf) (w : Width) (a v : Word) : (m.writeLE w a v).wf :=
  Memory.writeBytes_wf hm a v w.bytes

/-- A store changes no other byte (20_memory.md R42). -/
theorem Memory.read_writeLE_other (m : Memory) (w : Width) (a v : Word) {x : Nat} (h : x ∉ byteAddrs a w.bytes) :
    (m.writeLE w a v).read x = m.read x := Memory.read_writeBytes_other m a v w.bytes h

/-- The bytes a store wrote (20_memory.md R41). -/
theorem Memory.read_writeLE (m : Memory) (w : Width) (a v : Word) {i : Nat} (hi : i < w.bytes) :
    (m.writeLE w a v).read (byteAddr a i) = some (byteOf v i) := Memory.read_writeBytes m a v (width_bytes_le w) hi

/-- A word is made of its own four bytes. -/
theorem wordOfBytes_byteOf (v : Word) : wordOfBytes (byteOf v 0) (byteOf v 1) (byteOf v 2) (byteOf v 3) = v := by
  apply BitVec.eq_of_getLsbD_eq
  intro i hi
  simp only [wordOfBytes, byteOf, BitVec.getLsbD_append, BitVec.getLsbD_extractLsb']
  interval_cases i <;> simp

theorem Memory.readWord_writeLE (m : Memory) (a v : Word) : (m.writeLE .word a v).readWord a = some v := by
  simp only [Memory.readWord, Memory.read_writeLE m .word a v (show 0 < Width.word.bytes by decide),
    Memory.read_writeLE m .word a v (show 1 < Width.word.bytes by decide),
    Memory.read_writeLE m .word a v (show 2 < Width.word.bytes by decide),
    Memory.read_writeLE m .word a v (show 3 < Width.word.bytes by decide), wordOfBytes_byteOf]

/-! ## The address set -/

theorem AddrSet.mem_insert {r : AddrSet} {a x : Nat} : x ∈ AddrSet.insert r a ↔ x ∈ r ∨ x = a := by
  induction r with
  | nil => simp [AddrSet.insert]
  | cons k r ih =>
    simp only [AddrSet.insert]
    split
    · simp; tauto
    · split
      · next h => subst h; simp; tauto
      · simp [ih]; tauto

theorem AddrSet.insert_wf {r : AddrSet} (hr : r.wf) (a : Nat) : (AddrSet.insert r a).wf := by
  induction r with
  | nil => simp [AddrSet.insert]
  | cons k r ih =>
    have hr' : (∀ b ∈ r, k < b) ∧ AddrSet.wf r := List.pairwise_cons.1 hr
    simp only [AddrSet.insert]
    split
    · next h =>
      refine List.pairwise_cons.2 ⟨fun c hc => ?_, hr⟩
      rcases List.mem_cons.1 hc with rfl | hc
      · exact h
      · exact lt_trans h (hr'.1 c hc)
    · split
      · exact hr
      · refine List.pairwise_cons.2 ⟨fun c hc => ?_, ih hr'.2⟩
        rcases AddrSet.mem_insert.1 hc with hc | rfl
        · exact hr'.1 c hc
        · omega

theorem AddrSet.mem_insertAll {r : AddrSet} {as : List Nat} {x : Nat} :
    x ∈ r.insertAll as ↔ x ∈ r ∨ x ∈ as := by
  induction as generalizing r with
  | nil => simp [AddrSet.insertAll]
  | cons a as ih =>
    show x ∈ AddrSet.insertAll (AddrSet.insert r a) as ↔ _
    rw [ih, AddrSet.mem_insert]; simp; tauto

theorem AddrSet.insertAll_wf {r : AddrSet} (hr : r.wf) (as : List Nat) : (r.insertAll as).wf := by
  induction as generalizing r with
  | nil => exact hr
  | cons a as ih => exact ih (AddrSet.insert_wf hr a)

theorem AddrSet.mem_remove {r : AddrSet} {as : List Nat} {x : Nat} : x ∈ r.remove as ↔ x ∈ r ∧ x ∉ as := by
  simp [AddrSet.remove]

theorem AddrSet.remove_wf {r : AddrSet} (hr : r.wf) (as : List Nat) : (r.remove as).wf := hr.filter _

end Sys2Proof.Machine
end

