-- ==== Sys2Proof/Laws/State.lean ====
section
/-! SUPPORT. What each update of the state leaves in each field, and the register file's read-after-write laws. -/

namespace Sys2Proof.Machine

section setPc
variable (s : State) (t : Word)
@[simp] theorem State.setPc_regs : (s.setPc t).regs = s.regs := rfl
@[simp] theorem State.setPc_pc : (s.setPc t).pc = t := rfl
@[simp] theorem State.setPc_mcause : (s.setPc t).mcause = s.mcause := rfl
@[simp] theorem State.setPc_mepc : (s.setPc t).mepc = s.mepc := rfl
@[simp] theorem State.setPc_mem : (s.setPc t).mem = s.mem := rfl
@[simp] theorem State.setPc_image : (s.setPc t).image = s.image := rfl
@[simp] theorem State.setPc_stored : (s.setPc t).stored = s.stored := rfl
@[simp] theorem State.setPc_params : (s.setPc t).params = s.params := rfl
@[simp] theorem State.setPc_readReg (r : Reg) : (s.setPc t).readReg r = s.readReg r := rfl
end setPc

section raise
variable (s : State) (c : Cause)
@[simp] theorem State.raise_regs : (s.raise c).regs = s.regs := rfl
@[simp] theorem State.raise_pc : (s.raise c).pc = trapVector := rfl
@[simp] theorem State.raise_mcause : (s.raise c).mcause = codeOf s.params.causes c := rfl
@[simp] theorem State.raise_mepc : (s.raise c).mepc = s.pc := rfl
@[simp] theorem State.raise_mem : (s.raise c).mem = s.mem := rfl
@[simp] theorem State.raise_image : (s.raise c).image = s.image := rfl
@[simp] theorem State.raise_stored : (s.raise c).stored = s.stored := rfl
@[simp] theorem State.raise_params : (s.raise c).params = s.params := rfl
@[simp] theorem State.raise_readReg (r : Reg) : (s.raise c).readReg r = s.readReg r := rfl
end raise

section writeReg
variable (s : State) (r : Reg) (v : Word)
@[simp] theorem State.writeReg_pc : (s.writeReg r v).pc = s.pc := by unfold State.writeReg; split <;> rfl
@[simp] theorem State.writeReg_mcause : (s.writeReg r v).mcause = s.mcause := by unfold State.writeReg; split <;> rfl
@[simp] theorem State.writeReg_mepc : (s.writeReg r v).mepc = s.mepc := by unfold State.writeReg; split <;> rfl
@[simp] theorem State.writeReg_mem : (s.writeReg r v).mem = s.mem := by unfold State.writeReg; split <;> rfl
@[simp] theorem State.writeReg_image : (s.writeReg r v).image = s.image := by unfold State.writeReg; split <;> rfl
@[simp] theorem State.writeReg_stored : (s.writeReg r v).stored = s.stored := by unfold State.writeReg; split <;> rfl
@[simp] theorem State.writeReg_params : (s.writeReg r v).params = s.params := by unfold State.writeReg; split <;> rfl
@[simp] theorem State.readReg_zero : s.readReg 0 = 0#32 := rfl
@[simp] theorem State.writeReg_zero : s.writeReg 0 v = s := rfl

/-- Reading any register after one write. -/
theorem State.readReg_writeReg (q : Reg) :
    (s.writeReg r v).readReg q = if q = r ∧ r ≠ 0 then v else s.readReg q := by
  by_cases hr : r = 0
  · subst hr; simp
  · by_cases hq : q = 0
    · subst hq
      simp [State.readReg, Ne.symm hr]
    · simp only [State.writeReg, State.readReg, hr, hq, dite_false, Vector.getElem_set, not_false_eq_true, and_true,
        ne_eq]
      by_cases hqr : q = r
      · simp [hqr]
      · have h1 : q.val ≠ r.val := Fin.val_ne_of_ne hqr
        have h2 : r.val ≠ 0 := fun e => hr (Fin.ext e)
        have h3 : q.val ≠ 0 := fun e => hq (Fin.ext e)
        rw [if_neg (by omega), if_neg hqr]
end writeReg

section finish
variable (s : State) (r : Reg) (v : Word)
@[simp] theorem State.nextPc_eq : s.nextPc = s.pc + 4#32 := rfl
@[simp] theorem State.finish_eq : s.finish r v = (s.writeReg r v).setPc (s.pc + 4#32) := by
  simp [State.finish, State.advance]
@[simp] theorem State.returnFromTrap_eq : s.returnFromTrap = s.setPc s.mepc := rfl
end finish

section storeAt
variable (s : State) (w : Width) (a v : Word)
@[simp] theorem State.storeAt_regs : (s.storeAt w a v).regs = s.regs := rfl
@[simp] theorem State.storeAt_pc : (s.storeAt w a v).pc = s.pc + 4#32 := rfl
@[simp] theorem State.storeAt_mcause : (s.storeAt w a v).mcause = s.mcause := rfl
@[simp] theorem State.storeAt_mepc : (s.storeAt w a v).mepc = s.mepc := rfl
@[simp] theorem State.storeAt_mem : (s.storeAt w a v).mem = s.mem.writeLE w a v := rfl
@[simp] theorem State.storeAt_image : (s.storeAt w a v).image = s.image := rfl
@[simp] theorem State.storeAt_stored :
    (s.storeAt w a v).stored = s.stored.insertAll (byteAddrs a w.bytes) := rfl
@[simp] theorem State.storeAt_params : (s.storeAt w a v).params = s.params := rfl
@[simp] theorem State.storeAt_readReg (r : Reg) : (s.storeAt w a v).readReg r = s.readReg r := rfl
end storeAt

section placeWord
variable (s : State) (v : Word)
@[simp] theorem State.placeWord_regs : (s.placeWord v).regs = s.regs := rfl
@[simp] theorem State.placeWord_pc : (s.placeWord v).pc = s.pc := rfl
@[simp] theorem State.placeWord_mcause : (s.placeWord v).mcause = s.mcause := rfl
@[simp] theorem State.placeWord_mepc : (s.placeWord v).mepc = s.mepc := rfl
@[simp] theorem State.placeWord_mem : (s.placeWord v).mem = s.mem.writeLE .word s.fetchAddr v := rfl
@[simp] theorem State.placeWord_image : (s.placeWord v).image = s.image.writeLE .word s.fetchAddr v := rfl
@[simp] theorem State.placeWord_stored : (s.placeWord v).stored = s.stored.remove (byteAddrs s.fetchAddr 4) := rfl
@[simp] theorem State.placeWord_params : (s.placeWord v).params = s.params := rfl
@[simp] theorem State.placeWord_readReg (r : Reg) : (s.placeWord v).readReg r = s.readReg r := rfl
end placeWord

section resetWith
variable (p : Params) (pc : Word) (m : Memory)
@[simp] theorem State.resetWith_pc : (State.resetWith p pc m).pc = pc := rfl
@[simp] theorem State.resetWith_mem : (State.resetWith p pc m).mem = m := rfl
@[simp] theorem State.resetWith_image : (State.resetWith p pc m).image = m := rfl
@[simp] theorem State.resetWith_stored : (State.resetWith p pc m).stored = [] := rfl
@[simp] theorem State.resetWith_params : (State.resetWith p pc m).params = p := rfl
end resetWith

end Sys2Proof.Machine
end

