-- ==== Sys2Proof/Laws/Ops.lean ====
section
/-! SUPPORT. What each shared operation can do, said once: its effect as a frame, and the cases of its outcome. -/

namespace Sys2Proof.Machine

/-! ## Frames of the updates -/

theorem sameStorage_refl (s : State) : SameStorage s s := ⟨fun _ => rfl, rfl, rfl, rfl⟩

/-- What `finish` does: `rd`, the pc, nothing else. -/
theorem finish_writes (s : State) (rd : Reg) (v : Word) : Writes s (s.finish rd v) rd v := by
  rw [State.finish_eq]
  refine ⟨fun r => ?_, by simp, ⟨by simp, by simp⟩, fun x => by simp, by simp, by simp, by simp⟩
  simpa using s.readReg_writeReg rd v r

/-- What setting the pc does. -/
theorem setPc_goesTo (s : State) (t : Word) : GoesTo s (s.setPc t) t :=
  ⟨fun _ => rfl, rfl, ⟨rfl, rfl⟩, sameStorage_refl s⟩

/-- What trap entry does (60_exceptions.md R240). -/
theorem raise_traps (s : State) (c : Cause) : Traps s (s.raise c) c :=
  ⟨rfl, rfl, rfl, fun _ => rfl, sameStorage_refl s⟩

/-- What a store does once its checks have passed. -/
theorem storeAt_stores (s : State) (w : Width) (a v : Word) : Stores s (s.storeAt w a v) a w.bytes v :=
  ⟨fun _ => rfl, rfl, ⟨rfl, rfl⟩, fun _ hi => Memory.read_writeLE _ w a v hi,
    fun _ hx => Memory.read_writeLE_other _ w a v hx, fun _ => AddrSet.mem_insertAll, rfl, rfl⟩

/-- What a jump with link does. -/
theorem linkAndJump_links (rd : Reg) (t : Word) (s : State) :
    linkAndJump rd t s = .next ((s.writeReg rd s.nextPc).setPc t) ∧
      Links s ((s.writeReg rd s.nextPc).setPc t) rd t := by
  refine ⟨rfl, fun r => ?_, by simp, ⟨by simp, by simp⟩, fun x => by simp, by simp, by simp, by simp⟩
  simpa using s.readReg_writeReg rd (s.pc + 4#32) r

/-! ## The checks of a data access -/

theorem resolveAccess_aligned {p : Params} {k : Access} {ea : Word} (h : isAligned ea k.bytes = true) :
    resolveAccess p k ea = ifValid p k ea := by simp [resolveAccess, h]

theorem resolveAccess_go {p : Params} {k : Access} {ea : Word} (h : isAligned ea k.bytes = true)
    (hv : validAccess p k ea = true) : resolveAccess p k ea = .go ea := by
  simp [resolveAccess_aligned h, ifValid, hv]

theorem resolveAccess_fault {p : Params} {k : Access} {ea : Word} (h : isAligned ea k.bytes = true)
    (hv : validAccess p k ea = false) : resolveAccess p k ea = .accessFault := by
  simp [resolveAccess_aligned h, ifValid, hv]

theorem resolveAccess_misaligned {p : Params} {k : Access} {ea : Word} (h : isAligned ea k.bytes = false) :
    resolveAccess p k ea = resolveMisaligned p k ea := by simp [resolveAccess, h]

/-! ## Loads, stores, MAC and SIMD: everything they can answer -/

/-- A load answers a next state only as a completed load or as a Load Access Fault. -/
theorem load_next_cases {s t : State} {w : Width} {ext : Word → Word} {rd : Reg} {ea : Word}
    (h : s.load w ext rd ea = .next t) :
    (∃ a v, resolveAccess s.params (.load w) ea = .go a ∧ s.mem.readLE w a = some v ∧ t = s.finish rd (ext v)) ∨
      (resolveAccess s.params (.load w) ea = .accessFault ∧ t = s.raise .loadAccessFault) := by
  unfold State.load at h
  split at h
  · cases h
  · next hr => exact .inr ⟨hr, by injection h with h; exact h.symm⟩
  · next a hr =>
    split at h
    · next v hv => exact .inl ⟨a, v, hr, hv, by injection h with h; exact h.symm⟩
    · cases h

/-- A store answers a next state only as a completed store or as a Store Access Fault. -/
theorem store_next_cases {s t : State} {w : Width} {ea v : Word} (h : s.store w ea v = .next t) :
    (∃ a, resolveAccess s.params (.store w) ea = .go a ∧ t = s.storeAt w a v) ∨
      (resolveAccess s.params (.store w) ea = .accessFault ∧ t = s.raise .storeAccessFault) := by
  unfold State.store at h
  split at h
  · cases h
  · next hr => exact .inr ⟨hr, by injection h with h; exact h.symm⟩
  · next a hr => exact .inl ⟨a, hr, by injection h with h; exact h.symm⟩

/-- The end of a MAC instruction: the result when it fits, else the overflow trap (47_mac.md R180). -/
theorem macFinish_cases (fits : Int → Bool) (rd : Reg) (e : Int) (s : State) :
    (fits e = true ∧ macFinish fits rd e s = .next (s.finish rd (BitVec.ofInt 32 e))) ∨
      (fits e = false ∧ macFinish fits rd e s = .next (s.raise .arithmeticOverflow)) := by
  unfold macFinish; cases h : fits e <;> simp

/-- A 4x 8-bit instruction: the lanes when none overflows, else the overflow trap (48_simd.md R191). -/
theorem simd4_cases (f : Int → Int → Int) (rd rs1 rs2 : Reg) (s : State) :
    (anyLaneOverflows s.params.simdOvf f 8 4 (s.readReg rs1) (s.readReg rs2) = false ∧
      simd4 f rd rs1 rs2 s = .next (s.finish rd
        (packLanes8 fun i => laneResult f (lane 8 (s.readReg rs1) i) (lane 8 (s.readReg rs2) i)))) ∨
    (anyLaneOverflows s.params.simdOvf f 8 4 (s.readReg rs1) (s.readReg rs2) = true ∧
      simd4 f rd rs1 rs2 s = .next (s.raise .arithmeticOverflow)) := by
  unfold simd4; split
  · next h => exact .inr ⟨h, rfl⟩
  · next h => exact .inl ⟨by simpa using h, rfl⟩

/-- A 2x 16-bit instruction: the lanes when none overflows, else the overflow trap (48_simd.md R191). -/
theorem simd2_cases (f : Int → Int → Int) (rd rs1 rs2 : Reg) (s : State) :
    (anyLaneOverflows s.params.simdOvf f 16 2 (s.readReg rs1) (s.readReg rs2) = false ∧
      simd2 f rd rs1 rs2 s = .next (s.finish rd
        (packLanes16 fun i => laneResult f (lane 16 (s.readReg rs1) i) (lane 16 (s.readReg rs2) i)))) ∨
    (anyLaneOverflows s.params.simdOvf f 16 2 (s.readReg rs1) (s.readReg rs2) = true ∧
      simd2 f rd rs1 rs2 s = .next (s.raise .arithmeticOverflow)) := by
  unfold simd2; split
  · next h => exact .inr ⟨h, rfl⟩
  · next h => exact .inl ⟨by simpa using h, rfl⟩

/-- What a rejected word does when it answers a next state: an Illegal Instruction trap (30_encoding.md R80). -/
theorem reject_next {s t : State} {r : Reject} (h : s.reject r = .next t) : t = s.raise .illegalInstruction := by
  cases r with
  | illegal => injection h with h; exact h.symm
  | unlisted g =>
    simp only [State.reject] at h
    split at h
    · cases h
    · injection h with h; exact h.symm

/-! ## Lanes -/

theorem lane_packLanes8 (r : Nat → BitVec 8) {i : Nat} (hi : i < 4) : lane 8 (packLanes8 r) i = r i := by
  apply BitVec.eq_of_getLsbD_eq
  intro j hj
  simp only [lane, packLanes8, BitVec.getLsbD_extractLsb', BitVec.getLsbD_append]
  interval_cases i <;> interval_cases j <;> simp

theorem lane_packLanes16 (r : Nat → BitVec 16) {i : Nat} (hi : i < 2) : lane 16 (packLanes16 r) i = r i := by
  apply BitVec.eq_of_getLsbD_eq
  intro j hj
  simp only [lane, packLanes16, BitVec.getLsbD_extractLsb', BitVec.getLsbD_append]
  interval_cases i <;> interval_cases j <;> simp

end Sys2Proof.Machine
end

