-- ==== Sys2Proof/Laws/Exec.lean ====
section
/-! SUPPORT. Everything one instruction and one step can do, said once. -/

namespace Sys2Proof.Machine

/-- The shapes of a next state: a register and the pc, a store, or a trap that is not Division by Zero. -/
def NextShape (s t : State) : Prop :=
  (∃ rd v x, t = (s.writeReg rd v).setPc x) ∨ (∃ w a v, t = s.storeAt w a v) ∨
    ∃ c, c ≠ .divisionByZero ∧ t = s.raise c

theorem nextShape_finish (s : State) (rd : Reg) (v : Word) : NextShape s (s.finish rd v) :=
  .inl ⟨rd, v, s.pc + 4#32, s.finish_eq rd v⟩

theorem nextShape_setPc (s : State) (x : Word) : NextShape s (s.setPc x) := .inl ⟨0, 0#32, x, by simp⟩

theorem nextShape_raise (s : State) {c : Cause} (h : c ≠ .divisionByZero) : NextShape s (s.raise c) :=
  .inr (.inr ⟨c, h, rfl⟩)

theorem nextShape_load {s t : State} {w : Width} {ext : Word → Word} {rd : Reg} {ea : Word}
    (h : s.load w ext rd ea = .next t) : NextShape s t := by
  rcases load_next_cases h with ⟨_, v, -, -, rfl⟩ | ⟨-, rfl⟩
  · exact nextShape_finish s rd _
  · exact nextShape_raise s (by decide)

theorem nextShape_store {s t : State} {w : Width} {ea v : Word} (h : s.store w ea v = .next t) : NextShape s t := by
  rcases store_next_cases h with ⟨a, -, rfl⟩ | ⟨-, rfl⟩
  · exact .inr (.inl ⟨w, a, v, rfl⟩)
  · exact nextShape_raise s (by decide)

theorem nextShape_macFinish {fits : Int → Bool} {rd : Reg} {e : Int} {s t : State}
    (h : macFinish fits rd e s = .next t) : NextShape s t := by
  rcases macFinish_cases fits rd e s with ⟨-, h'⟩ | ⟨-, h'⟩ <;> (rw [h'] at h; injection h with h; subst h)
  · exact nextShape_finish s rd _
  · exact nextShape_raise s (by decide)

theorem nextShape_simd4 {f : Int → Int → Int} {rd rs1 rs2 : Reg} {s t : State}
    (h : simd4 f rd rs1 rs2 s = .next t) : NextShape s t := by
  rcases simd4_cases f rd rs1 rs2 s with ⟨-, h'⟩ | ⟨-, h'⟩ <;> (rw [h'] at h; injection h with h; subst h)
  · exact nextShape_finish s rd _
  · exact nextShape_raise s (by decide)

theorem nextShape_simd2 {f : Int → Int → Int} {rd rs1 rs2 : Reg} {s t : State}
    (h : simd2 f rd rs1 rs2 s = .next t) : NextShape s t := by
  rcases simd2_cases f rd rs1 rs2 s with ⟨-, h'⟩ | ⟨-, h'⟩ <;> (rw [h'] at h; injection h with h; subst h)
  · exact nextShape_finish s rd _
  · exact nextShape_raise s (by decide)

theorem nextShape_shift4 {rd rs1 rs2 : Reg} {s t : State} (h : execShift4 rd rs1 rs2 s = .next t) :
    NextShape s t := by
  unfold execShift4 at h
  injection h with h
  subst h
  split
  · exact nextShape_finish s rd _
  · exact nextShape_raise s (by decide)

/-- Everything an instruction that answers a next state can have done. -/
theorem exec_next_shape {i : Instr} {s t : State} (h : exec i s = .next t) : NextShape s t := by
  cases i
  case lb | lh | lw | lbu | lhu => exact nextShape_load h
  case sb | sh | sw => exact nextShape_store h
  case mac | maci | macu => exact nextShape_macFinish h
  case add4 | sub4 | mul4 => exact nextShape_simd4 h
  case add2 | sub2 | mul2 => exact nextShape_simd2 h
  case shift4 => exact nextShape_shift4 h
  case beq | bne | blt | bge | bltu | bgeu | mret => injection h with h; subst h; exact nextShape_setPc s _
  case jal | jalr => injection h with h; subst h; exact .inl ⟨_, _, _, rfl⟩
  all_goals injection h with h; subst h; exact nextShape_finish s _ _

/-- Every step that answers a next state is a fetch trap, an Illegal Instruction trap, or an executed instruction. -/
theorem step_next_cases {s t : State} (h : step s = .next t) :
    (s.fetch = .raise .instructionAccessFault ∧ t = s.raise .instructionAccessFault) ∨
      (∃ w r, s.fetch = .word w ∧ s.params.enc.decode w = .error r ∧ s.reject r = .next t ∧ t = s.raise .illegalInstruction) ∨
      ∃ w i, s.fetch = .word w ∧ s.params.enc.decode w = .ok i ∧ exec i s = .next t := by
  unfold step runFetched at h
  split at h
  · next w hw =>
    unfold runWord at h
    split at h
    · next i hi => exact .inr (.inr ⟨w, i, hw, hi, h⟩)
    · next r hr => exact .inr (.inl ⟨w, r, hw, hr, h, reject_next h⟩)
  · next c hc =>
    have : c = .instructionAccessFault := by
      unfold State.fetch State.fetchAt State.fetchBytes fetchedWord at hc
      repeat' split at hc
      all_goals first | (injection hc with hc; exact hc.symm) | cases hc
    subst this
    injection h with h
    exact .inl ⟨hc, h.symm⟩
  · cases h
  · cases h

/-- Everything a step that answers a next state can have done. -/
theorem step_next_shape {s t : State} (h : step s = .next t) : NextShape s t := by
  rcases step_next_cases h with ⟨-, rfl⟩ | ⟨w, r, -, -, -, rfl⟩ | ⟨w, i, -, -, h⟩
  · exact nextShape_raise s (by decide)
  · exact nextShape_raise s (by decide)
  · exact exec_next_shape h

/-! ## Fetch -/

/-- The fetch of a step when the pc is aligned. -/
theorem fetch_aligned {s : State} (h : isAligned s.pc 4 = true) : s.fetch = s.fetchAt s.pc := by
  simp [State.fetch, h]

/-- A fetch reads neither the general registers nor the trap registers. -/
theorem fetch_congr {s t : State} (hpc : t.pc = s.pc) (hm : t.mem = s.mem) (hi : t.image = s.image)
    (hst : t.stored = s.stored) (hp : t.params = s.params) : t.fetch = s.fetch := by
  cases s
  cases t
  subst hpc hm hi hst hp
  rfl

end Sys2Proof.Machine
end

