-- ==== Sys2Proof/Laws/Fields.lean ====
section
/-! SUPPORT. Fields of an instruction word as data: what `get`, `put`, `gather` and `scatter` do (00_scope.md R5). -/

namespace Sys2Proof

/-! ## Fields of a word -/

theorem Slice.getLsbD_put (x : Slice) (v : Word) (i : Nat) :
    (x.put v).getLsbD i = (decide (i < 32 ∧ x.lo ≤ i ∧ i < x.lo + x.width) && v.getLsbD (i - x.lo)) := by
  simp only [Slice.put, BitVec.getLsbD_shiftLeft, BitVec.getLsbD_setWidth]
  by_cases h : i < 32 ∧ x.lo ≤ i ∧ i < x.lo + x.width
  · have h1 : i - x.lo < 32 ∧ i - x.lo < x.width ∧ ¬ i < x.lo := by omega
    simp [h, h1]
  · by_cases h1 : i < 32 ∧ x.lo ≤ i
    · have h2 : ¬ i - x.lo < x.width := by omega
      simp [h, h2]
    · rcases not_and_or.1 h1 with h1 | h1
      · simp [h1]
      · have h3 : i < x.lo := by omega
        simp [h1, h3]

theorem Slice.getLsbD_get (x : Slice) (w : Word) (i : Nat) :
    (x.get w).getLsbD i = (decide (i < 32 ∧ i < x.width) && w.getLsbD (x.lo + i)) := by
  simp only [Slice.get, BitVec.getLsbD_setWidth, BitVec.getLsbD_extractLsb']
  by_cases h : i < 32 <;> by_cases h2 : i < x.width <;> simp [h, h2]

theorem Slice.getLsbD_bits (x : Slice) (i : Nat) :
    x.bits.getLsbD i = decide (i < 32 ∧ x.lo ≤ i ∧ i < x.lo + x.width) := by
  rw [Slice.bits, Slice.getLsbD_put, BitVec.getLsbD_allOnes]
  by_cases h : i < 32
  · have : i - x.lo < 32 := by omega
    simp [h, this]
  · simp [h]

/-- `a` and `b` share no bit. -/
theorem and_eq_zero_iff {a b : Word} : a &&& b = 0#32 ↔ ∀ i, a.getLsbD i = true → b.getLsbD i = false := by
  constructor
  · intro h i ha
    have := congrArg (fun v : Word => v.getLsbD i) h
    simpa [ha] using this
  · intro h
    apply BitVec.eq_of_getLsbD_eq
    intro i _
    rw [BitVec.getLsbD_and]
    cases ha : a.getLsbD i with
    | true => simp [h i ha]
    | false => simp

theorem Slice.get_or (x : Slice) (a b : Word) : x.get (a ||| b) = x.get a ||| x.get b := by
  apply BitVec.eq_of_getLsbD_eq
  intro i _
  simp only [Slice.getLsbD_get, BitVec.getLsbD_or]
  cases decide (i < 32 ∧ i < x.width) <;> simp

/-- A word without a bit in a field reads 0 there. -/
theorem Slice.get_of_disjoint (x : Slice) {w : Word} (h : w &&& x.bits = 0#32) : x.get w = 0#32 := by
  apply BitVec.eq_of_getLsbD_eq
  intro i _
  rw [Slice.getLsbD_get]
  cases hw : w.getLsbD (x.lo + i) with
  | false => simp
  | true =>
    have := and_eq_zero_iff.1 h _ hw
    have hl := BitVec.lt_of_getLsbD hw
    rw [Slice.getLsbD_bits] at this
    simp at this
    simp; omega

/-- What is put into a field is read back from it. -/
theorem Slice.get_put (x : Slice) (h : x.lo + x.width ≤ 32) (v : Word) : x.get (x.put v) = (v.setWidth x.width).setWidth 32 := by
  apply BitVec.eq_of_getLsbD_eq
  intro i hi
  rw [Slice.getLsbD_get, Slice.getLsbD_put, BitVec.getLsbD_setWidth, BitVec.getLsbD_setWidth]
  have h1 : x.lo + i - x.lo = i := by omega
  by_cases h2 : i < x.width
  · have h3 : x.lo + i < 32 := by omega
    simp [hi, h1, h2, h3]
  · simp [h2]

/-- What is put into a field stays in it. -/
theorem Slice.put_and (x : Slice) (v : Word) : x.put v &&& x.bits = x.put v := by
  apply BitVec.eq_of_getLsbD_eq
  intro i _
  rw [BitVec.getLsbD_and, Slice.getLsbD_put, Slice.getLsbD_bits]
  cases decide (i < 32 ∧ x.lo ≤ i ∧ i < x.lo + x.width) <;> simp

/-- The field of a word, put back, is the word's part in the field. -/
theorem Slice.put_get (x : Slice) (h : x.lo + x.width ≤ 32) (w : Word) : x.put (x.get w) = w &&& x.bits := by
  apply BitVec.eq_of_getLsbD_eq
  intro i _
  rw [BitVec.getLsbD_and, Slice.getLsbD_put, Slice.getLsbD_bits, Slice.getLsbD_get]
  by_cases h1 : i < 32 ∧ x.lo ≤ i ∧ i < x.lo + x.width
  · have h2 : x.lo + (i - x.lo) = i := by omega
    have h3 : i - x.lo < 32 ∧ i - x.lo < x.width := by omega
    simp only [h1, h2, h3, decide_true, Bool.true_and, Bool.and_true, and_self]
  · simp [h1]

/-! ## `gather` and `scatter` -/

theorem gather_or (a b : Word) : (xs : List Slice) → gather (a ||| b) xs = gather a xs ||| gather b xs
  | [] => (BitVec.or_self).symm
  | x :: xs => by
    rw [gather, gather, gather, gather_or a b xs, Slice.get_or, BitVec.shiftLeft_or_distrib]
    ac_rfl

/-- `slicesFree` taken apart. -/
theorem slicesFree_cons {x : Slice} {xs : List Slice} {u : Word} (h : slicesFree (x :: xs) u = true) :
    x.lo + x.width ≤ 32 ∧ x.bits &&& u = 0#32 ∧ slicesFree xs (u ||| x.bits) = true := by
  simpa [slicesFree, and_assoc] using h

/-- A word inside the used bits reads 0 in every free field. -/
theorem gather_of_used {w : Word} : {xs : List Slice} → {u : Word} → slicesFree xs u = true → w &&& u = w →
    gather w xs = 0#32
  | [], _, _, _ => rfl
  | x :: xs, u, h, hw => by
    obtain ⟨-, h2, h3⟩ := slicesFree_cons h
    have hx : w &&& x.bits = 0#32 := by
      rw [← hw, BitVec.and_assoc, BitVec.and_comm u, h2, BitVec.and_zero]
    have hu : w &&& (u ||| x.bits) = w := by
      apply BitVec.eq_of_getLsbD_eq
      intro i _
      have := congrArg (fun v : Word => v.getLsbD i) hw
      simp only [BitVec.getLsbD_and, BitVec.getLsbD_or] at this ⊢
      revert this
      cases w.getLsbD i <;> cases u.getLsbD i <;> simp
    rw [gather, x.get_of_disjoint hx, gather_of_used h3 hu]
    simp

/-- What is scattered over free fields touches no used bit. -/
theorem scatter_and_used (v : Word) : {xs : List Slice} → {u : Word} → slicesFree xs u = true →
    scatter v xs &&& u = 0#32
  | [], _, _ => BitVec.zero_and
  | x :: xs, u, h => by
    obtain ⟨-, h2, h3⟩ := slicesFree_cons h
    have ih := scatter_and_used v h3
    rw [and_eq_zero_iff] at h2 ih ⊢
    intro i hi
    rw [scatter, BitVec.getLsbD_or, Bool.or_eq_true] at hi
    rcases hi with hi | hi
    · have hb : x.bits.getLsbD i = true := by
        rw [← x.put_and, BitVec.getLsbD_and, Bool.and_eq_true] at hi
        exact hi.2
      exact h2 i hb
    · have := ih i hi
      rw [BitVec.getLsbD_or, Bool.or_eq_false_iff] at this
      exact this.1

/-- What is scattered over free fields is read back from them. -/
theorem gather_scatter (v : Word) : {xs : List Slice} → {u : Word} → slicesFree xs u = true →
    gather (scatter v xs) xs = (v.setWidth (totalWidth xs)).setWidth 32
  | [], _, _ => by
    apply BitVec.eq_of_getLsbD_eq
    intro i _
    simp [gather, totalWidth, BitVec.getLsbD_setWidth]
  | x :: xs, u, h => by
    obtain ⟨h1, h2, h3⟩ := slicesFree_cons h
    have h4 := scatter_and_used v h3
    have h5 : scatter v xs &&& x.bits = 0#32 := by
      rw [and_eq_zero_iff] at h4 ⊢
      intro i hi
      have := h4 i hi
      rw [BitVec.getLsbD_or, Bool.or_eq_false_iff] at this
      exact this.2
    have h6 : x.put (v >>> totalWidth xs) &&& (u ||| x.bits) = x.put (v >>> totalWidth xs) := by
      rw [BitVec.and_or_distrib_left, x.put_and, ← x.put_and, BitVec.and_assoc, h2]
      simp
    rw [gather, scatter, x.get_or, x.get_put h1, x.get_of_disjoint h5, gather_or, gather_of_used h3 h6, gather_scatter v h3]
    apply BitVec.eq_of_getLsbD_eq
    intro i hi
    simp only [BitVec.getLsbD_or, BitVec.getLsbD_shiftLeft, BitVec.getLsbD_setWidth, BitVec.getLsbD_zero,
      BitVec.getLsbD_ushiftRight, totalWidth, Bool.or_false, Bool.false_or]
    by_cases ha : i < totalWidth xs
    · have hb : i < x.width + totalWidth xs := by omega
      simp [hi, ha, hb]
    · have hb : totalWidth xs + (i - totalWidth xs) = i := by omega
      have hd : i - totalWidth xs < 32 := by omega
      by_cases hc : i < x.width + totalWidth xs
      · have he : i - totalWidth xs < x.width := by omega
        simp [hi, ha, hb, hc, hd, he]
      · have he : ¬ i - totalWidth xs < x.width := by omega
        simp [ha, hc, he]

/-- Two values with the same low bits are put into a field alike. -/
theorem Slice.put_congr (x : Slice) {a b : Word} (h : ∀ k < x.width, k < 32 → a.getLsbD k = b.getLsbD k) :
    x.put a = x.put b := by
  apply BitVec.eq_of_getLsbD_eq
  intro i _
  rw [Slice.getLsbD_put, Slice.getLsbD_put]
  by_cases hi : i < 32 ∧ x.lo ≤ i ∧ i < x.lo + x.width
  · rw [h (i - x.lo) (by omega) (by omega)]
  · simp [hi]

/-- What is gathered has no bit beyond the width of the fields. -/
theorem gather_high (w : Word) : {xs : List Slice} → {i : Nat} → totalWidth xs ≤ i → (gather w xs).getLsbD i = false
  | [], _, _ => BitVec.getLsbD_zero
  | x :: xs, i, h => by
    rw [totalWidth] at h
    have h1 : ¬ i - totalWidth xs < x.width := by omega
    rw [gather, BitVec.getLsbD_or, gather_high w (by omega), BitVec.getLsbD_shiftLeft, Slice.getLsbD_get]
    simp [h1]

/-- What is read from free fields, scattered over them again, is the word's part in the fields. -/
theorem scatter_of_gather {v w : Word} : {xs : List Slice} → {u : Word} → slicesFree xs u = true → totalWidth xs ≤ 32 →
    (∀ k < totalWidth xs, v.getLsbD k = (gather w xs).getLsbD k) →
    scatter v xs = w &&& scatter (BitVec.allOnes 32) xs
  | [], _, _, _, _ => BitVec.and_zero.symm
  | x :: xs, u, h, ht, hv => by
    obtain ⟨h1, -, h3⟩ := slicesFree_cons h
    rw [totalWidth] at ht hv
    simp only [gather, BitVec.getLsbD_or, BitVec.getLsbD_shiftLeft] at hv
    have ih : ∀ k < totalWidth xs, v.getLsbD k = (gather w xs).getLsbD k := by
      intro k hk
      rw [hv k (by omega)]
      simp [hk]
    have hx : x.put (v >>> totalWidth xs) = w &&& x.bits := by
      rw [← x.put_get h1]
      apply x.put_congr
      intro k hk hk2
      rw [BitVec.getLsbD_ushiftRight, hv _ (by omega), gather_high w (by omega)]
      have e1 : ¬ totalWidth xs + k < totalWidth xs := by omega
      have e2 : totalWidth xs + k - totalWidth xs = k := by omega
      have e3 : totalWidth xs + k < 32 := by omega
      simp [e2, e3]
    have ho : x.put (BitVec.allOnes 32 >>> totalWidth xs) = x.bits := by
      apply x.put_congr
      intro k hk hk2
      have e3 : totalWidth xs + k < 32 := by omega
      rw [BitVec.getLsbD_ushiftRight, BitVec.getLsbD_allOnes, BitVec.getLsbD_allOnes]
      simp [e3, hk2]
    rw [scatter, scatter, hx, ho, scatter_of_gather h3 (by omega) ih, BitVec.and_or_distrib_left]

end Sys2Proof
end

