-- ==== Sys2Proof/Laws/PerInstr.lean ====
section
/-! SUPPORT. Per instruction: a well-formed instruction encodes to a word that its own row of the opcode table selects, and
the row builds the instruction back (30_encoding.md R75). -/

namespace Sys2Proof.Laws.EncodesToRow

/-- Some row of the opcode table selects the word of `i` and builds `i` from it. -/
def Statement (i : Instr) : Prop :=
  WellFormed i → ∃ r ∈ opcodeTable, r.selects (encode i) = true ∧ r.build (encode i) = i

/-- A row selects a word of which its mask keeps its pattern. -/
theorem selects_of_mask {r : Row} {w x : Word} (h : w &&& r.mask = x) (hp : x = r.pattern) : r.selects w = true := by
  simp [Row.selects, h, hp]

theorem add (rd rs1 rs2 : Reg) : Statement (.add rd rs1 rs2) := fun _ =>
  ⟨opcodeTable[0]'(by decide), List.getElem_mem _, selects_of_mask (mask_layoutR _ _ _ _ _ _) (by decide),
    by show Instr.add (rdOf _) (rs1Of _) (rs2Of _) = _; simp only [encode, rdOf_layoutR, rs1Of_layoutR, rs2Of_layoutR]⟩
theorem sub (rd rs1 rs2 : Reg) : Statement (.sub rd rs1 rs2) := fun _ =>
  ⟨opcodeTable[1]'(by decide), List.getElem_mem _, selects_of_mask (mask_layoutR _ _ _ _ _ _) (by decide),
    by show Instr.sub (rdOf _) (rs1Of _) (rs2Of _) = _; simp only [encode, rdOf_layoutR, rs1Of_layoutR, rs2Of_layoutR]⟩
theorem addi (rd rs1 : Reg) (imm : Word) : Statement (.addi rd rs1 imm) := fun h =>
  ⟨opcodeTable[2]'(by decide), List.getElem_mem _, selects_of_mask (mask_layoutI _ _ _ _ _) (by decide),
    by show Instr.addi (rdOf _) (rs1Of _) (immI _) = _; simp only [encode, rdOf_layoutI, rs1Of_layoutI, immI_layoutI _ _ _ _ h]⟩
theorem subi (rd rs1 : Reg) (imm : Word) : Statement (.subi rd rs1 imm) := fun h =>
  ⟨opcodeTable[3]'(by decide), List.getElem_mem _, selects_of_mask (mask_layoutI _ _ _ _ _) (by decide),
    by show Instr.subi (rdOf _) (rs1Of _) (immI _) = _; simp only [encode, rdOf_layoutI, rs1Of_layoutI, immI_layoutI _ _ _ _ h]⟩
theorem and (rd rs1 rs2 : Reg) : Statement (.and rd rs1 rs2) := fun _ =>
  ⟨opcodeTable[4]'(by decide), List.getElem_mem _, selects_of_mask (mask_layoutR _ _ _ _ _ _) (by decide),
    by show Instr.and (rdOf _) (rs1Of _) (rs2Of _) = _; simp only [encode, rdOf_layoutR, rs1Of_layoutR, rs2Of_layoutR]⟩
theorem or (rd rs1 rs2 : Reg) : Statement (.or rd rs1 rs2) := fun _ =>
  ⟨opcodeTable[5]'(by decide), List.getElem_mem _, selects_of_mask (mask_layoutR _ _ _ _ _ _) (by decide),
    by show Instr.or (rdOf _) (rs1Of _) (rs2Of _) = _; simp only [encode, rdOf_layoutR, rs1Of_layoutR, rs2Of_layoutR]⟩
theorem xor (rd rs1 rs2 : Reg) : Statement (.xor rd rs1 rs2) := fun _ =>
  ⟨opcodeTable[6]'(by decide), List.getElem_mem _, selects_of_mask (mask_layoutR _ _ _ _ _ _) (by decide),
    by show Instr.xor (rdOf _) (rs1Of _) (rs2Of _) = _; simp only [encode, rdOf_layoutR, rs1Of_layoutR, rs2Of_layoutR]⟩
theorem andi (rd rs1 : Reg) (imm : Word) : Statement (.andi rd rs1 imm) := fun h =>
  ⟨opcodeTable[7]'(by decide), List.getElem_mem _, selects_of_mask (mask_layoutI _ _ _ _ _) (by decide),
    by show Instr.andi (rdOf _) (rs1Of _) (immI _) = _; simp only [encode, rdOf_layoutI, rs1Of_layoutI, immI_layoutI _ _ _ _ h]⟩
theorem ori (rd rs1 : Reg) (imm : Word) : Statement (.ori rd rs1 imm) := fun h =>
  ⟨opcodeTable[8]'(by decide), List.getElem_mem _, selects_of_mask (mask_layoutI _ _ _ _ _) (by decide),
    by show Instr.ori (rdOf _) (rs1Of _) (immI _) = _; simp only [encode, rdOf_layoutI, rs1Of_layoutI, immI_layoutI _ _ _ _ h]⟩
theorem xori (rd rs1 : Reg) (imm : Word) : Statement (.xori rd rs1 imm) := fun h =>
  ⟨opcodeTable[9]'(by decide), List.getElem_mem _, selects_of_mask (mask_layoutI _ _ _ _ _) (by decide),
    by show Instr.xori (rdOf _) (rs1Of _) (immI _) = _; simp only [encode, rdOf_layoutI, rs1Of_layoutI, immI_layoutI _ _ _ _ h]⟩
theorem sll (rd rs1 rs2 : Reg) : Statement (.sll rd rs1 rs2) := fun _ =>
  ⟨opcodeTable[10]'(by decide), List.getElem_mem _, selects_of_mask (mask_layoutR _ _ _ _ _ _) (by decide),
    by show Instr.sll (rdOf _) (rs1Of _) (rs2Of _) = _; simp only [encode, rdOf_layoutR, rs1Of_layoutR, rs2Of_layoutR]⟩
theorem srl (rd rs1 rs2 : Reg) : Statement (.srl rd rs1 rs2) := fun _ =>
  ⟨opcodeTable[11]'(by decide), List.getElem_mem _, selects_of_mask (mask_layoutR _ _ _ _ _ _) (by decide),
    by show Instr.srl (rdOf _) (rs1Of _) (rs2Of _) = _; simp only [encode, rdOf_layoutR, rs1Of_layoutR, rs2Of_layoutR]⟩
theorem sra (rd rs1 rs2 : Reg) : Statement (.sra rd rs1 rs2) := fun _ =>
  ⟨opcodeTable[12]'(by decide), List.getElem_mem _, selects_of_mask (mask_layoutR _ _ _ _ _ _) (by decide),
    by show Instr.sra (rdOf _) (rs1Of _) (rs2Of _) = _; simp only [encode, rdOf_layoutR, rs1Of_layoutR, rs2Of_layoutR]⟩
theorem slli (rd rs1 : Reg) (shamt : Shamt) : Statement (.slli rd rs1 shamt) := fun _ =>
  ⟨opcodeTable[13]'(by decide), List.getElem_mem _, selects_of_mask (mask_layoutR _ _ _ _ _ _) (by decide),
    by show Instr.slli (rdOf _) (rs1Of _) (shamtOf _) = _; simp only [encode, rdOf_layoutR, rs1Of_layoutR, shamtOf_layoutR]⟩
theorem srli (rd rs1 : Reg) (shamt : Shamt) : Statement (.srli rd rs1 shamt) := fun _ =>
  ⟨opcodeTable[14]'(by decide), List.getElem_mem _, selects_of_mask (mask_layoutR _ _ _ _ _ _) (by decide),
    by show Instr.srli (rdOf _) (rs1Of _) (shamtOf _) = _; simp only [encode, rdOf_layoutR, rs1Of_layoutR, shamtOf_layoutR]⟩
theorem srai (rd rs1 : Reg) (shamt : Shamt) : Statement (.srai rd rs1 shamt) := fun _ =>
  ⟨opcodeTable[15]'(by decide), List.getElem_mem _, selects_of_mask (mask_layoutR _ _ _ _ _ _) (by decide),
    by show Instr.srai (rdOf _) (rs1Of _) (shamtOf _) = _; simp only [encode, rdOf_layoutR, rs1Of_layoutR, shamtOf_layoutR]⟩
theorem slt (rd rs1 rs2 : Reg) : Statement (.slt rd rs1 rs2) := fun _ =>
  ⟨opcodeTable[16]'(by decide), List.getElem_mem _, selects_of_mask (mask_layoutR _ _ _ _ _ _) (by decide),
    by show Instr.slt (rdOf _) (rs1Of _) (rs2Of _) = _; simp only [encode, rdOf_layoutR, rs1Of_layoutR, rs2Of_layoutR]⟩
theorem sltu (rd rs1 rs2 : Reg) : Statement (.sltu rd rs1 rs2) := fun _ =>
  ⟨opcodeTable[17]'(by decide), List.getElem_mem _, selects_of_mask (mask_layoutR _ _ _ _ _ _) (by decide),
    by show Instr.sltu (rdOf _) (rs1Of _) (rs2Of _) = _; simp only [encode, rdOf_layoutR, rs1Of_layoutR, rs2Of_layoutR]⟩
theorem slti (rd rs1 : Reg) (imm : Word) : Statement (.slti rd rs1 imm) := fun h =>
  ⟨opcodeTable[18]'(by decide), List.getElem_mem _, selects_of_mask (mask_layoutI _ _ _ _ _) (by decide),
    by show Instr.slti (rdOf _) (rs1Of _) (immI _) = _; simp only [encode, rdOf_layoutI, rs1Of_layoutI, immI_layoutI _ _ _ _ h]⟩
theorem sltiu (rd rs1 : Reg) (imm : Word) : Statement (.sltiu rd rs1 imm) := fun h =>
  ⟨opcodeTable[19]'(by decide), List.getElem_mem _, selects_of_mask (mask_layoutI _ _ _ _ _) (by decide),
    by show Instr.sltiu (rdOf _) (rs1Of _) (immI _) = _; simp only [encode, rdOf_layoutI, rs1Of_layoutI, immI_layoutI _ _ _ _ h]⟩
theorem lb (rd rs1 : Reg) (imm : Word) : Statement (.lb rd rs1 imm) := fun h =>
  ⟨opcodeTable[20]'(by decide), List.getElem_mem _, selects_of_mask (mask_layoutI _ _ _ _ _) (by decide),
    by show Instr.lb (rdOf _) (rs1Of _) (immI _) = _; simp only [encode, rdOf_layoutI, rs1Of_layoutI, immI_layoutI _ _ _ _ h]⟩
theorem lh (rd rs1 : Reg) (imm : Word) : Statement (.lh rd rs1 imm) := fun h =>
  ⟨opcodeTable[21]'(by decide), List.getElem_mem _, selects_of_mask (mask_layoutI _ _ _ _ _) (by decide),
    by show Instr.lh (rdOf _) (rs1Of _) (immI _) = _; simp only [encode, rdOf_layoutI, rs1Of_layoutI, immI_layoutI _ _ _ _ h]⟩
theorem lw (rd rs1 : Reg) (imm : Word) : Statement (.lw rd rs1 imm) := fun h =>
  ⟨opcodeTable[22]'(by decide), List.getElem_mem _, selects_of_mask (mask_layoutI _ _ _ _ _) (by decide),
    by show Instr.lw (rdOf _) (rs1Of _) (immI _) = _; simp only [encode, rdOf_layoutI, rs1Of_layoutI, immI_layoutI _ _ _ _ h]⟩
theorem lbu (rd rs1 : Reg) (imm : Word) : Statement (.lbu rd rs1 imm) := fun h =>
  ⟨opcodeTable[23]'(by decide), List.getElem_mem _, selects_of_mask (mask_layoutI _ _ _ _ _) (by decide),
    by show Instr.lbu (rdOf _) (rs1Of _) (immI _) = _; simp only [encode, rdOf_layoutI, rs1Of_layoutI, immI_layoutI _ _ _ _ h]⟩
theorem lhu (rd rs1 : Reg) (imm : Word) : Statement (.lhu rd rs1 imm) := fun h =>
  ⟨opcodeTable[24]'(by decide), List.getElem_mem _, selects_of_mask (mask_layoutI _ _ _ _ _) (by decide),
    by show Instr.lhu (rdOf _) (rs1Of _) (immI _) = _; simp only [encode, rdOf_layoutI, rs1Of_layoutI, immI_layoutI _ _ _ _ h]⟩
theorem sb (rs1 rs2 : Reg) (imm : Word) : Statement (.sb rs1 rs2 imm) := fun h =>
  ⟨opcodeTable[25]'(by decide), List.getElem_mem _, selects_of_mask (mask_layoutS _ _ _ _ _) (by decide),
    by show Instr.sb (rs1Of _) (rs2Of _) (immS _) = _; simp only [encode, rs1Of_layoutS, rs2Of_layoutS, immS_layoutS _ _ _ _ h]⟩
theorem sh (rs1 rs2 : Reg) (imm : Word) : Statement (.sh rs1 rs2 imm) := fun h =>
  ⟨opcodeTable[26]'(by decide), List.getElem_mem _, selects_of_mask (mask_layoutS _ _ _ _ _) (by decide),
    by show Instr.sh (rs1Of _) (rs2Of _) (immS _) = _; simp only [encode, rs1Of_layoutS, rs2Of_layoutS, immS_layoutS _ _ _ _ h]⟩
theorem sw (rs1 rs2 : Reg) (imm : Word) : Statement (.sw rs1 rs2 imm) := fun h =>
  ⟨opcodeTable[27]'(by decide), List.getElem_mem _, selects_of_mask (mask_layoutS _ _ _ _ _) (by decide),
    by show Instr.sw (rs1Of _) (rs2Of _) (immS _) = _; simp only [encode, rs1Of_layoutS, rs2Of_layoutS, immS_layoutS _ _ _ _ h]⟩
theorem beq (rs1 rs2 : Reg) (imm : Word) : Statement (.beq rs1 rs2 imm) := fun h =>
  ⟨opcodeTable[28]'(by decide), List.getElem_mem _, selects_of_mask (mask_layoutB _ _ _ _ _) (by decide),
    by show Instr.beq (rs1Of _) (rs2Of _) (immB _) = _; simp only [encode, rs1Of_layoutB, rs2Of_layoutB, immB_layoutB _ _ _ _ h]⟩
theorem bne (rs1 rs2 : Reg) (imm : Word) : Statement (.bne rs1 rs2 imm) := fun h =>
  ⟨opcodeTable[29]'(by decide), List.getElem_mem _, selects_of_mask (mask_layoutB _ _ _ _ _) (by decide),
    by show Instr.bne (rs1Of _) (rs2Of _) (immB _) = _; simp only [encode, rs1Of_layoutB, rs2Of_layoutB, immB_layoutB _ _ _ _ h]⟩
theorem blt (rs1 rs2 : Reg) (imm : Word) : Statement (.blt rs1 rs2 imm) := fun h =>
  ⟨opcodeTable[30]'(by decide), List.getElem_mem _, selects_of_mask (mask_layoutB _ _ _ _ _) (by decide),
    by show Instr.blt (rs1Of _) (rs2Of _) (immB _) = _; simp only [encode, rs1Of_layoutB, rs2Of_layoutB, immB_layoutB _ _ _ _ h]⟩
theorem bge (rs1 rs2 : Reg) (imm : Word) : Statement (.bge rs1 rs2 imm) := fun h =>
  ⟨opcodeTable[31]'(by decide), List.getElem_mem _, selects_of_mask (mask_layoutB _ _ _ _ _) (by decide),
    by show Instr.bge (rs1Of _) (rs2Of _) (immB _) = _; simp only [encode, rs1Of_layoutB, rs2Of_layoutB, immB_layoutB _ _ _ _ h]⟩
theorem bltu (rs1 rs2 : Reg) (imm : Word) : Statement (.bltu rs1 rs2 imm) := fun h =>
  ⟨opcodeTable[32]'(by decide), List.getElem_mem _, selects_of_mask (mask_layoutB _ _ _ _ _) (by decide),
    by show Instr.bltu (rs1Of _) (rs2Of _) (immB _) = _; simp only [encode, rs1Of_layoutB, rs2Of_layoutB, immB_layoutB _ _ _ _ h]⟩
theorem bgeu (rs1 rs2 : Reg) (imm : Word) : Statement (.bgeu rs1 rs2 imm) := fun h =>
  ⟨opcodeTable[33]'(by decide), List.getElem_mem _, selects_of_mask (mask_layoutB _ _ _ _ _) (by decide),
    by show Instr.bgeu (rs1Of _) (rs2Of _) (immB _) = _; simp only [encode, rs1Of_layoutB, rs2Of_layoutB, immB_layoutB _ _ _ _ h]⟩
theorem jal (rd : Reg) (imm : Word) : Statement (.jal rd imm) := fun h =>
  ⟨opcodeTable[34]'(by decide), List.getElem_mem _, selects_of_mask (mask_layoutJ _ _ _) (by decide),
    by show Instr.jal (rdOf _) (immJ _) = _; simp only [encode, rdOf_layoutJ, immJ_layoutJ _ _ h]⟩
theorem jalr (rd rs1 : Reg) (imm : Word) : Statement (.jalr rd rs1 imm) := fun h =>
  ⟨opcodeTable[35]'(by decide), List.getElem_mem _, selects_of_mask (mask_layoutI _ _ _ _ _) (by decide),
    by show Instr.jalr (rdOf _) (rs1Of _) (immI _) = _; simp only [encode, rdOf_layoutI, rs1Of_layoutI, immI_layoutI _ _ _ _ h]⟩
theorem mac (rd rs1 rs2 rs3 : Reg) : Statement (.mac rd rs1 rs2 rs3) := fun _ =>
  ⟨opcodeTable[36]'(by decide), List.getElem_mem _, selects_of_mask (mask_layoutR4 _ _ _ _ _ _ _) (by decide),
    by show Instr.mac (rdOf _) (rs1Of _) (rs2Of _) (specEnc.rs3Of _) = _; simp only [encode, rdOf_layoutR4, rs1Of_layoutR4, rs2Of_layoutR4, rs3Of_layoutR4]⟩
theorem maci (rd rs1 rs2 : Reg) (imm : Word) : Statement (.maci rd rs1 rs2 imm) := fun h =>
  ⟨opcodeTable[37]'(by decide), List.getElem_mem _, selects_of_mask (mask_layoutI4 _ _ _ _ _) (by decide),
    by show Instr.maci (rdOf _) (rs1Of _) (rs2Of _) (specEnc.immI4 _) = _; simp only [encode, rdOf_layoutI4, rs1Of_layoutI4, rs2Of_layoutI4, immI4_layoutI4 _ _ _ _ h]⟩
theorem macu (rd rs1 rs2 rs3 : Reg) : Statement (.macu rd rs1 rs2 rs3) := fun _ =>
  ⟨opcodeTable[38]'(by decide), List.getElem_mem _, selects_of_mask (mask_layoutR4 _ _ _ _ _ _ _) (by decide),
    by show Instr.macu (rdOf _) (rs1Of _) (rs2Of _) (specEnc.rs3Of _) = _; simp only [encode, rdOf_layoutR4, rs1Of_layoutR4, rs2Of_layoutR4, rs3Of_layoutR4]⟩
theorem add4 (rd rs1 rs2 : Reg) : Statement (.add4 rd rs1 rs2) := fun _ =>
  ⟨opcodeTable[39]'(by decide), List.getElem_mem _, selects_of_mask (mask_layoutR _ _ _ _ _ _) (by decide),
    by show Instr.add4 (rdOf _) (rs1Of _) (rs2Of _) = _; simp only [encode, rdOf_layoutR, rs1Of_layoutR, rs2Of_layoutR]⟩
theorem sub4 (rd rs1 rs2 : Reg) : Statement (.sub4 rd rs1 rs2) := fun _ =>
  ⟨opcodeTable[40]'(by decide), List.getElem_mem _, selects_of_mask (mask_layoutR _ _ _ _ _ _) (by decide),
    by show Instr.sub4 (rdOf _) (rs1Of _) (rs2Of _) = _; simp only [encode, rdOf_layoutR, rs1Of_layoutR, rs2Of_layoutR]⟩
theorem mul4 (rd rs1 rs2 : Reg) : Statement (.mul4 rd rs1 rs2) := fun _ =>
  ⟨opcodeTable[41]'(by decide), List.getElem_mem _, selects_of_mask (mask_layoutR _ _ _ _ _ _) (by decide),
    by show Instr.mul4 (rdOf _) (rs1Of _) (rs2Of _) = _; simp only [encode, rdOf_layoutR, rs1Of_layoutR, rs2Of_layoutR]⟩
theorem and4 (rd rs1 rs2 : Reg) : Statement (.and4 rd rs1 rs2) := fun _ =>
  ⟨opcodeTable[42]'(by decide), List.getElem_mem _, selects_of_mask (mask_layoutR _ _ _ _ _ _) (by decide),
    by show Instr.and4 (rdOf _) (rs1Of _) (rs2Of _) = _; simp only [encode, rdOf_layoutR, rs1Of_layoutR, rs2Of_layoutR]⟩
theorem or4 (rd rs1 rs2 : Reg) : Statement (.or4 rd rs1 rs2) := fun _ =>
  ⟨opcodeTable[43]'(by decide), List.getElem_mem _, selects_of_mask (mask_layoutR _ _ _ _ _ _) (by decide),
    by show Instr.or4 (rdOf _) (rs1Of _) (rs2Of _) = _; simp only [encode, rdOf_layoutR, rs1Of_layoutR, rs2Of_layoutR]⟩
theorem xor4 (rd rs1 rs2 : Reg) : Statement (.xor4 rd rs1 rs2) := fun _ =>
  ⟨opcodeTable[44]'(by decide), List.getElem_mem _, selects_of_mask (mask_layoutR _ _ _ _ _ _) (by decide),
    by show Instr.xor4 (rdOf _) (rs1Of _) (rs2Of _) = _; simp only [encode, rdOf_layoutR, rs1Of_layoutR, rs2Of_layoutR]⟩
theorem shift4 (rd rs1 rs2 : Reg) : Statement (.shift4 rd rs1 rs2) := fun _ =>
  ⟨opcodeTable[45]'(by decide), List.getElem_mem _, selects_of_mask (mask_layoutR _ _ _ _ _ _) (by decide),
    by show Instr.shift4 (rdOf _) (rs1Of _) (rs2Of _) = _; simp only [encode, rdOf_layoutR, rs1Of_layoutR, rs2Of_layoutR]⟩
theorem add2 (rd rs1 rs2 : Reg) : Statement (.add2 rd rs1 rs2) := fun _ =>
  ⟨opcodeTable[46]'(by decide), List.getElem_mem _, selects_of_mask (mask_layoutR _ _ _ _ _ _) (by decide),
    by show Instr.add2 (rdOf _) (rs1Of _) (rs2Of _) = _; simp only [encode, rdOf_layoutR, rs1Of_layoutR, rs2Of_layoutR]⟩
theorem sub2 (rd rs1 rs2 : Reg) : Statement (.sub2 rd rs1 rs2) := fun _ =>
  ⟨opcodeTable[47]'(by decide), List.getElem_mem _, selects_of_mask (mask_layoutR _ _ _ _ _ _) (by decide),
    by show Instr.sub2 (rdOf _) (rs1Of _) (rs2Of _) = _; simp only [encode, rdOf_layoutR, rs1Of_layoutR, rs2Of_layoutR]⟩
theorem mul2 (rd rs1 rs2 : Reg) : Statement (.mul2 rd rs1 rs2) := fun _ =>
  ⟨opcodeTable[48]'(by decide), List.getElem_mem _, selects_of_mask (mask_layoutR _ _ _ _ _ _) (by decide),
    by show Instr.mul2 (rdOf _) (rs1Of _) (rs2Of _) = _; simp only [encode, rdOf_layoutR, rs1Of_layoutR, rs2Of_layoutR]⟩
theorem sat (rd rs1 : Reg) : Statement (.sat rd rs1) := fun _ =>
  ⟨opcodeTable[49]'(by decide), List.getElem_mem _, selects_of_mask (mask_layoutR_rs2 _ _ _ _ _ _) (by decide),
    by show Instr.sat (rdOf _) (rs1Of _) = _; simp only [encode, rdOf_layoutR, rs1Of_layoutR]⟩
theorem clip (rd rs1 rs2 : Reg) : Statement (.clip rd rs1 rs2) := fun _ =>
  ⟨opcodeTable[50]'(by decide), List.getElem_mem _, selects_of_mask (mask_layoutR _ _ _ _ _ _) (by decide),
    by show Instr.clip (rdOf _) (rs1Of _) (rs2Of _) = _; simp only [encode, rdOf_layoutR, rs1Of_layoutR, rs2Of_layoutR]⟩
theorem round (rd rs1 : Reg) : Statement (.round rd rs1) := fun _ =>
  ⟨opcodeTable[51]'(by decide), List.getElem_mem _, selects_of_mask (mask_layoutR_rs2 _ _ _ _ _ _) (by decide),
    by show Instr.round (rdOf _) (rs1Of _) = _; simp only [encode, rdOf_layoutR, rs1Of_layoutR]⟩
theorem bitReverse (rd rs1 : Reg) : Statement (.bitReverse rd rs1) := fun _ =>
  ⟨opcodeTable[52]'(by decide), List.getElem_mem _, selects_of_mask (mask_layoutR_rs2 _ _ _ _ _ _) (by decide),
    by show Instr.bitReverse (rdOf _) (rs1Of _) = _; simp only [encode, rdOf_layoutR, rs1Of_layoutR]⟩
theorem circularAddr (rd rs1 rs2 : Reg) : Statement (.circularAddr rd rs1 rs2) := fun _ =>
  ⟨opcodeTable[53]'(by decide), List.getElem_mem _, selects_of_mask (mask_layoutR _ _ _ _ _ _) (by decide),
    by show Instr.circularAddr (rdOf _) (rs1Of _) (rs2Of _) = _; simp only [encode, rdOf_layoutR, rs1Of_layoutR, rs2Of_layoutR]⟩
theorem mret : Statement .mret := fun _ =>
  ⟨opcodeTable[54]'(by decide), List.getElem_mem _, by decide, rfl⟩

end Sys2Proof.Laws.EncodesToRow
end

