-- ==== Sys2Proof/Tests/Slice0.lean ====
section
/-! SUPPORT. Tests of the model: well-formedness, decoding of words written out from the spec's encodings, one-step results,
and a witness for the hypotheses of each statement. Words and results are those of 95_test_vectors.md; where another section
is the source, the test says so. -/

namespace Sys2Proof.Machine.Tests

/-! ## Helpers -/

/-- The state after reset on a platform `p` with the pc `pc`, the registers `rs` and the memory `m`. -/
def small (p : Params) (pc : Word) (rs : List (Reg × Word)) (m : Memory) : State :=
  rs.foldl (fun s x => s.writeReg x.1 x.2) (State.resetWith p pc m)

/-- The start of the single-instruction vectors: pc 0x100, every access valid. -/
def start (rs : List (Reg × Word)) : State := small specParams 0x100#32 rs []

/-- The start of the branch and jump vectors. -/
def startAt (pc : Word) (rs : List (Reg × Word)) : State := small specParams pc rs []

/-- The four bytes of 95_test_vectors.md section 1.1, at 0x1000. -/
def bytes4 : Memory := [(0x1000, 0x80#8), (0x1001, 0xFF#8), (0x1002, 0x7F#8), (0x1003, 0x00#8)]

/-- One step on the word `w`: the value of `r` and the pc afterwards. -/
def after (s : State) (w : Nat) (r : Reg) : Option (Word × Word) :=
  match step (s.withFetchWord 32 w) with
  | .next t => some (t.readReg r, t.pc)
  | _ => none

/-- One step on the word `w`: `mcause`, `mepc` and the pc afterwards. -/
def trapAfter (s : State) (w : Nat) : Option (Word × Word × Word) :=
  match step (s.withFetchWord 32 w) with
  | .next t => some (t.mcause, t.mepc, t.pc)
  | _ => none

/-- One step on the word `w`: the bytes at 0x1000 to 0x1003 afterwards. -/
def bytesAfter (s : State) (w : Nat) : List (Option Byte) :=
  match step (s.withFetchWord 32 w) with
  | .next t => (byteAddrs 0x1000#32 4).map t.mem.read
  | _ => []

/-- The outcome is a next state. -/
def isNext : Result → Bool
  | .next _ => true
  | _ => false

/-- What stops a step, if anything does. -/
def stopOf : Result → Option (Fault ⊕ Refusal)
  | .next _ => none
  | .fault f => some (.inl f)
  | .refused r => some (.inr r)

theorem next_of_isNext {o : Result} (h : isNext o = true) : ∃ t, o = .next t := by
  cases o with
  | next t => exact ⟨t, rfl⟩
  | fault f => cases h
  | refused r => cases h

/-- Another `ENC`: MAC and MACU with `rs3` at bits 29 to 25 and their function field above it, MACI with the two parts of
its immediate exchanged, SAT with `rs2` ignored. -/
def otherEnc : Enc where
  patterns := (((specEnc.patterns.set 36 ⟨0xC000707F#32, 0x0000005B#32⟩).set 38 ⟨0xC000707F#32, 0x4000005B#32⟩).set 49
    ⟨0xFE00707F#32, 0x1400002B#32⟩)
  rs3At    := 25
  maciImm  := [⟨12, 3⟩, ⟨25, 7⟩]

/-! ## Well-formedness: an ill-formed term for each check, and the ends of each range (30_encoding.md R69 to R74) -/

theorem test_illFormed_immI : ¬ WellFormed (.addi 1 2 2048#32) ∧ ¬ WellFormed (.addi 1 2 0xFFFFF7FF#32) := by decide
theorem test_illFormed_immI_load : ¬ WellFormed (.lw 1 2 2048#32) ∧ ¬ WellFormed (.jalr 1 2 0xFFFFF7FF#32) := by decide
theorem test_illFormed_immI_logical : ¬ WellFormed (.andi 1 2 0x00000FFF#32) ∧ ¬ WellFormed (.sltiu 1 2 2048#32) := by decide
theorem test_illFormed_immS : ¬ WellFormed (.sw 1 2 2048#32) ∧ ¬ WellFormed (.sb 1 2 0xFFFFF7FF#32) := by decide
theorem test_illFormed_immB_range : ¬ WellFormed (.beq 1 2 4096#32) ∧ ¬ WellFormed (.bgeu 1 2 0xFFFFEFFE#32) := by decide
theorem test_illFormed_immB_odd : ¬ WellFormed (.bne 1 2 3#32) := by decide
theorem test_illFormed_immJ_range : ¬ WellFormed (.jal 1 0x00100000#32) ∧ ¬ WellFormed (.jal 1 0xFFEFFFFE#32) := by decide
theorem test_illFormed_immJ_odd : ¬ WellFormed (.jal 1 1#32) := by decide
theorem test_illFormed_immI4 : ¬ WellFormed (.maci 1 2 3 512#32) ∧ ¬ WellFormed (.maci 1 2 3 0xFFFFFDFF#32) := by decide
theorem test_wellFormed_ends :
    WellFormed (.addi 1 2 2047#32) ∧ WellFormed (.addi 1 2 0xFFFFF800#32) ∧ WellFormed (.sw 1 2 2047#32) ∧
    WellFormed (.beq 1 2 4094#32) ∧ WellFormed (.beq 1 2 0xFFFFF000#32) ∧ WellFormed (.jal 1 0x000FFFFE#32) ∧
    WellFormed (.jal 1 0xFFF00000#32) ∧ WellFormed (.maci 1 2 3 511#32) ∧ WellFormed (.maci 1 2 3 0xFFFFFE00#32) := by
  decide

/-! ## Decoding: the words of 95_test_vectors.md section 1.1, every constructor -/

theorem test_decode_arithmetic :
    decode 0x003100B3#32 = .ok (.add 1 2 3) ∧ decode 0x403100B3#32 = .ok (.sub 1 2 3) ∧
    decode 0x06410093#32 = .ok (.addi 1 2 100#32) ∧ decode 0x0641008B#32 = .ok (.subi 1 2 100#32) := by decide
theorem test_decode_logical :
    decode 0x003170B3#32 = .ok (.and 1 2 3) ∧ decode 0x003160B3#32 = .ok (.or 1 2 3) ∧
    decode 0x003140B3#32 = .ok (.xor 1 2 3) ∧ decode 0x0FF17093#32 = .ok (.andi 1 2 0xFF#32) ∧
    decode 0x0FF16093#32 = .ok (.ori 1 2 0xFF#32) ∧ decode 0x0FF14093#32 = .ok (.xori 1 2 0xFF#32) := by decide
theorem test_decode_shift :
    decode 0x003110B3#32 = .ok (.sll 1 2 3) ∧ decode 0x003150B3#32 = .ok (.srl 1 2 3) ∧
    decode 0x403150B3#32 = .ok (.sra 1 2 3) ∧ decode 0x00411093#32 = .ok (.slli 1 2 4) ∧
    decode 0x00415093#32 = .ok (.srli 1 2 4) ∧ decode 0x40415093#32 = .ok (.srai 1 2 4) := by decide
theorem test_decode_comparison :
    decode 0x003120B3#32 = .ok (.slt 1 2 3) ∧ decode 0x003130B3#32 = .ok (.sltu 1 2 3) ∧
    decode 0x06412093#32 = .ok (.slti 1 2 100#32) ∧ decode 0x06413093#32 = .ok (.sltiu 1 2 100#32) := by decide
theorem test_decode_memory :
    decode 0x06410083#32 = .ok (.lb 1 2 100#32) ∧ decode 0x06411083#32 = .ok (.lh 1 2 100#32) ∧
    decode 0x06412083#32 = .ok (.lw 1 2 100#32) ∧ decode 0x06414083#32 = .ok (.lbu 1 2 100#32) ∧
    decode 0x06415083#32 = .ok (.lhu 1 2 100#32) ∧ decode 0x06110223#32 = .ok (.sb 2 1 100#32) ∧
    decode 0x06111223#32 = .ok (.sh 2 1 100#32) ∧ decode 0x06112223#32 = .ok (.sw 2 1 100#32) := by decide
theorem test_decode_branch :
    decode 0x00208463#32 = .ok (.beq 1 2 8#32) ∧ decode 0x00209463#32 = .ok (.bne 1 2 8#32) ∧
    decode 0x0020C463#32 = .ok (.blt 1 2 8#32) ∧ decode 0x0020D463#32 = .ok (.bge 1 2 8#32) ∧
    decode 0x0020E463#32 = .ok (.bltu 1 2 8#32) ∧ decode 0x0020F463#32 = .ok (.bgeu 1 2 8#32) := by decide
theorem test_decode_jump :
    decode 0x008000EF#32 = .ok (.jal 1 8#32) ∧ decode 0x064100E7#32 = .ok (.jalr 1 2 100#32) := by decide
theorem test_decode_mac :
    decode 0x203100DB#32 = .ok (.mac 1 2 3 4) ∧ decode 0x183140FB#32 = .ok (.maci 1 2 3 100#32) ∧
    decode 0x223100DB#32 = .ok (.macu 1 2 3 4) := by decide
theorem test_decode_simd :
    decode 0x003100AB#32 = .ok (.add4 1 2 3) ∧ decode 0x023100AB#32 = .ok (.sub4 1 2 3) ∧
    decode 0x043100AB#32 = .ok (.mul4 1 2 3) ∧ decode 0x063100AB#32 = .ok (.and4 1 2 3) ∧
    decode 0x083100AB#32 = .ok (.or4 1 2 3) ∧ decode 0x0A3100AB#32 = .ok (.xor4 1 2 3) ∧
    decode 0x0C3100AB#32 = .ok (.shift4 1 2 3) ∧ decode 0x0E3100AB#32 = .ok (.add2 1 2 3) ∧
    decode 0x103100AB#32 = .ok (.sub2 1 2 3) ∧ decode 0x123100AB#32 = .ok (.mul2 1 2 3) := by decide
theorem test_decode_dsp :
    decode 0x140100AB#32 = .ok (.sat 1 2) ∧ decode 0x163100AB#32 = .ok (.clip 1 2 3) ∧
    decode 0x180100AB#32 = .ok (.round 1 2) ∧ decode 0x1A0100AB#32 = .ok (.bitReverse 1 2) ∧
    decode 0x1C3100AB#32 = .ok (.circularAddr 1 2 3) := by decide
theorem test_decode_system :
    decode 0x30200073#32 = .ok (.mret) := by decide
/-- Negative and extreme immediates and register numbers, sections 2.5 to 2.8 and 2.12. -/
theorem test_decode_immediates :
    decode 0x80010093#32 = .ok (.addi 1 2 0xFFFFF800#32) ∧ decode 0xFE112E23#32 = .ok (.sw 2 1 0xFFFFFFFC#32) ∧
    decode 0xFE209CE3#32 = .ok (.bne 1 2 0xFFFFFFF8#32) ∧ decode 0x8020F063#32 = .ok (.bgeu 1 2 0xFFFFF000#32) ∧
    decode 0x7E20FFE3#32 = .ok (.bgeu 1 2 4094#32) ∧ decode 0xFFDFF0EF#32 = .ok (.jal 1 0xFFFFFFFC#32) ∧
    decode 0x7FFFF2EF#32 = .ok (.jal 5 1048574#32) ∧ decode 0x800FE0EF#32 = .ok (.jal 1 0xFFFFE000#32) ∧
    decode 0x803100FB#32 = .ok (.maci 1 2 3 0xFFFFFE00#32) ∧ decode 0x0DDF0FAB#32 = .ok (.shift4 31 30 29) := by decide

/-- Words that match no row, section 2.13: illegal, or of the class of 93_implementation_defined.md U6. -/
theorem test_decode_illegal :
    decode 0x00000000#32 = .error .illegal ∧ decode 0xFFFFFFFF#32 = .error .illegal ∧
    decode 0x0000100B#32 = .error .illegal ∧ decode 0x1E00002B#32 = .error .illegal ∧
    decode 0x1410072B#32 = .error .illegal ∧ decode 0x0400005B#32 = .error .illegal ∧
    decode 0x40001013#32 = .error .illegal ∧ decode 0x302000F3#32 = .error .illegal := by decide
theorem test_decode_unlisted :
    decode 0x123450B7#32 = .error (.unlisted .lui) ∧ decode 0x00000017#32 = .error (.unlisted .auipc) ∧
    decode 0x0000000F#32 = .error (.unlisted .fence) ∧ decode 0x00000073#32 = .error (.unlisted .ecall) ∧
    decode 0x00100073#32 = .error (.unlisted .ebreak) ∧ decode 0x10500073#32 = .error (.unlisted .wfi) ∧
    decode 0x342022F3#32 = .error (.unlisted .csr) ∧ decode 0x022080B3#32 = .error (.unlisted .mulDiv) ∧
    decode 0x00002000#32 = .error (.unlisted .compressed) := by decide
/-- The first word of the table read as the host numbers it, and the same bits with fewer of them given. -/
theorem test_decodeTableWord :
    decodeTableWord 32 0x003100B3 = some (.add 1 2 3) ∧ decodeTableWord 16 0x003100B3 = some (.add 1 0 0) ∧
    decodeTableWord 32 0 = none := by decide

/-! ## One step of each instruction: results of 95_test_vectors.md sections 2.1 to 2.11 -/

theorem test_add :
    after (start [(2, 0xFFFFFFFF#32), (3, 0x00000001#32)]) 0x003100B3 1 = some (0x00000000#32, 0x00000104#32) ∧
    after (start [(5, 0x80000000#32)]) 0x005282B3 5 = some (0x00000000#32, 0x00000104#32) := by
  decide
theorem test_sub :
    after (start [(2, 0x00000000#32), (3, 0x00000001#32)]) 0x403100B3 1 = some (0xFFFFFFFF#32, 0x00000104#32) ∧
    after (start [(2, 0x00000003#32), (3, 0x0000000A#32)]) 0x403100B3 1 = some (0xFFFFFFF9#32, 0x00000104#32) := by
  decide
theorem test_addi :
    after (start [(2, 0x00000000#32)]) 0x80010093 1 = some (0xFFFFF800#32, 0x00000104#32) ∧
    after (start [(2, 0x00000001#32)]) 0x7FF10093 1 = some (0x00000800#32, 0x00000104#32) := by
  decide
theorem test_subi :
    after (start [(2, 0x00000000#32)]) 0x8001008B 1 = some (0x00000800#32, 0x00000104#32) ∧
    after (start [(2, 0x00000032#32)]) 0x0641008B 1 = some (0xFFFFFFCE#32, 0x00000104#32) := by
  decide
theorem test_and :
    after (start [(2, 0xFF00FF00#32), (3, 0x0FF00FF0#32)]) 0x003170B3 1 = some (0x0F000F00#32, 0x00000104#32) := by
  decide
theorem test_or :
    after (start [(2, 0xFF00FF00#32), (3, 0x0FF00FF0#32)]) 0x003160B3 1 = some (0xFFF0FFF0#32, 0x00000104#32) := by
  decide
theorem test_xor :
    after (start [(2, 0xFF00FF00#32), (3, 0x0FF00FF0#32)]) 0x003140B3 1 = some (0xF0F0F0F0#32, 0x00000104#32) := by
  decide
theorem test_andi :
    after (start [(2, 0x12345678#32)]) 0xF0017093 1 = some (0x12345600#32, 0x00000104#32) ∧
    after (start [(2, 0x12345678#32)]) 0x0FF17093 1 = some (0x00000078#32, 0x00000104#32) := by
  decide
theorem test_ori :
    after (start [(2, 0x00000001#32)]) 0x80016093 1 = some (0xFFFFF801#32, 0x00000104#32) := by
  decide
theorem test_xori :
    after (start [(2, 0x12345678#32)]) 0xFFF14093 1 = some (0xEDCBA987#32, 0x00000104#32) := by
  decide
theorem test_sll :
    after (start [(2, 0x80000001#32), (3, 0x00000021#32)]) 0x003110B3 1 = some (0x00000002#32, 0x00000104#32) ∧
    after (start [(2, 0x00000003#32)]) 0x00211133 2 = some (0x00000018#32, 0x00000104#32) := by
  decide
theorem test_srl :
    after (start [(2, 0x80000000#32), (3, 0xFFFFFFE4#32)]) 0x003150B3 1 = some (0x08000000#32, 0x00000104#32) := by
  decide
theorem test_sra :
    after (start [(2, 0xF0000000#32), (3, 0x00000004#32)]) 0x403150B3 1 = some (0xFF000000#32, 0x00000104#32) ∧
    after (start [(2, 0x80000000#32), (3, 0x0000001F#32)]) 0x403150B3 1 = some (0xFFFFFFFF#32, 0x00000104#32) := by
  decide
theorem test_slli :
    after (start [(2, 0x00000003#32)]) 0x01F11093 1 = some (0x80000000#32, 0x00000104#32) := by
  decide
theorem test_srli :
    after (start [(2, 0x87654321#32)]) 0x00415093 1 = some (0x08765432#32, 0x00000104#32) := by
  decide
theorem test_srai :
    after (start [(2, 0x87654321#32)]) 0x40415093 1 = some (0xF8765432#32, 0x00000104#32) := by
  decide
theorem test_slt :
    after (start [(2, 0xFFFFFFFF#32), (3, 0x00000000#32)]) 0x003120B3 1 = some (0x00000001#32, 0x00000104#32) ∧
    after (start [(2, 0x00000005#32), (3, 0x00000005#32)]) 0x003120B3 1 = some (0x00000000#32, 0x00000104#32) := by
  decide
theorem test_sltu :
    after (start [(2, 0xFFFFFFFF#32), (3, 0x00000000#32)]) 0x003130B3 1 = some (0x00000000#32, 0x00000104#32) ∧
    after (start [(2, 0x00000000#32), (3, 0xFFFFFFFF#32)]) 0x003130B3 1 = some (0x00000001#32, 0x00000104#32) := by
  decide
theorem test_slti :
    after (start [(2, 0xFFFFFFFE#32)]) 0xFFF12093 1 = some (0x00000001#32, 0x00000104#32) ∧
    after (start [(2, 0x00000064#32)]) 0x06412093 1 = some (0x00000000#32, 0x00000104#32) := by
  decide
theorem test_sltiu :
    after (start [(2, 0xFFFFFFFE#32)]) 0xFFF13093 1 = some (0x00000001#32, 0x00000104#32) ∧
    after (start [(2, 0xFFFFFFFF#32)]) 0x06413093 1 = some (0x00000000#32, 0x00000104#32) := by
  decide
theorem test_beq :
    after (startAt 0x00002000#32 [(1, 0x00000005#32), (2, 0x00000005#32)]) 0x00208463 0 =
      some (0x00000000#32, 0x00002008#32) ∧
    after (startAt 0x00002000#32 [(1, 0x00000005#32), (2, 0x00000006#32)]) 0x00208463 0 =
      some (0x00000000#32, 0x00002004#32) := by
  decide
theorem test_bne :
    after (startAt 0x00002000#32 [(1, 0x00000005#32), (2, 0x00000006#32)]) 0xFE209CE3 0 =
      some (0x00000000#32, 0x00001FF8#32) ∧
    after (startAt 0x00002000#32 [(1, 0x00000005#32), (2, 0x00000005#32)]) 0xFE209CE3 0 =
      some (0x00000000#32, 0x00002004#32) := by
  decide
theorem test_blt :
    after (startAt 0x00002000#32 [(1, 0xFFFFFFFF#32), (2, 0x00000000#32)]) 0x0020C863 0 =
      some (0x00000000#32, 0x00002010#32) ∧
    after (startAt 0x00002000#32 [(1, 0x00000000#32), (2, 0xFFFFFFFF#32)]) 0x0020C863 0 =
      some (0x00000000#32, 0x00002004#32) := by
  decide
theorem test_bge :
    after (startAt 0x00002000#32 [(1, 0x80000000#32), (2, 0x00000000#32)]) 0xFE20D8E3 0 =
      some (0x00000000#32, 0x00002004#32) ∧
    after (startAt 0x00002000#32 [(1, 0x00000007#32), (2, 0x00000007#32)]) 0xFE20D8E3 0 =
      some (0x00000000#32, 0x00001FF0#32) := by
  decide
theorem test_bltu :
    after (startAt 0x00002000#32 [(1, 0x00000000#32), (2, 0xFFFFFFFF#32)]) 0x0020E0E3 0 =
      some (0x00000000#32, 0x00002800#32) ∧
    after (startAt 0x00002000#32 [(1, 0xFFFFFFFF#32), (2, 0x00000000#32)]) 0x0020E0E3 0 =
      some (0x00000000#32, 0x00002004#32) := by
  decide
theorem test_bgeu :
    after (startAt 0x00002000#32 [(1, 0xFFFFFFFF#32), (2, 0x00000000#32)]) 0x8020F063 0 =
      some (0x00000000#32, 0x00001000#32) ∧
    after (startAt 0x00002000#32 [(1, 0x00000003#32), (2, 0x00000003#32)]) 0x7E20FFE3 0 =
      some (0x00000000#32, 0x00002FFE#32) := by
  decide
theorem test_jal :
    after (startAt 0x00002000#32 []) 0xFFDFF0EF 1 = some (0x00002004#32, 0x00001FFC#32) ∧
    after (startAt 0x00001000#32 []) 0x800FE0EF 1 = some (0x00001004#32, 0xFFFFF000#32) := by
  decide
theorem test_jalr :
    after (startAt 0x00002000#32 [(2, 0x00003001#32)]) 0x064100E7 1 = some (0x00002004#32, 0x00003064#32) ∧
    after (startAt 0x00002000#32 [(1, 0x00004000#32)]) 0x000080E7 1 = some (0x00002004#32, 0x00004000#32) := by
  decide
theorem test_mac :
    after (start [(2, 0x00010000#32), (3, 0x00008000#32), (4, 0xFFFFFFFF#32)]) 0x203100DB 1 =
      some (0x7FFFFFFF#32, 0x00000104#32) ∧
    trapAfter (start [(2, 0x80000000#32), (3, 0xFFFFFFFF#32), (4, 0x00000000#32)]) 0x203100DB =
      some (24#32, 0x100#32, 0#32) := by
  decide
theorem test_macu :
    after (start [(2, 0x00010000#32), (3, 0x0000FFFF#32), (4, 0x0000FFFF#32)]) 0x223100DB 1 =
      some (0xFFFFFFFF#32, 0x00000104#32) ∧
    trapAfter (start [(2, 0xFFFFFFFF#32), (3, 0x00000001#32), (4, 0x00000001#32)]) 0x223100DB =
      some (24#32, 0x100#32, 0#32) := by
  decide
theorem test_maci :
    after (start [(2, 0xFFFFFFFF#32), (3, 0xFFFFFFFF#32)]) 0x003100FB 1 = some (0x00000001#32, 0x00000104#32) ∧
    trapAfter (start [(2, 0x7FFFFFFF#32), (3, 0x00000001#32)]) 0x003110FB =
      some (24#32, 0x100#32, 0#32) := by
  decide
theorem test_add4 :
    after (start [(2, 0x01020304#32), (3, 0x10203040#32)]) 0x003100AB 1 = some (0x11223344#32, 0x00000104#32) ∧
    trapAfter (start [(2, 0x000000FF#32), (3, 0x00000001#32)]) 0x003100AB =
      some (24#32, 0x100#32, 0#32) := by
  decide
theorem test_sub4 :
    after (start [(2, 0x11223344#32), (3, 0x01020304#32)]) 0x023100AB 1 = some (0x10203040#32, 0x00000104#32) ∧
    trapAfter (start [(2, 0x00000080#32), (3, 0x00000001#32)]) 0x023100AB =
      some (24#32, 0x100#32, 0#32) := by
  decide
theorem test_mul4 :
    after (start [(2, 0x02030405#32), (3, 0x03030303#32)]) 0x043100AB 1 = some (0x06090C0F#32, 0x00000104#32) ∧
    trapAfter (start [(2, 0x00000010#32), (3, 0x00000010#32)]) 0x043100AB =
      some (24#32, 0x100#32, 0#32) := by
  decide
theorem test_and4 :
    after (start [(2, 0xF0F0F0F0#32), (3, 0x0FF00FF0#32)]) 0x063100AB 1 = some (0x00F000F0#32, 0x00000104#32) := by
  decide
theorem test_or4 :
    after (start [(2, 0xF0F0F0F0#32), (3, 0x0FF00FF0#32)]) 0x083100AB 1 = some (0xFFF0FFF0#32, 0x00000104#32) := by
  decide
theorem test_xor4 :
    after (start [(2, 0xF0F0F0F0#32), (3, 0x0FF00FF0#32)]) 0x0A3100AB 1 = some (0xFF00FF00#32, 0x00000104#32) := by
  decide
theorem test_add2 :
    after (start [(2, 0x7FFE0000#32), (3, 0x00010000#32)]) 0x0E3100AB 1 = some (0x7FFF0000#32, 0x00000104#32) ∧
    trapAfter (start [(2, 0x0000FFFF#32), (3, 0x00000001#32)]) 0x0E3100AB =
      some (24#32, 0x100#32, 0#32) := by
  decide
theorem test_sub2 :
    after (start [(2, 0x00050006#32), (3, 0x00010002#32)]) 0x103100AB 1 = some (0x00040004#32, 0x00000104#32) ∧
    trapAfter (start [(2, 0x00008000#32), (3, 0x00000001#32)]) 0x103100AB =
      some (24#32, 0x100#32, 0#32) := by
  decide
theorem test_mul2 :
    after (start [(2, 0x00030004#32), (3, 0x00050006#32)]) 0x123100AB 1 = some (0x000F0018#32, 0x00000104#32) ∧
    trapAfter (start [(2, 0x00000100#32), (3, 0x00000100#32)]) 0x123100AB =
      some (24#32, 0x100#32, 0#32) := by
  decide
theorem test_sat :
    after (start [(2, 0xFFFF0000#32)]) 0x140100AB 1 = some (0xFFFF8000#32, 0x00000104#32) ∧
    after (start [(2, 0x00008000#32)]) 0x140100AB 1 = some (0x00007FFF#32, 0x00000104#32) := by
  decide
set_option maxRecDepth 2000 in
theorem test_bitReverse :
    after (start [(2, 0x12345678#32)]) 0x1A0100AB 1 = some (0x1E6A2C48#32, 0x00000104#32) ∧
    after (start [(2, 0x00000006#32)]) 0x1A0100AB 1 = some (0x60000000#32, 0x00000104#32) := by
  decide

/-- The loads of section 1.1: the word at 0x1000 is 0x007FFF80. -/
theorem test_lb : after (small specParams 0x100#32 [(2, 0xF9C#32)] bytes4) 0x06410083 1 = some (0xFFFFFF80#32, 0x104#32) := by
  decide
theorem test_lh : after (small specParams 0x100#32 [(2, 0xF9C#32)] bytes4) 0x06411083 1 = some (0xFFFFFF80#32, 0x104#32) := by
  decide
theorem test_lw : after (small specParams 0x100#32 [(2, 0xF9C#32)] bytes4) 0x06412083 1 = some (0x007FFF80#32, 0x104#32) := by
  decide
theorem test_lbu : after (small specParams 0x100#32 [(2, 0xF9C#32)] bytes4) 0x06414083 1 = some (0x00000080#32, 0x104#32) := by
  decide
theorem test_lhu : after (small specParams 0x100#32 [(2, 0xF9C#32)] bytes4) 0x06415083 1 = some (0x0000FF80#32, 0x104#32) := by
  decide
/-- The stores of section 1.1, with x1 = 0xA1B2C3D4. -/
theorem test_sb : bytesAfter (small specParams 0x100#32 [(1, 0xA1B2C3D4#32), (2, 0xF9C#32)] bytes4) 0x06110223 =
    [some 0xD4#8, some 0xFF#8, some 0x7F#8, some 0x00#8] := by decide
theorem test_sh : bytesAfter (small specParams 0x100#32 [(1, 0xA1B2C3D4#32), (2, 0xF9C#32)] bytes4) 0x06111223 =
    [some 0xD4#8, some 0xC3#8, some 0x7F#8, some 0x00#8] := by decide
theorem test_sw : bytesAfter (small specParams 0x100#32 [(1, 0xA1B2C3D4#32), (2, 0xF9C#32)] bytes4) 0x06112223 =
    [some 0xD4#8, some 0xC3#8, some 0xB2#8, some 0xA1#8] := by decide
/-- Section 2.5: the two misaligned rows. -/
theorem test_misaligned_data :
    stopOf (step ((start [(2, 0x1000#32)]).withFetchWord 32 0x00111083)) = some (.inr (.misalignedData 0x1001#32)) ∧
    stopOf (step ((start [(2, 0x1000#32)]).withFetchWord 32 0x00112323)) = some (.inr (.misalignedData 0x1006#32)) := by
  decide
/-- Section 2.12: the open instructions complete whatever their functions are; the statements give their values. -/
theorem test_shift4_runs (s : State) : isNext (exec (.shift4 1 2 3) s) = true := rfl
theorem test_clip_runs (s : State) : isNext (exec (.clip 1 2 3) s) = true := rfl
theorem test_round_runs (s : State) : isNext (exec (.round 1 2) s) = true := rfl
theorem test_circularAddr_runs (s : State) : isNext (exec (.circularAddr 1 2 3) s) = true := rfl
/-- Section 2.13: MRET with `mepc` = 0x10C. -/
theorem test_mret :
    trapAfter { start [] with mepc := 0x10C#32, mcause := 24#32 } 0x30200073 = some (24#32, 0x10C#32, 0x10C#32) := by decide
/-- Section 2.13: the all-zero word raises Illegal Instruction; LUI's word is refused. -/
theorem test_illegal_word :
    trapAfter (start []) 0x00000000 = some (2#32, 0x100#32, 0#32) ∧
    stopOf (step ((start []).withFetchWord 32 0x123450B7)) = some (.inr (.unlistedWord .lui)) := by decide
/-- Section 2.13: a pc of 0x102 is refused. -/
theorem test_misaligned_fetch :
    stopOf (step (small specParams 0x102#32 [] [])) = some (.inr (.misalignedFetch 0x102#32)) := by decide

/-! ## Witnesses: states and operands that meet the hypotheses of each statement -/

/-- A platform that allows no access at all. -/
def nothingValid : Params := { specParams with windows := [] }

/-- `ADD x1, x2, x3` at the pc 0x100, in memory and in the image. -/
def addAt : Memory := [(0x100, 0xB3#8), (0x101, 0x00#8), (0x102, 0x31#8), (0x103, 0x00#8)]

/-- A state whose next step is an ADD. -/
def addState (p : Params) : State := small p 0x100#32 [] addAt

theorem test_addState_steps : ∃ t, step (addState specParams) = .next t := next_of_isNext (by decide)

theorem test_witness_DecodeEncodeRoundTrip : WellFormed (.addi 1 2 2047#32) ∧ WellFormed (.jal 1 0xFFF00000#32) := by decide

theorem test_witness_EncodeDecodeRoundTrip : decode 0x803100FB#32 = .ok (.maci 1 2 3 0xFFFFFE00#32) := by decide

/-- Each mask and pattern that a `Selects` clause names is a row's, and each row selects its own pattern. -/
theorem test_witness_EveryEncodingRoundTrips :
    specEnc.wf = true ∧ specEnc.exact = true ∧ otherEnc.wf = true ∧ otherEnc.exact = false := by decide

/-- The words that the layouts and patterns of `otherEnc` give by hand; in the spec's encoding they are other words. -/
theorem test_otherEnc_decode :
    otherEnc.decode 0x083100DB#32 = .ok (.mac 1 2 3 4) ∧ otherEnc.decode 0x483100DB#32 = .ok (.macu 1 2 3 4) ∧
    otherEnc.decode 0x023140FB#32 = .ok (.maci 1 2 3 0xFFFFFE01#32) ∧ otherEnc.decode 0x1451072B#32 = .ok (.sat 14 2) ∧
    otherEnc.encode (.mac 1 2 3 4) = 0x083100DB#32 ∧ otherEnc.encode (.maci 1 2 3 0xFFFFFE01#32) = 0x023140FB#32 ∧
    decode 0x083100DB#32 = .ok (.mac 1 2 3 1) ∧ decode 0x1451072B#32 = .error .illegal := by decide

/-- A step decodes by the `ENC` of its platform. -/
theorem test_otherEnc_step :
    after (small { specParams with enc := otherEnc } 0x100#32 [(2, 5#32), (3, 7#32), (4, 9#32)] []) 0x083100DB 1 =
      some (44#32, 0x104#32) := by decide

theorem test_witness_Selects : ∀ r ∈ opcodeTable, r.pattern &&& r.mask = r.pattern := by decide

/-- The two clauses of ShiftResults on illegal words. -/
theorem test_witness_ShiftResults :
    0x40001013#32 &&& 0x0000707F#32 = 0x00001013#32 ∧ (0x40001013#32).extractLsb' 25 7 ≠ 0b0000000#7 ∧
    0x80005013#32 &&& 0x0000707F#32 = 0x00005013#32 ∧ (0x80005013#32).extractLsb' 25 7 ≠ 0b0000000#7 ∧
    (0x80005013#32).extractLsb' 25 7 ≠ 0b0100000#7 := by decide

theorem test_witness_OpcodeTableIsUnambiguous : ∀ r ∈ opcodeTable, 0x0000100B#32 &&& r.mask ≠ r.pattern := by decide

theorem test_witness_UnmatchedWordTrapsOrIsRefused_illegal :
    (start [] |>.withFetchWord 32 0x0000100B).fetch = .word 0x0000100B#32 ∧ ¬ IsU6 0x0000100B#32 := by
  refine ⟨by decide, ?_⟩
  unfold IsU6
  decide

theorem test_witness_UnmatchedWordTrapsOrIsRefused_unlisted :
    (start [] |>.withFetchWord 32 0x123450B7).fetch = .word 0x123450B7#32 ∧
    (∀ r ∈ opcodeTable, 0x123450B7#32 &&& r.mask ≠ r.pattern) ∧ IsU6 0x123450B7#32 ∧
    (start []).params.unlistedWords = .refuse ∧
    (small { specParams with unlistedWords := .trap } 0x100#32 [] [] |>.withFetchWord 32 0x123450B7).fetch =
      .word 0x123450B7#32 := by
  refine ⟨by decide, by decide, ?_, by decide, by decide⟩
  unfold IsU6
  decide

theorem test_witness_UnmatchedWordTrapsOrIsRefused_zero_ones :
    (start []).params.enc = specEnc ∧
    (start [] |>.withFetchWord 32 0).fetch = .word 0x00000000#32 ∧
    (start [] |>.withFetchWord 32 0xFFFFFFFF).fetch = .word 0xFFFFFFFF#32 := by decide

theorem test_witness_UnlistedClassIsExact : IsU6 0x00000001#32 ∧ IsU6 0x00000073#32 := by
  unfold IsU6
  decide

theorem test_witness_StepRunsDecodedInstruction_unset :
    let s := addState specParams
    s.pc.toNat % 4 = 0 ∧ validAccess s.params .fetch s.pc = true ∧ FetchSees s s.pc 0x003100B3#32 ∧
    s.params.enc.decode 0x003100B3#32 = .ok (.add 1 2 3) :=
  ⟨by decide, by decide, ⟨by decide, by decide⟩, by decide⟩

theorem test_witness_StepRunsDecodedInstruction_sees :
    let s := { addState { specParams with fetchCoherence := .sees } with stored := [0x100] }
    validAccess s.params .fetch s.pc = true ∧ FetchSees s s.pc 0x003100B3#32 :=
  ⟨by decide, show _ = _ by decide⟩

theorem test_witness_StepRunsDecodedInstruction_seesNot :
    let s := { addState { specParams with fetchCoherence := .seesNot } with mem := [], stored := [0x100] }
    validAccess s.params .fetch s.pc = true ∧ FetchSees s s.pc 0x003100B3#32 :=
  ⟨by decide, show _ = _ by decide⟩

/-- `State.reset`, whose memory lists nothing; and the last byte of a word missing under the other two settings. -/
theorem test_witness_UnwrittenFetchFaults :
    (State.reset.pc.toNat % 4 = 0 ∧ validAccess State.reset.params .fetch State.reset.pc = true ∧
      FetchLacks State.reset State.reset.pc) ∧
    FetchLacks (small { specParams with fetchCoherence := .sees } 0x1000#32 [] (bytes4.take 3)) 0x1000#32 ∧
    FetchLacks (small { specParams with fetchCoherence := .seesNot } 0x1000#32 [] (bytes4.take 3)) 0x1000#32 :=
  ⟨⟨by decide, by decide, ⟨0x100, by decide, rfl⟩, by decide⟩, ⟨0x1003, by decide, rfl⟩, ⟨0x1003, by decide, rfl⟩⟩

/-- The spec's `ENC` at `State.reset`, and another one. -/
theorem test_witness_PlacedWordRunsNext :
    State.reset.params.enc.wf = true ∧ State.reset.params.enc.holds (.maci 1 2 3 511#32) = true ∧
    State.reset.pc.toNat % 4 = 0 ∧ validAccess State.reset.params .fetch State.reset.pc = true ∧
    otherEnc.wf = true ∧ otherEnc.holds (.mac 1 2 3 4) = true := by decide

theorem test_witness_MisalignedFetchRefusedAtNextStep_state :
    let s := small specParams 0x102#32 [] []
    s.params.misalignedFetch = .refuse ∧ s.pc.toNat % 4 ≠ 0 := by decide

/-- The second clause at a BEQ with the offset 2, the third at a JAL, the fourth at a JALR whose sum is odd. -/
theorem test_witness_MisalignedFetchRefusedAtNextStep_jump :
    let s := start [(2, 0x3003#32)]
    s.params.misalignedFetch = .refuse ∧ (∃ t, exec (.beq 0 0 2#32) s = .next t ∧ t.pc.toNat % 4 ≠ 0) ∧
    (s.pc + 2#32).toNat % 4 ≠ 0 ∧ ((s.readReg 2 + 0#32) &&& 0xFFFFFFFE#32).toNat % 4 ≠ 0 :=
  ⟨by decide, ⟨_, rfl, by decide⟩, by decide, by decide⟩

theorem test_witness_MisalignedFetchParameter_trap :
    let s := small { specParams with misalignedFetch := .trap } 0x101#32 [] []
    s.params.misalignedFetch = .trap ∧ s.pc.toNat % 4 ≠ 0 := by decide

/-- A platform that ignores the low bits of the pc, with a setting of `IFETCH_SEES_STORES`. -/
def lowBitsIgnored (c : FetchCoherence) : Params := { specParams with misalignedFetch := .ignoreLowBits, fetchCoherence := c }

/-- The pc 0x103, the ADD at 0x100: a word seen under each setting; a stored-to byte in it under the setting unset. -/
theorem test_witness_MisalignedFetchParameter_ignoreLowBits :
    0x100#32 = 0x103#32 &&& 0xFFFFFFFC#32 ∧ (∀ c, validAccess (lowBitsIgnored c) .fetch 0x100#32 = true) ∧
    (∀ c, FetchSees (small (lowBitsIgnored c) 0x103#32 [] addAt) 0x100#32 0x003100B3#32) ∧
    decode 0x003100B3#32 = .ok (.add 1 2 3) ∧ 0x103 ∈ byteAddrs 0x100#32 4 := by
  refine ⟨by decide, fun c => by cases c <;> decide, fun c => ?_, by decide, by decide⟩
  cases c with
  | unset => exact ⟨by decide, by decide⟩
  | sees => exact show _ = _ by decide
  | seesNot => exact show _ = _ by decide

/-- The same pc in a state in which a byte of the word counts as stored to. -/
theorem test_witness_MisalignedFetchParameter_stored :
    let s := { small (lowBitsIgnored .unset) 0x103#32 [] addAt with stored := [0x103] }
    s.params.misalignedFetch = .ignoreLowBits ∧ s.params.fetchCoherence = .unset ∧ 0x103 ∈ byteAddrs 0x100#32 4 ∧
    0x103 ∈ s.stored := by decide

/-- The same pc where the platform allows nothing, and where no byte holds a value. -/
theorem test_witness_MisalignedFetchParameter_stops :
    validAccess { lowBitsIgnored .unset with windows := [] } .fetch 0x100#32 = false ∧
    FetchLacks (small (lowBitsIgnored .unset) 0x103#32 [] []) 0x100#32 :=
  ⟨by decide, ⟨0x100, by decide, rfl⟩, by decide⟩

theorem test_witness_InvalidFetchTraps :
    (addState nothingValid).pc.toNat % 4 = 0 ∧
    validAccess (addState nothingValid).params .fetch (addState nothingValid).pc = false := by decide

theorem test_witness_FetchOfStoredByteRefused :
    let s := { addState specParams with stored := [0x103] }
    s.params.fetchCoherence = .unset ∧ s.pc.toNat % 4 = 0 ∧ validAccess s.params .fetch s.pc = true ∧
    0x103 ∈ byteAddrs s.pc 4 ∧ 0x103 ∈ s.stored := by decide

/-- An SW over the next instruction, and a step in a state in which a byte counts as stored to. -/
theorem test_witness_FetchOfStoredByteRefused_store :
    let s := start [(1, 0x104#32)]
    s.params.fetchCoherence = .unset ∧ (s.pc + 4#32).toNat % 4 = 0 ∧
    validAccess s.params .fetch (s.pc + 4#32) = true ∧ s.readReg 1 + 0#32 = s.pc + 4#32 ∧
    validAccess s.params (.store .word) (s.pc + 4#32) = true ∧
    isNext (step { addState specParams with stored := [0x200] }) = true := by decide

theorem test_witness_OnlyTrapsWriteTrapRegisters : ∃ t, step (addState specParams) = .next t := test_addState_steps

theorem test_witness_TrapRegistersReadOnlyByMret : Instr.add 1 2 3 ≠ .mret := by decide

theorem test_witness_FetchFaultLoopsForEver_fetch : InFetchFaultLoop (small nothingValid 0#32 [] []) := ⟨rfl, by decide⟩

theorem test_witness_FetchFaultLoopsForEver_illegal :
    let s := (small specParams 0#32 [] []).withFetchWord 32 0
    s.pc = 0x00000000#32 ∧ s.fetch = .word 0#32 ∧ s.params.enc.decode 0#32 = .error .illegal := by decide

theorem test_witness_FetchFaultLoopsForEver_unlisted :
    let s := (small { specParams with unlistedWords := .trap } 0#32 [] []).withFetchWord 32 0x00000073
    s.pc = 0x00000000#32 ∧ s.fetch = .word 0x00000073#32 ∧
    s.params.enc.decode 0x00000073#32 = .error (.unlisted .ecall) ∧ s.params.unlistedWords = .trap := by decide

theorem test_witness_MepcStaysAligned :
    (addState specParams).MepcAligned ∧ ∃ t, step (addState specParams) = .next t := ⟨by decide, test_addState_steps⟩

theorem test_witness_MemoryStaysCanonical :
    (addState specParams).Canonical ∧ ∃ t, step (addState specParams) = .next t := ⟨by decide, test_addState_steps⟩

theorem test_witness_UnstoredBytesKeepImage :
    (addState specParams).UnstoredAsImage ∧ ∃ t, step (addState specParams) = .next t :=
  ⟨fun _ _ => rfl, test_addState_steps⟩

theorem test_witness_InvariantsHoldAtReset : Memory.wf addAt := by decide

theorem test_witness_ParametersNeverChange : ∃ t, step (addState specParams) = .next t := test_addState_steps

theorem test_not_store_add : ¬ IsStore (.add 1 2 3) := by
  rintro ⟨_, _, _, h | h | h⟩ <;> cases h

theorem test_not_load_add : ¬ IsLoad (.add 1 2 3) := by
  rintro ⟨_, _, _, h | h | h | h | h⟩ <;> cases h

theorem test_not_mayOverflow_add : ¬ MayOverflow (.add 1 2 3) := by
  rintro ⟨_, _, _, _, _, h | h | h | h | h | h | h | h | h | h⟩ <;> cases h

theorem test_witness_OnlyStoresChangeMemory :
    ¬ IsStore (.add 1 2 3) ∧ ∃ t, exec (.add 1 2 3) State.reset = .next t := ⟨test_not_store_add, _, rfl⟩

theorem test_witness_OnlyDestinationRegisterChanges :
    (∃ t, exec (.add 1 2 3) State.reset = .next t) ∧ destOf (.add 1 2 3) ≠ some 2 := ⟨⟨_, rfl⟩, by decide⟩

theorem test_witness_PlainInstructionsNeverTrap :
    ¬ IsLoad (.add 1 2 3) ∧ ¬ IsStore (.add 1 2 3) ∧ ¬ MayOverflow (.add 1 2 3) ∧
    ∃ t, exec (.add 1 2 3) State.reset = .next t :=
  ⟨test_not_load_add, test_not_store_add, test_not_mayOverflow_add, _, rfl⟩

/-- The last word of the address space. -/
theorem test_witness_LittleEndianLayout :
    let m : Memory := [(0xFFFFFFFC, 0xEF#8), (0xFFFFFFFD, 0xBE#8), (0xFFFFFFFE, 0xAD#8), (0xFFFFFFFF, 0xDE#8)]
    let a := 0xFFFFFFFC#32
    m.read a.toNat = some 0xEF#8 ∧ m.read (a + 1#32).toNat = some 0xBE#8 ∧ m.read (a + 2#32).toNat = some 0xAD#8 ∧
    m.read (a + 3#32).toNat = some 0xDE#8 ∧ 0 ∉ byteAddrs a 4 ∧ m.readLE .word a = some 0xDEADBEEF#32 := by decide

/-- Each width at its last address: 0xFFFFFFFF, 0xFFFFFFFE, 0xFFFFFFFC. -/
theorem test_witness_LoadReturnsLatestStore :
    let s := start [(2, 0xFFFFFFFF#32)]
    (validAccess s.params (.store .byte) (s.readReg 2 + 0#32) = true ∧
      validAccess s.params (.load .byte) (s.readReg 2 + 0#32) = true) ∧
    ((s.readReg 2 + 0xFFFFFFFF#32).toNat % 2 = 0 ∧
      validAccess s.params (.store .half) (s.readReg 2 + 0xFFFFFFFF#32) = true ∧
      validAccess s.params (.load .half) (s.readReg 2 + 0xFFFFFFFF#32) = true) ∧
    (s.readReg 2 + 0xFFFFFFFD#32).toNat % 4 = 0 ∧
      validAccess s.params (.store .word) (s.readReg 2 + 0xFFFFFFFD#32) = true ∧
      validAccess s.params (.load .word) (s.readReg 2 + 0xFFFFFFFD#32) = true := by decide

/-- The completing clause of a load, at each width, with the bytes of section 1.1. -/
theorem test_witness_LoadResults_completes :
    let s := small specParams 0x100#32 [(2, 0x1000#32)] bytes4
    (s.readReg 2 + 0#32).toNat % 4 = 0 ∧ validAccess s.params (.load .word) (s.readReg 2 + 0#32) = true ∧
    s.mem.readLE .word (s.readReg 2 + 0#32) = some 0x007FFF80#32 ∧
    (s.readReg 2 + 2#32).toNat % 2 = 0 ∧ validAccess s.params (.load .half) (s.readReg 2 + 2#32) = true ∧
    s.mem.readLE .half (s.readReg 2 + 2#32) = some 0x0000007F#32 ∧
    (s.readReg 2 + 3#32).toNat % 1 = 0 ∧ validAccess s.params (.load .byte) (s.readReg 2 + 3#32) = true ∧
    s.mem.readLE .byte (s.readReg 2 + 3#32) = some 0x00000000#32 := by decide

/-- Its other two clauses: a platform that allows nothing, and an address 1 above an aligned one. A byte load has no
misaligned address, so its last clause holds of none. -/
theorem test_witness_LoadResults_stops :
    (small nothingValid 0x100#32 [] []).pc.toNat % 4 = 0 ∧ validAccess nothingValid (.load .word) 0x2000#32 = false ∧
    validAccess nothingValid (.load .half) 0x2000#32 = false ∧ validAccess nothingValid (.load .byte) 0x2000#32 = false ∧
    (0x2000#32).toNat % 4 = 0 ∧ (0x2001#32).toNat % 4 ≠ 0 ∧ (0x2001#32).toNat % 2 ≠ 0 ∧
    specParams.misalignedData = .refuse := by decide

/-- A first byte without a value, and a word and a halfword whose last byte alone has none. -/
theorem test_witness_UnwrittenLoadFaults :
    let s := small specParams 0x100#32 [(2, 0xFFFFFFFC#32), (3, 0x1000#32)] (bytes4.take 3)
    (s.mem.read (s.readReg 2 + 0#32).toNat = none ∧ validAccess s.params (.load .byte) (s.readReg 2 + 0#32) = true) ∧
    ((s.readReg 3 + 2#32).toNat % 2 = 0 ∧ validAccess s.params (.load .half) (s.readReg 3 + 2#32) = true ∧
      ∃ i < 2, s.mem.read (s.readReg 3 + 2#32 + BitVec.ofNat 32 i).toNat = none) ∧
    ((s.readReg 3 + 0#32).toNat % 4 = 0 ∧ validAccess s.params (.load .word) (s.readReg 3 + 0#32) = true ∧
      ∃ i < 4, s.mem.read (s.readReg 3 + 0#32 + BitVec.ofNat 32 i).toNat = none) := by decide

theorem test_witness_StoreResults :
    validAccess specParams (.store .word) 0xFFFFFFFC#32 = true ∧ validAccess specParams (.store .half) 0xFFFFFFFE#32 = true ∧
    validAccess specParams (.store .byte) 0xFFFFFFFF#32 = true ∧ validAccess nothingValid (.store .word) 0#32 = false ∧
    validAccess nothingValid (.store .half) 0#32 = false ∧ validAccess nothingValid (.store .byte) 0#32 = false ∧
    (0xFFFFFFFC#32).toNat % 4 = 0 ∧ (0xFFFFFFFE#32).toNat % 2 = 0 ∧ (0xFFFFFFFE#32).toNat % 4 ≠ 0 ∧
    (0xFFFFFFFF#32).toNat % 2 ≠ 0 ∧ specParams.misalignedData = .refuse := by decide

/-- The three settings at the misaligned address 0x1001, the access allowed. -/
theorem test_witness_MisalignedDataParameter_allowed :
    let s := small { specParams with misalignedData := .ignoreLowBits } 0x100#32 [(2, 0x1001#32)] bytes4
    let q := small { specParams with misalignedData := .splitBytes } 0x100#32 [(2, 0x1001#32)] bytes4
    (s.readReg 2 + 0#32).toNat % 2 ≠ 0 ∧ (s.readReg 2 + 0#32).toNat % 4 ≠ 0 ∧
    (0x1000#32).toNat = (s.readReg 2 + 0#32).toNat - (s.readReg 2 + 0#32).toNat % 4 ∧
    validAccess s.params (.load .word) 0x1000#32 = true ∧ validAccess s.params (.store .half) 0x1000#32 = true ∧
    s.mem.readLE .word 0x1000#32 = some 0x007FFF80#32 ∧
    (∀ i < 4, validAccess q.params (.load .byte) (q.readReg 2 + 0#32 + BitVec.ofNat 32 i) = true) ∧
    (∀ i < 4, validAccess q.params (.store .byte) (q.readReg 2 + 0#32 + BitVec.ofNat 32 i) = true) ∧
    q.mem.readLE .half (q.readReg 2 + 0#32) = some 0x00007FFF#32 := by decide

/-- The three settings at that address, the access not allowed. -/
theorem test_witness_MisalignedDataParameter_trap :
    (let s := small { specParams with misalignedData := .ignoreLowBits } 0x100#32 [(2, 0x1001#32)] (bytes4.take 3)
     s.mem.readLE .word 0x1000#32 = none ∧ s.mem.readLE .half (s.readReg 2 + 1#32) = none) ∧
    (small { specParams with misalignedData := .trap } 0x100#32 [] []).params.misalignedData = .trap ∧
    validAccess nothingValid (.load .word) 0x1000#32 = false ∧ validAccess nothingValid (.store .word) 0x1000#32 = false ∧
    ¬ (∀ i < 4, validAccess nothingValid (.load .byte) (0x1001#32 + BitVec.ofNat 32 i) = true) ∧
    ¬ (∀ i < 2, validAccess nothingValid (.store .byte) (0x1001#32 + BitVec.ofNat 32 i) = true) := by decide

/-- Section 2.8: the last value that fits and the first that does not, for MAC and MACU. -/
theorem test_witness_MacResults :
    ((0x00010000#32).toInt * (0x00008000#32).toInt + (0xFFFFFFFF#32).toInt = 2 ^ 31 - 1) ∧
    ((0x00010000#32).toInt * (0x00008000#32).toInt + (0x00000000#32).toInt > 2 ^ 31 - 1) ∧
    ((0x80000000#32).toInt * (0x00000001#32).toInt + (0x00000000#32).toInt = -2 ^ 31) ∧
    ((0x80000000#32).toInt * (0x00000001#32).toInt + (0xFFFFFFFF#32).toInt < -2 ^ 31) ∧
    ((0xFFFFFFFF#32).toNat * (0x00000001#32).toNat + (0x00000000#32).toNat = 2 ^ 32 - 1) ∧
    ((0xFFFFFFFF#32).toNat * (0x00000001#32).toNat + (0x00000001#32).toNat > 2 ^ 32 - 1) := by decide

/-- Section 2.8: `0x7FFFFFFF * 1 + 1` and `0x80000000 * 1 - 1` do not fit; one less on either side does. -/
theorem test_witness_MaciResults :
    State.reset.params.maciRole = .immIsAddend ∧
    ((0x7FFFFFFF#32).toInt * (0x00000001#32).toInt + (0x00000001#32).toInt > 2 ^ 31 - 1) ∧
    ((0x7FFFFFFF#32).toInt * (0x00000001#32).toInt + (0x00000000#32).toInt = 2 ^ 31 - 1) ∧
    ((0x80000000#32).toInt * (0x00000001#32).toInt + (0xFFFFFFFF#32).toInt < -2 ^ 31) := by decide

theorem test_witness_MaciFactorRole :
    (small { specParams with maciRole := .immIsFactor } 0x100#32 [] []).params.maciRole = .immIsFactor ∧
    ((0x00400000#32).toInt * (0x000001FF#32).toInt + (0x00000000#32).toInt ≤ 2 ^ 31 - 1) ∧
    ((0x00800000#32).toInt * (0x000001FF#32).toInt + (0x00000000#32).toInt > 2 ^ 31 - 1) := by decide

theorem test_witness_MacAndMacuAgree :
    let s := start [(2, 3#32), (3, 4#32), (4, 5#32)]
    (s.readReg 2).toInt * (s.readReg 3).toInt + (s.readReg 4).toInt = 17 ∧
    (s.readReg 2).toNat * (s.readReg 3).toNat + (s.readReg 4).toNat = 17 ∧
    isNext (exec (.mac 1 2 3 4) s) = true ∧ isNext (exec (.macu 1 2 3 4) s) = true := by decide

/-- Section 2.9, rows 6 and 5: every lane at 0x7E + 1, and one lane at 0xFF + 1. -/
theorem test_witness_Simd4Results :
    LanesInRange .either (fun a b => a + b) 8 4 0x7E7E7E7E#32 0x01010101#32 ∧
    ¬ LanesInRange .either (fun a b => a + b) 8 4 0x00FF0000#32 0x00010000#32 ∧
    LanesInRange .either (fun a b => a - b) 8 4 0x11223344#32 0x01020304#32 ∧
    ¬ LanesInRange .either (fun a b => a - b) 8 4 0x00000001#32 0x00000002#32 ∧
    LanesInRange .either (fun a b => a * b) 8 4 0x0B0B0B0B#32 0x0B0B0B0B#32 ∧
    ¬ LanesInRange .either (fun a b => a * b) 8 4 0x0000000C#32 0x0000000B#32 := by
  unfold LanesInRange LaneInRange laneSigned laneUnsigned
  decide

theorem test_witness_Simd2Results :
    LanesInRange .either (fun a b => a + b) 16 2 0x7FFE0000#32 0x00010000#32 ∧
    ¬ LanesInRange .either (fun a b => a + b) 16 2 0x00007FFF#32 0x00000001#32 ∧
    LanesInRange .either (fun a b => a - b) 16 2 0x00050006#32 0x00010002#32 ∧
    ¬ LanesInRange .either (fun a b => a - b) 16 2 0x00008000#32 0x00000001#32 ∧
    LanesInRange .either (fun a b => a * b) 16 2 0x00B500B5#32 0x00B500B5#32 ∧
    ¬ LanesInRange .either (fun a b => a * b) 16 2 0x000000B5#32 0x000000B6#32 := by
  unfold LanesInRange LaneInRange laneSigned laneUnsigned
  decide

/-- The lane tests under the other two settings of `SIMD_OVF`, section 2.9. -/
theorem test_witness_SimdResults_settings :
    LanesInRange .signed (fun a b => a + b) 8 4 0x000000FF#32 0x00000001#32 ∧
    ¬ LanesInRange .unsigned (fun a b => a + b) 8 4 0x000000FF#32 0x00000001#32 ∧
    LanesInRange .unsigned (fun a b => a + b) 8 4 0x0000007F#32 0x00000001#32 ∧
    ¬ LanesInRange .signed (fun a b => a + b) 8 4 0x0000007F#32 0x00000001#32 := by
  unfold LanesInRange LaneInRange laneSigned laneUnsigned
  decide

/-- SimdResultIgnoresOverflowSetting: lanes in range are those of the three witnesses above; AND4 answers a next state. -/
theorem test_witness_SimdResultIgnoresOverflowSetting : ∃ t, exec (.and4 1 2 3) (start []) = .next t := ⟨_, rfl⟩

theorem test_witness_SatResults_BitReverseResults : (14 : Reg) ≠ 0 := by decide

end Sys2Proof.Machine.Tests
end

section
/-! SUPPORT. The encoding of the 55 instructions under any `ENC` (30_encoding.md R61 to R75): what a row reads of a word,
laid out again, is the word's operand bits, and the operand bits of an instruction are read back as the instruction. -/

namespace Sys2Proof

/-! ## Immediates read from a word are in range -/

/-- The low bits of a sign extension are the extended value. -/
theorem setWidth_signExtend {n : Nat} (h : n ≤ 32) (x : BitVec n) : (x.signExtend 32).setWidth n = x := by
  apply BitVec.eq_of_getLsbD_eq
  intro i hi
  have hi32 : i < 32 := by omega
  rw [BitVec.getLsbD_setWidth, BitVec.getLsbD_signExtend]
  simp [hi, hi32]

theorem fitsSext_signExtend {n : Nat} (h : n ≤ 32) (x : BitVec n) : fitsSext n (x.signExtend 32) = true := by
  rw [fitsSext, setWidth_signExtend h, beq_self_eq_true]

theorem immOkI_immI (w : Word) : immOkI (immI w) = true := fitsSext_signExtend (by decide) _

theorem immOkI_immS (w : Word) : immOkI (immS w) = true := fitsSext_signExtend (by decide) _

theorem immOkB_immB (w : Word) : immOkB (immB w) = true := by
  have hfits : fitsSext 13 (immB w) = true := fitsSext_signExtend (by decide) _
  have heven : isEven (immB w) = true := by
    rw [isEven, immB, BitVec.getLsbD_signExtend, BitVec.getLsbD_append]
    simp
  rw [immOkB, hfits, heven, Bool.and_self]

theorem immOkJ_immJ (w : Word) : immOkJ (immJ w) = true := by
  have hfits : fitsSext 21 (immJ w) = true := fitsSext_signExtend (by decide) _
  have heven : isEven (immJ w) = true := by
    rw [isEven, immJ, BitVec.getLsbD_signExtend, BitVec.getLsbD_append]
    simp
  rw [immOkJ, hfits, heven, Bool.and_self]

/-! ## The fields of a word, laid out again -/

@[simp] theorem fieldOf_rdOf (w : Word) : fieldOf (rdOf w) = w.extractLsb' 7 5 := rfl
@[simp] theorem fieldOf_rs1Of (w : Word) : fieldOf (rs1Of w) = w.extractLsb' 15 5 := rfl
@[simp] theorem fieldOf_rs2Of (w : Word) : fieldOf (rs2Of w) = w.extractLsb' 20 5 := rfl
@[simp] theorem fieldOf_shamtOf (w : Word) : fieldOf (shamtOf w) = w.extractLsb' 20 5 := rfl

theorem layoutR_of_word (w : Word) : layoutR 0 (rs2Of w) (rs1Of w) 0 (rdOf w) 0 = w &&& regBits := by
  apply BitVec.eq_of_getLsbD_eq
  intro i hi
  simp only [layoutR, regBits, fieldOf_rdOf, fieldOf_rs1Of, fieldOf_rs2Of, BitVec.getLsbD_and, BitVec.getLsbD_append,
    BitVec.getLsbD_extractLsb']
  interval_cases i <;> simp

theorem layoutR_zero_rs2_of_word (w : Word) : layoutR 0 0 (rs1Of w) 0 (rdOf w) 0 = w &&& 0x000F8F80#32 := by
  apply BitVec.eq_of_getLsbD_eq
  intro i hi
  simp only [layoutR, fieldOf_rdOf, fieldOf_rs1Of, BitVec.getLsbD_and, BitVec.getLsbD_append,
    BitVec.getLsbD_extractLsb']
  interval_cases i <;> simp [fieldOf]

theorem layoutI_of_word (w : Word) : layoutI (immI w) (rs1Of w) 0 (rdOf w) 0 = w &&& 0xFFFF8F80#32 := by
  apply BitVec.eq_of_getLsbD_eq
  intro i hi
  simp only [layoutI, immI, fieldOf_rdOf, fieldOf_rs1Of, BitVec.getLsbD_and, BitVec.getLsbD_append,
    BitVec.getLsbD_extractLsb', BitVec.getLsbD_signExtend]
  interval_cases i <;> simp

theorem layoutS_of_word (w : Word) : layoutS (immS w) (rs2Of w) (rs1Of w) 0 0 = w &&& 0xFFFF8F80#32 := by
  apply BitVec.eq_of_getLsbD_eq
  intro i hi
  simp only [layoutS, immS, fieldOf_rs1Of, fieldOf_rs2Of, BitVec.getLsbD_and, BitVec.getLsbD_append,
    BitVec.getLsbD_extractLsb', BitVec.getLsbD_signExtend]
  interval_cases i <;> simp

theorem layoutB_of_word (w : Word) : layoutB (immB w) (rs2Of w) (rs1Of w) 0 0 = w &&& 0xFFFF8F80#32 := by
  apply BitVec.eq_of_getLsbD_eq
  intro i hi
  simp only [layoutB, immB, fieldOf_rs1Of, fieldOf_rs2Of, BitVec.getLsbD_and, BitVec.getLsbD_append,
    BitVec.getLsbD_extractLsb', BitVec.getLsbD_signExtend]
  interval_cases i <;> simp

theorem layoutJ_of_word (w : Word) : layoutJ (immJ w) (rdOf w) 0 = w &&& 0xFFFFFF80#32 := by
  apply BitVec.eq_of_getLsbD_eq
  intro i hi
  simp only [layoutJ, immJ, fieldOf_rdOf, BitVec.getLsbD_and, BitVec.getLsbD_append, BitVec.getLsbD_extractLsb',
    BitVec.getLsbD_signExtend]
  interval_cases i <;> simp

/-! ## Which `ENC` are encodings, taken apart -/

/-- What `Enc.wf` says: each pattern keeps off its row's operand bits, two patterns are apart, and the open places of
`rs3` and of MACI's immediate are free. -/
structure Enc.IsEncoding (e : Enc) : Prop where
  pattern_off_operands : ∀ k : Fin 55, e.patternOk specRows[k] e.patterns[k] = true
  patterns_apart : ∀ j k : Fin 55, j < k → e.patterns[j].apart e.patterns[k] = true
  rs3_free : slicesFree [⟨e.rs3At, 5⟩] regBits = true
  maciImm_free : slicesFree e.maciImm regBits = true
  maciImm_width : totalWidth e.maciImm ≤ 32

/-- A check of every row together with its pattern holds of row `k`. -/
theorem all_zipWith_specRows {f : SpecRow → Pattern → Bool} {e : Enc}
    (h : (List.zipWith f specRows e.patterns.toList).all id = true) (k : Fin 55) :
    f specRows[k] e.patterns[k] = true := by
  rw [List.all_eq_true] at h
  have hk : k < (List.zipWith f specRows e.patterns.toList).length := by simp [specRows_length]
  simpa using h _ (List.getElem_mem hk)

theorem Enc.isEncoding_of_wf {e : Enc} (h : e.wf = true) : e.IsEncoding := by
  simp only [Enc.wf, Bool.and_eq_true, decide_eq_true_eq] at h
  obtain ⟨⟨⟨⟨hok, hapart⟩, hrs3⟩, hmaci⟩, hwidth⟩ := h
  refine ⟨all_zipWith_specRows hok, fun j k hjk => ?_, hrs3, hmaci, hwidth⟩
  simpa using List.pairwise_iff_getElem.1 hapart j k (by simp) (by simp) hjk

section
variable {e : Enc} (he : e.IsEncoding)
include he

/-- A pattern sets no bit outside its mask. -/
theorem Enc.IsEncoding.pattern_and_mask (k : Fin 55) :
    e.patterns[k].pattern &&& e.patterns[k].mask = e.patterns[k].pattern := by
  have h := he.pattern_off_operands k
  simp only [Enc.patternOk, Bool.and_eq_true, beq_iff_eq] at h
  have hp := and_eq_zero_iff.1 h.1
  apply BitVec.eq_of_getLsbD_eq
  intro i hi
  rw [BitVec.getLsbD_and]
  cases hpi : e.patterns[k].pattern.getLsbD i with
  | false => rfl
  | true => simpa [hi] using hp i hpi

/-- A mask keeps no operand bit of its row. -/
theorem Enc.IsEncoding.mask_and_formatBits (k : Fin 55) :
    e.patterns[k].mask &&& e.formatBits specRows[k].format = 0#32 := by
  have h := he.pattern_off_operands k
  simp only [Enc.patternOk, Bool.and_eq_true, beq_iff_eq] at h
  exact h.2

theorem Enc.IsEncoding.rs3_inside : e.rs3At + 5 ≤ 32 := (slicesFree_cons he.rs3_free).1

theorem Enc.IsEncoding.rs3_off_regBits : (Slice.mk e.rs3At 5).bits &&& regBits = 0#32 :=
  (slicesFree_cons he.rs3_free).2.1

end

/-! ## The two places of an `ENC`, in a word -/

/-- A word's own bits in a part are read from a union with bits off that part. -/
theorem or_and_of_off {a b u : Word} (h : b &&& u = 0#32) : (a ||| b) &&& u = a &&& u := by
  rw [BitVec.and_comm, BitVec.and_or_distrib_left, BitVec.and_comm u b, h, BitVec.and_comm u a]
  simp

/-- The field `rd` is read from the bits of the register fields alone. -/
theorem rdOf_and_regBits (w : Word) : rdOf (w &&& regBits) = rdOf w := by
  rw [← layoutR_of_word, rdOf_layoutR]

theorem rs1Of_and_regBits (w : Word) : rs1Of (w &&& regBits) = rs1Of w := by
  rw [← layoutR_of_word, rs1Of_layoutR]

theorem rs2Of_and_regBits (w : Word) : rs2Of (w &&& regBits) = rs2Of w := by
  rw [← layoutR_of_word, rs2Of_layoutR]

/-- A layout of three registers sets only bits of the register fields. -/
theorem layoutR_and_regBits (rs2 rs1 rd : Reg) : layoutR 0 rs2 rs1 0 rd 0 &&& regBits = layoutR 0 rs2 rs1 0 rd 0 := by
  rw [← layoutR_of_word, rdOf_layoutR, rs1Of_layoutR, rs2Of_layoutR]

section registers
variable (rs2 rs1 rd : Reg) {b : Word} (h : b &&& regBits = 0#32)
include h

/-- Bits off the register fields do not disturb a layout of three registers. -/
theorem rdOf_layoutR_or : rdOf (layoutR 0 rs2 rs1 0 rd 0 ||| b) = rd := by
  rw [← rdOf_and_regBits, or_and_of_off h, rdOf_and_regBits, rdOf_layoutR]

theorem rs1Of_layoutR_or : rs1Of (layoutR 0 rs2 rs1 0 rd 0 ||| b) = rs1 := by
  rw [← rs1Of_and_regBits, or_and_of_off h, rs1Of_and_regBits, rs1Of_layoutR]

theorem rs2Of_layoutR_or : rs2Of (layoutR 0 rs2 rs1 0 rd 0 ||| b) = rs2 := by
  rw [← rs2Of_and_regBits, or_and_of_off h, rs2Of_and_regBits, rs2Of_layoutR]

end registers

/-- The field `rs3` as a word. -/
theorem Enc.setWidth_rs3Of (e : Enc) (w : Word) : (fieldOf (e.rs3Of w)).setWidth 32 = (Slice.mk e.rs3At 5).get w := rfl

/-- The field `rs3` is what its slice reads. -/
theorem Enc.rs3Of_of_get {e : Enc} {w : Word} {r : Reg}
    (h : (Slice.mk e.rs3At 5).get w = (fieldOf r).setWidth 32) : e.rs3Of w = r := by
  have hw : (fieldOf (e.rs3Of w)).setWidth 32 = (fieldOf r).setWidth 32 := h
  have hf : fieldOf (e.rs3Of w) = fieldOf r := by
    simpa using congrArg (BitVec.setWidth 5) hw
  exact congrArg BitVec.toFin hf

section places
variable {e : Enc} (he : e.IsEncoding)
include he

/-- `rs3` put in its place is off the register fields. -/
theorem Enc.IsEncoding.put_rs3_off_regBits (v : Word) : (Slice.mk e.rs3At 5).put v &&& regBits = 0#32 := by
  rw [← Slice.put_and, BitVec.and_assoc, he.rs3_off_regBits, BitVec.and_zero]

/-- MACI's immediate scattered over its places is off the register fields. -/
theorem Enc.IsEncoding.scatter_off_regBits (v : Word) : scatter v e.maciImm &&& regBits = 0#32 :=
  scatter_and_used v he.maciImm_free

/-- `rs3` is read back from its place beside the other registers. -/
theorem Enc.IsEncoding.rs3Of_put (rs3 rs2 rs1 rd : Reg) :
    e.rs3Of (layoutR 0 rs2 rs1 0 rd 0 ||| (Slice.mk e.rs3At 5).put ((fieldOf rs3).setWidth 32)) = rs3 := by
  apply Enc.rs3Of_of_get
  have hoff : layoutR 0 rs2 rs1 0 rd 0 &&& (Slice.mk e.rs3At 5).bits = 0#32 := by
    rw [← layoutR_and_regBits, BitVec.and_assoc, BitVec.and_comm regBits, he.rs3_off_regBits, BitVec.and_zero]
  rw [Slice.get_or, Slice.get_of_disjoint _ hoff, Slice.get_put _ he.rs3_inside]
  simp

/-- An immediate in range is read back from MACI's places beside the registers. -/
theorem Enc.IsEncoding.immI4_scatter {imm : Word} (h : fitsSext (totalWidth e.maciImm) imm = true) (rs2 rs1 rd : Reg) :
    e.immI4 (layoutR 0 rs2 rs1 0 rd 0 ||| scatter imm e.maciImm) = imm := by
  have hw := he.maciImm_width
  rw [Enc.immI4, gather_or, gather_of_used he.maciImm_free (layoutR_and_regBits rs2 rs1 rd), BitVec.zero_or,
    gather_scatter imm he.maciImm_free, BitVec.setWidth_setWidth_of_le _ hw, BitVec.setWidth_eq, sext_setWidth h]

/-- The immediate MACI reads of a word, scattered again, is the word's part in its places. -/
theorem Enc.IsEncoding.scatter_immI4 (w : Word) :
    scatter (e.immI4 w) e.maciImm = w &&& scatter (BitVec.allOnes 32) e.maciImm := by
  have hw := he.maciImm_width
  refine scatter_of_gather he.maciImm_free hw fun k hk => ?_
  have hk32 : k < 32 := by omega
  rw [Enc.immI4, BitVec.getLsbD_signExtend, if_pos hk, BitVec.getLsbD_setWidth]
  simp [hk, hk32]

end places

/-! ## What the rows read of a word -/

/-- What the layout of a format holds when its fields are those of `w`. -/
def Enc.relayout (e : Enc) (w : Word) : Format → Word
  | .r => layoutR 0 (rs2Of w) (rs1Of w) 0 (rdOf w) 0
  | .r2 => layoutR 0 0 (rs1Of w) 0 (rdOf w) 0
  | .i => layoutI (immI w) (rs1Of w) 0 (rdOf w) 0
  | .shift => layoutR 0 (shamtOf w) (rs1Of w) 0 (rdOf w) 0
  | .s => layoutS (immS w) (rs2Of w) (rs1Of w) 0 0
  | .b => layoutB (immB w) (rs2Of w) (rs1Of w) 0 0
  | .j => layoutJ (immJ w) (rdOf w) 0
  | .r4 => layoutR 0 (rs2Of w) (rs1Of w) 0 (rdOf w) 0 ||| (Slice.mk e.rs3At 5).put ((fieldOf (e.rs3Of w)).setWidth 32)
  | .i4 => layoutR 0 (rs2Of w) (rs1Of w) 0 (rdOf w) 0 ||| scatter (e.immI4 w) e.maciImm
  | .fixed => 0

/-- The range check of the immediate that a format reads of `w`. -/
def Enc.immInRange (e : Enc) (w : Word) : Format → Bool
  | .i => immOkI (immI w)
  | .s => immOkI (immS w)
  | .b => immOkB (immB w)
  | .j => immOkJ (immJ w)
  | .i4 => fitsSext (totalWidth e.maciImm) (e.immI4 w)
  | .r | .r2 | .shift | .r4 | .fixed => true

/-- Laying out again the fields of a word gives its operand bits: no operand bit is ignored. -/
theorem Enc.IsEncoding.relayout_eq {e : Enc} (he : e.IsEncoding) (w : Word) (f : Format) :
    e.relayout w f = w &&& e.formatBits f := by
  cases f with
  | r => exact layoutR_of_word w
  | r2 => exact layoutR_zero_rs2_of_word w
  | i => exact layoutI_of_word w
  | shift => exact layoutR_of_word w
  | s => exact layoutS_of_word w
  | b => exact layoutB_of_word w
  | j => exact layoutJ_of_word w
  | r4 =>
    rw [Enc.relayout, layoutR_of_word, Enc.setWidth_rs3Of, Slice.put_get _ he.rs3_inside, Enc.formatBits,
      BitVec.and_or_distrib_left]
  | i4 => rw [Enc.relayout, layoutR_of_word, he.scatter_immI4, Enc.formatBits, BitVec.and_or_distrib_left]
  | fixed => exact BitVec.and_zero.symm

/-- The immediate that a format reads of a word is one it can hold. -/
theorem Enc.IsEncoding.immInRange_eq {e : Enc} (he : e.IsEncoding) (w : Word) (f : Format) :
    e.immInRange w f = true := by
  cases f with
  | i => exact immOkI_immI w
  | s => exact immOkI_immS w
  | b => exact immOkB_immB w
  | j => exact immOkJ_immJ w
  | i4 => exact fitsSext_signExtend he.maciImm_width _
  | r | r2 | shift | r4 | fixed => rfl

/-- What a row builds of a word is an instruction of that row. -/
theorem row_build (e : Enc) (w : Word) (k : Fin 55) : (specRows[k].build e w).row = k := by
  fin_cases k <;> rfl

/-- The operand bits of what a row builds of a word. -/
theorem operandBits_build (e : Enc) (w : Word) (k : Fin 55) :
    e.operandBits (specRows[k].build e w) = e.relayout w specRows[k].format := by
  fin_cases k <;> rfl

/-- The range check of what a row builds of a word. -/
theorem holds_build (e : Enc) (w : Word) (k : Fin 55) :
    e.holds (specRows[k].build e w) = e.immInRange w specRows[k].format := by
  fin_cases k <;> rfl

/-! ## The operand bits of an instruction are read back

One lemma per layout, for any constructor whose operands the layout holds. -/

section readBack
variable (f : Reg → Reg → Reg → Instr) (g : Reg → Reg → Instr) (fi : Reg → Reg → Word → Instr) (rd rs1 rs2 : Reg)

theorem read_layoutR :
    f (rdOf (layoutR 0 rs2 rs1 0 rd 0)) (rs1Of (layoutR 0 rs2 rs1 0 rd 0)) (rs2Of (layoutR 0 rs2 rs1 0 rd 0)) =
      f rd rs1 rs2 := by
  simp only [rdOf_layoutR, rs1Of_layoutR, rs2Of_layoutR]

theorem read_layoutR_zero_rs2 :
    g (rdOf (layoutR 0 0 rs1 0 rd 0)) (rs1Of (layoutR 0 0 rs1 0 rd 0)) = g rd rs1 := by
  simp only [rdOf_layoutR, rs1Of_layoutR]

theorem read_layoutI {imm : Word} (h : immOkI imm = true) :
    fi (rdOf (layoutI imm rs1 0 rd 0)) (rs1Of (layoutI imm rs1 0 rd 0)) (immI (layoutI imm rs1 0 rd 0)) =
      fi rd rs1 imm := by
  simp only [rdOf_layoutI, rs1Of_layoutI, immI_layoutI _ _ _ _ h]

theorem read_layoutS {imm : Word} (h : immOkI imm = true) :
    fi (rs1Of (layoutS imm rs2 rs1 0 0)) (rs2Of (layoutS imm rs2 rs1 0 0)) (immS (layoutS imm rs2 rs1 0 0)) =
      fi rs1 rs2 imm := by
  simp only [rs1Of_layoutS, rs2Of_layoutS, immS_layoutS _ _ _ _ h]

theorem read_layoutB {imm : Word} (h : immOkB imm = true) :
    fi (rs1Of (layoutB imm rs2 rs1 0 0)) (rs2Of (layoutB imm rs2 rs1 0 0)) (immB (layoutB imm rs2 rs1 0 0)) =
      fi rs1 rs2 imm := by
  simp only [rs1Of_layoutB, rs2Of_layoutB, immB_layoutB _ _ _ _ h]

end readBack

/-- As the lemmas above, for the registers of MAC and MACU, `rs3` in the place that `e` gives it. -/
theorem Enc.IsEncoding.read_layoutR4 {e : Enc} (he : e.IsEncoding) (f : Reg → Reg → Reg → Reg → Instr)
    (rd rs1 rs2 rs3 : Reg) :
    let w := layoutR 0 rs2 rs1 0 rd 0 ||| (Slice.mk e.rs3At 5).put ((fieldOf rs3).setWidth 32)
    f (rdOf w) (rs1Of w) (rs2Of w) (e.rs3Of w) = f rd rs1 rs2 rs3 := by
  have hoff := he.put_rs3_off_regBits ((fieldOf rs3).setWidth 32)
  simp only [rdOf_layoutR_or _ _ _ hoff, rs1Of_layoutR_or _ _ _ hoff, rs2Of_layoutR_or _ _ _ hoff, he.rs3Of_put]

/-- The row of an instruction that `e` has a word for builds it back from its operand bits. -/
theorem Enc.IsEncoding.build_operandBits {e : Enc} (he : e.IsEncoding) {i : Instr} (h : e.holds i = true) :
    specRows[i.row].build e (e.operandBits i) = i := by
  cases i
  case add | sub | and | or | xor | sll | srl | sra | slt | sltu | add4 | sub4 | mul4 | and4 | or4 | xor4 | shift4
    | add2 | sub2 | mul2 | clip | circularAddr | slli | srli | srai => exact read_layoutR _ _ _ _
  case sat | round | bitReverse => exact read_layoutR_zero_rs2 _ _ _
  case addi | subi | andi | ori | xori | slti | sltiu | lb | lh | lw | lbu | lhu | jalr => exact read_layoutI _ _ _ h
  case sb | sh | sw => exact read_layoutS _ _ _ h
  case beq | bne | blt | bge | bltu | bgeu => exact read_layoutB _ _ _ h
  case jal rd imm =>
    show Instr.jal (rdOf (layoutJ imm rd 0)) (immJ (layoutJ imm rd 0)) = _
    rw [rdOf_layoutJ, immJ_layoutJ _ _ h]
  case mac | macu => exact he.read_layoutR4 _ _ _ _ _
  case maci rd rs1 rs2 imm =>
    have hoff := he.scatter_off_regBits imm
    show Instr.maci (rdOf (_ ||| _)) (rs1Of (_ ||| _)) (rs2Of (_ ||| _)) (e.immI4 (_ ||| _)) = _
    rw [rdOf_layoutR_or _ _ _ hoff, rs1Of_layoutR_or _ _ _ hoff, rs2Of_layoutR_or _ _ _ hoff, he.immI4_scatter h]
  case mret => rfl

/-! ## Decoding under an encoding (30_encoding.md R75) -/

/-- A row of an `ENC` is the spec's row at some place with the pattern of the `ENC` there. -/
theorem Enc.exists_of_mem_rows {e : Enc} {r : Row} (h : r ∈ e.rows) :
    ∃ k : Fin 55, r = ⟨specRows[k].mnemonic, e.patterns[k].mask, e.patterns[k].pattern, specRows[k].build e⟩ := by
  obtain ⟨k, hk, rfl⟩ := List.getElem_of_mem h
  have hk55 : k < 55 := e.rows_length ▸ hk
  exact ⟨⟨k, hk55⟩, e.rows_getElem k hk55 hk (specRows_length ▸ hk55)⟩

theorem Enc.mem_rows (e : Enc) (k : Fin 55) :
    ⟨specRows[k].mnemonic, e.patterns[k].mask, e.patterns[k].pattern, specRows[k].build e⟩ ∈ e.rows := by
  have hk : k < e.rows.length := by simp [Enc.rows_length]
  have hrow := e.rows_getElem k k.isLt hk (by simp [specRows_length])
  exact hrow ▸ List.getElem_mem hk

/-- No word matches two patterns that are apart. -/
theorem Pattern.not_both_of_apart {p q : Pattern} {w : Word} (h : p.apart q = true) (hp : w &&& p.mask = p.pattern) :
    w &&& q.mask ≠ q.pattern := by
  intro hq
  have hzero : (p.pattern ^^^ q.pattern) &&& p.mask &&& q.mask = 0#32 := by
    rw [← hp, ← hq]
    apply BitVec.eq_of_getLsbD_eq
    intro i _
    simp only [BitVec.getLsbD_and, BitVec.getLsbD_xor, BitVec.getLsbD_zero]
    cases w.getLsbD i <;> cases p.mask.getLsbD i <;> cases q.mask.getLsbD i <;> rfl
  simp [Pattern.apart, hzero] at h

/-- What decoding says of a word that decodes: some row's pattern matches it, and the instruction is that row's. -/
theorem Enc.decode_ok {e : Enc} {w : Word} {i : Instr} (h : e.decode w = .ok i) :
    ∃ k : Fin 55, w &&& e.patterns[k].mask = e.patterns[k].pattern ∧ i = specRows[k].build e w := by
  rcases e.decode_cases w with ⟨r, hr, hmatch, hdec⟩ | ⟨-, hdec⟩
  · obtain ⟨k, rfl⟩ := Enc.exists_of_mem_rows hr
    rw [hdec] at h
    exact ⟨k, hmatch, (Except.ok.inj h).symm⟩
  · rw [hdec] at h
    cases h

/-- The word of an instruction of row `k` has the fixed bits of row `k`. -/
theorem Enc.encode_of_row {e : Enc} {i : Instr} {k : Fin 55} (h : i.row = k) :
    e.encode i = e.patterns[k].pattern ||| e.operandBits i := by
  subst h
  rfl

/-- The operand bits of what a row builds of a word are the word's bits in the operand places of the row. -/
theorem Enc.IsEncoding.operandBits_build_eq {e : Enc} (he : e.IsEncoding) (w : Word) (k : Fin 55) :
    e.operandBits (specRows[k].build e w) = w &&& e.formatBits specRows[k].format := by
  rw [operandBits_build, he.relayout_eq]

/-- `e` has a word for whatever a row builds. -/
theorem Enc.IsEncoding.holds_build_eq {e : Enc} (he : e.IsEncoding) (w : Word) (k : Fin 55) :
    e.holds (specRows[k].build e w) = true := by
  rw [holds_build, he.immInRange_eq]

section
variable {e : Enc} (he : e.IsEncoding)
include he

/-- A word matches one pattern at most. -/
theorem Enc.IsEncoding.match_unique {w : Word} {j k : Fin 55} (hj : w &&& e.patterns[j].mask = e.patterns[j].pattern)
    (hk : w &&& e.patterns[k].mask = e.patterns[k].pattern) : j = k := by
  rcases lt_trichotomy j k with hlt | heq | hlt
  · exact absurd hk (Pattern.not_both_of_apart (he.patterns_apart j k hlt) hj)
  · exact heq
  · exact absurd hj (Pattern.not_both_of_apart (he.patterns_apart k j hlt) hk)

/-- A word that matches the pattern of row `k` decodes to what row `k` builds of it. -/
theorem Enc.IsEncoding.decode_of_match {w : Word} {k : Fin 55} (h : w &&& e.patterns[k].mask = e.patterns[k].pattern) :
    e.decode w = .ok (specRows[k].build e w) := by
  rcases e.decode_cases w with ⟨r, hr, hmatch, hdec⟩ | ⟨hnone, -⟩
  · obtain ⟨j, rfl⟩ := Enc.exists_of_mem_rows hr
    rw [he.match_unique h hmatch]
    exact hdec
  · exact absurd h (hnone _ (e.mem_rows k))

/-- A row builds from a word what it builds from the word's operand bits. -/
theorem Enc.IsEncoding.build_and_formatBits (w : Word) (k : Fin 55) :
    specRows[k].build e (w &&& e.formatBits specRows[k].format) = specRows[k].build e w := by
  have hread := he.build_operandBits (he.holds_build_eq w k)
  rwa [row_build, he.operandBits_build_eq] at hread

/-- An instruction's operand bits lie in the operand places of its row. -/
theorem Enc.IsEncoding.operandBits_and_formatBits {i : Instr} (h : e.holds i = true) :
    e.operandBits i &&& e.formatBits specRows[i.row].format = e.operandBits i := by
  rw [← he.operandBits_build_eq, he.build_operandBits h]

/-- The word of an instruction matches the pattern of its row. -/
theorem Enc.IsEncoding.encode_match {i : Instr} (h : e.holds i = true) :
    e.encode i &&& e.patterns[i.row].mask = e.patterns[i.row].pattern := by
  have hoff : e.operandBits i &&& e.patterns[i.row].mask = 0#32 := by
    rw [← he.operandBits_and_formatBits h, BitVec.and_assoc, BitVec.and_comm (e.formatBits _),
      he.mask_and_formatBits, BitVec.and_zero]
  rw [Enc.encode, or_and_of_off hoff, he.pattern_and_mask]

/-- The operand places of the word of an instruction hold its operand bits. -/
theorem Enc.IsEncoding.encode_and_formatBits {i : Instr} (h : e.holds i = true) :
    e.encode i &&& e.formatBits specRows[i.row].format = e.operandBits i := by
  have hoff : e.patterns[i.row].pattern &&& e.formatBits specRows[i.row].format = 0#32 := by
    rw [← he.pattern_and_mask, BitVec.and_assoc, he.mask_and_formatBits, BitVec.and_zero]
  rw [Enc.encode, BitVec.or_comm, or_and_of_off hoff, he.operandBits_and_formatBits h]

/-- An instruction that has a word is read back from it. -/
theorem Enc.IsEncoding.decode_encode {i : Instr} (h : e.holds i = true) : e.decode (e.encode i) = .ok i := by
  rw [he.decode_of_match (he.encode_match h), ← he.build_and_formatBits, he.encode_and_formatBits h,
    he.build_operandBits h]

/-- Where every bit is a fixed or an operand bit, a word that decodes is the word of its instruction. -/
theorem Enc.IsEncoding.encode_of_decode (hexact : e.exact = true) {w : Word} {i : Instr} (h : e.decode w = .ok i) :
    e.holds i = true ∧ e.encode i = w := by
  obtain ⟨k, hmatch, rfl⟩ := Enc.decode_ok h
  have hall : e.patterns[k].mask ||| e.formatBits specRows[k].format = BitVec.allOnes 32 := by
    simpa using all_zipWith_specRows hexact k
  refine ⟨he.holds_build_eq w k, ?_⟩
  rw [Enc.encode_of_row (row_build e w k), he.operandBits_build_eq, ← hmatch, ← BitVec.and_or_distrib_left, hall,
    BitVec.and_allOnes]

end

/-- Settles O57. Laid out again, what a row reads of a word is the word's operand bits, and the row reads an instruction
back from its operand bits; the pattern keeps off them, so both hold of whole words. -/
theorem everyEncodingRoundTrips : Obligations.EveryEncodingRoundTrips := by
  intro e hwf
  have he := Enc.isEncoding_of_wf hwf
  refine ⟨fun i hi => he.decode_encode hi, fun r hr w hmatch => ?_, fun w hnone => ?_,
    fun hexact w i h => he.encode_of_decode hexact h⟩
  · obtain ⟨k, rfl⟩ := Enc.exists_of_mem_rows hr
    exact he.decode_of_match hmatch
  · rcases e.decode_cases w with ⟨r, hr, hmatch, -⟩ | ⟨-, hdec⟩
    · exact absurd hmatch (hnone r hr)
    · exact ⟨classify w, hdec⟩

end Sys2Proof
end

section
/-! SUPPORT. Steps at an aligned pc, what a placed word does, and the fields no step changes (00_scope.md R4, R8). -/

namespace Sys2Proof.Machine

/-! ## The fetch of a word -/

theorem isAligned_four_iff {a : Word} : isAligned a 4 = true ↔ a.toNat % 4 = 0 := beq_iff_eq

/-- An aligned address has no low bits to ignore. -/
theorem alignDown_of_aligned {a : Word} (h : a.toNat % 4 = 0) : alignDown a 4 = a := by
  simp [alignDown, h]

/-- When no byte of a fetch has been stored to, the fetch meets no store (20_memory.md R54). -/
theorem fetchMeetsStore_eq_false {s : State} {a : Word} (h : ∀ x ∈ byteAddrs a 4, x ∉ s.stored) :
    s.fetchMeetsStore a = false := by
  simpa [State.fetchMeetsStore] using h

/-- The bytes of a fetch are the word the fetch sees, under each setting of `IFETCH_SEES_STORES`. -/
theorem fetchBytes_of_sees {s : State} {a w : Word} (h : FetchSees s a w) : s.fetchBytes a = .word w := by
  unfold FetchSees at h
  unfold State.fetchBytes
  cases hc : s.params.fetchCoherence with
  | unset =>
    simp only [hc] at h
    obtain ⟨hread, hstored⟩ := h
    simp [fetchMeetsStore_eq_false hstored, hread, fetchedWord]
  | sees | seesNot =>
    simp only [hc] at h
    simp [h, fetchedWord]

/-- A fetch at an address the platform allows gives the word it sees there. -/
theorem fetchAt_of_sees {s : State} {a w : Word} (hv : validAccess s.params .fetch a = true) (h : FetchSees s a w) :
    s.fetchAt a = .word w := by
  rw [State.fetchAt, if_pos hv, fetchBytes_of_sees h]

/-- The step of a state whose fetch gives a word that decodes is the execution of the instruction (00_scope.md R8). -/
theorem step_of_fetch_decode {s : State} {w : Word} {i : Instr} (hf : s.fetch = .word w)
    (hd : s.params.enc.decode w = .ok i) : step s = exec i s := by
  simp [step, hf, runFetched, runWord, hd]

theorem step_of_fetchSees {s : State} {w : Word} {i : Instr} (ha : s.pc.toNat % 4 = 0)
    (hv : validAccess s.params .fetch s.pc = true) (h : FetchSees s s.pc w) (hd : s.params.enc.decode w = .ok i) :
    step s = exec i s :=
  step_of_fetch_decode ((fetch_aligned (isAligned_four_iff.2 ha)).trans (fetchAt_of_sees hv h)) hd

/-- Settles O7: the fetch gives the word it sees, which decodes, so the step is the execution of the instruction. -/
theorem stepRunsDecodedInstruction : Obligations.StepRunsDecodedInstruction :=
  fun _ _ _ ha hv hs hd => step_of_fetchSees ha hv hs hd

/-! ## A word placed from outside -/

/-- At an aligned pc the next fetch reads at the pc, whatever `MISALIGNED_FETCH` says. -/
theorem fetchAddr_of_aligned {s : State} (h : s.pc.toNat % 4 = 0) : s.fetchAddr = s.pc := by
  unfold State.fetchAddr
  cases s.params.misalignedFetch with
  | refuse | trap => rfl
  | ignoreLowBits => exact alignDown_of_aligned h

/-- All 32 bits of a word, placed, are the word. -/
theorem withFetchWord_toNat (s : State) (v : Word) : s.withFetchWord 32 v.toNat = s.placeWord v := by
  rw [State.withFetchWord, State.placeBits, Nat.mod_eq_of_lt v.isLt, BitVec.ofNat_toNat, BitVec.setWidth_eq]

/-- A placed word is the one a fetch sees where the next fetch reads, under each setting of `IFETCH_SEES_STORES`. -/
theorem fetchSees_placeWord (s : State) (v : Word) : FetchSees (s.placeWord v) s.fetchAddr v := by
  unfold FetchSees
  rw [State.placeWord_params]
  cases s.params.fetchCoherence with
  | unset =>
    refine ⟨Memory.readWord_writeLE s.mem s.fetchAddr v, fun x hx hst => ?_⟩
    rw [State.placeWord_stored, AddrSet.mem_remove] at hst
    exact hst.2 hx
  | sees => exact Memory.readWord_writeLE s.mem s.fetchAddr v
  | seesNot => exact Memory.readWord_writeLE s.image s.fetchAddr v

/-- Settles O8: the placed word is the one the fetch sees, and it decodes to the instruction by O57's round trip. -/
theorem placedWordRunsNext : Obligations.PlacedWordRunsNext := by
  intro s i hwf hholds ha hv
  have hsees := fetchSees_placeWord s (s.params.enc.encode i)
  rw [fetchAddr_of_aligned ha] at hsees
  rw [withFetchWord_toNat]
  exact step_of_fetchSees ha hv hsees ((Enc.isEncoding_of_wf hwf).decode_encode hholds)

/-! ## What no step changes -/

/-- Whatever the shape of a next state, the parameters and the initial image are as before. -/
theorem NextShape.params_image {s t : State} (h : NextShape s t) : t.params = s.params ∧ t.image = s.image := by
  rcases h with ⟨rd, v, x, rfl⟩ | ⟨w, a, v, rfl⟩ | ⟨c, -, rfl⟩
  · exact ⟨by simp, by simp⟩
  · exact ⟨State.storeAt_params .., State.storeAt_image ..⟩
  · exact ⟨State.raise_params .., State.raise_image ..⟩

/-- Settles O24: every shape of a next state keeps both fields. -/
theorem parametersNeverChange : Obligations.ParametersNeverChange :=
  fun _ _ h => (step_next_shape h).params_image

end Sys2Proof.Machine
end

section
/-! SUPPORT. The memory fields of the state over a step (20_memory.md R40, R52, R54): the canonical form, the bytes no
store has written, the stored-to set. -/

namespace Sys2Proof.Machine

/-! ## What a step does to memory -/

/-- A next state keeps memory and the stored-to set, or it is the state after a store. -/
theorem NextShape.same_mem_or_storeAt {s t : State} (h : NextShape s t) :
    (t.mem = s.mem ∧ t.stored = s.stored) ∨ ∃ w a v, t = s.storeAt w a v := by
  rcases h with ⟨rd, v, x, rfl⟩ | hstore | ⟨c, -, rfl⟩
  · exact .inl ⟨by simp, by simp⟩
  · exact .inr hstore
  · exact .inl ⟨State.raise_mem .., State.raise_stored ..⟩

/-- Whatever a step does, a byte once stored to counts as stored to. -/
theorem NextShape.stored_subset {s t : State} (h : NextShape s t) {x : Nat} (hx : x ∈ s.stored) : x ∈ t.stored := by
  rcases h.same_mem_or_storeAt with ⟨-, hstored⟩ | ⟨w, a, v, rfl⟩
  · exact hstored ▸ hx
  · exact AddrSet.mem_insertAll.2 (.inl hx)

/-! ## The canonical form -/

/-- The addresses of an access are in the address space, whether or not its sum wraps (20_memory.md R40). -/
theorem lt_addressSpace_of_mem_byteAddrs {a : Word} {n x : Nat} (h : x ∈ byteAddrs a n) : x < addressSpace := by
  obtain ⟨i, -, rfl⟩ := mem_byteAddrs.1 h
  exact byteAddr_lt a i

theorem State.Canonical.storeAt {s : State} (h : s.Canonical) (w : Width) (a v : Word) :
    (s.storeAt w a v).Canonical := by
  obtain ⟨hmem, himage, hstored, hlt⟩ := h
  refine ⟨Memory.writeLE_wf hmem w a v, himage, AddrSet.insertAll_wf hstored _, fun x hx => ?_⟩
  rcases AddrSet.mem_insertAll.1 hx with hold | hnew
  · exact hlt x hold
  · exact lt_addressSpace_of_mem_byteAddrs hnew

/-- Settles O21: a step that is no store keeps the three lists, and a store inserts into two of them in order. -/
theorem memoryStaysCanonical : Obligations.MemoryStaysCanonical := by
  intro s t hs hstep
  have hshape := step_next_shape hstep
  obtain ⟨-, himage⟩ := hshape.params_image
  rcases hshape.same_mem_or_storeAt with ⟨hmem, hstored⟩ | ⟨w, a, v, rfl⟩
  · rwa [State.Canonical, hmem, himage, hstored]
  · exact hs.storeAt w a v

/-! ## The bytes no store has written -/

/-- A store changes the bytes it adds to the stored-to set and no others. -/
theorem State.UnstoredAsImage.storeAt {s : State} (h : s.UnstoredAsImage) (w : Width) (a v : Word) :
    (s.storeAt w a v).UnstoredAsImage := by
  intro x hx
  rw [State.storeAt_stored, AddrSet.mem_insertAll, not_or] at hx
  obtain ⟨hold, hnew⟩ := hx
  rw [State.storeAt_mem, State.storeAt_image, Memory.read_writeLE_other s.mem w a v hnew, h x hold]

/-- Settles O22: a step that is no store keeps memory, image and stored-to set, and a store counts the bytes it writes. -/
theorem unstoredBytesKeepImage : Obligations.UnstoredBytesKeepImage := by
  intro s t hs hstep
  have hshape := step_next_shape hstep
  obtain ⟨-, himage⟩ := hshape.params_image
  rcases hshape.same_mem_or_storeAt with ⟨hmem, hstored⟩ | ⟨w, a, v, rfl⟩
  · rwa [State.UnstoredAsImage, hmem, himage, hstored]
  · exact hs.storeAt w a v

end Sys2Proof.Machine
end

section
/-! SUPPORT. What a data access answers, by the outcome of its checks and by `MISALIGNED_DATA` (20_memory.md R43, R47, R48;
notes/assumptions/8.md). -/

namespace Sys2Proof.Machine

/-! ## Loads and stores by the outcome of their checks -/

section byOutcome
variable {s : State} {w : Width} {ext : Word → Word} {rd : Reg} {ea a v : Word}

theorem load_of_go (h : resolveAccess s.params (.load w) ea = .go a) (hv : s.mem.readLE w a = some v) :
    s.load w ext rd ea = .next (s.finish rd (ext v)) := by
  simp [State.load, h, hv]

theorem load_of_unwritten (h : resolveAccess s.params (.load w) ea = .go a) (hv : s.mem.readLE w a = none) :
    s.load w ext rd ea = .fault (.unwrittenLoad a) := by
  simp [State.load, h, hv]

theorem load_of_accessFault (h : resolveAccess s.params (.load w) ea = .accessFault) :
    s.load w ext rd ea = .next (s.raise .loadAccessFault) := by
  simp [State.load, h]

theorem load_of_refuse (h : resolveAccess s.params (.load w) ea = .refuse) :
    s.load w ext rd ea = .refused (.misalignedData ea) := by
  simp [State.load, h]

theorem store_of_go (h : resolveAccess s.params (.store w) ea = .go a) :
    s.store w ea v = .next (s.storeAt w a v) := by
  simp [State.store, h]

theorem store_of_accessFault (h : resolveAccess s.params (.store w) ea = .accessFault) :
    s.store w ea v = .next (s.raise .storeAccessFault) := by
  simp [State.store, h]

theorem store_of_refuse (h : resolveAccess s.params (.store w) ea = .refuse) :
    s.store w ea v = .refused (.misalignedData ea) := by
  simp [State.store, h]

end byOutcome

/-! ## The checks at a misaligned address -/

section misaligned
variable {p : Params} {k : Access} {ea : Word}

theorem isAligned_eq_false {n : Nat} (h : ea.toNat % n ≠ 0) : isAligned ea n = false := beq_eq_false_iff_ne.2 h

theorem ifValid_ne_refuse : ifValid p k ea ≠ .refuse := by
  unfold ifValid
  split <;> exact Resolved.noConfusion

/-- Only the setting `refuse` refuses an access (20_memory.md R43). -/
theorem misalignedData_of_refuse (h : resolveAccess p k ea = .refuse) : p.misalignedData = .refuse := by
  unfold resolveAccess at h
  split at h
  · exact absurd h ifValid_ne_refuse
  · unfold resolveMisaligned at h
    split at h
    · assumption
    · cases h
    · exact absurd h ifValid_ne_refuse
    · split at h <;> cases h

theorem resolveAccess_trap (hp : p.misalignedData = .trap) (h : ea.toNat % k.bytes ≠ 0) :
    resolveAccess p k ea = .accessFault := by
  rw [resolveAccess_misaligned (isAligned_eq_false h), resolveMisaligned, hp]

/-- The address with its low bits ignored, read as a number, determines it. -/
theorem alignDown_eq_of_toNat {a : Word} {n : Nat} (h : a.toNat = ea.toNat - ea.toNat % n) : alignDown ea n = a := by
  have hle : ea.toNat % n ≤ ea.toNat := Nat.mod_le ..
  have hlow : (BitVec.ofNat 32 (ea.toNat % n)).toNat = ea.toNat % n := by
    rw [BitVec.toNat_ofNat, Nat.mod_eq_of_lt (lt_of_le_of_lt hle ea.isLt)]
  apply BitVec.eq_of_toNat_eq
  rw [alignDown, BitVec.toNat_sub_of_le (by rw [BitVec.le_def, hlow]; exact hle), hlow, h]

theorem resolveAccess_ignoreLowBits {a : Word} (hp : p.misalignedData = .ignoreLowBits) (h : ea.toNat % k.bytes ≠ 0)
    (ha : a.toNat = ea.toNat - ea.toNat % k.bytes) : resolveAccess p k ea = ifValid p k a := by
  rw [resolveAccess_misaligned (isAligned_eq_false h), resolveMisaligned, hp, ← alignDown_eq_of_toNat ha]

theorem resolveAccess_ignoreLowBits_go {a : Word} (hp : p.misalignedData = .ignoreLowBits) (h : ea.toNat % k.bytes ≠ 0)
    (ha : a.toNat = ea.toNat - ea.toNat % k.bytes) (hv : validAccess p k a = true) : resolveAccess p k ea = .go a := by
  rw [resolveAccess_ignoreLowBits hp h ha, ifValid, if_pos hv]

theorem resolveAccess_ignoreLowBits_fault {a : Word} (hp : p.misalignedData = .ignoreLowBits)
    (h : ea.toNat % k.bytes ≠ 0) (ha : a.toNat = ea.toNat - ea.toNat % k.bytes) (hv : validAccess p k a = false) :
    resolveAccess p k ea = .accessFault := by
  rw [resolveAccess_ignoreLowBits hp h ha, ifValid, hv, if_neg Bool.false_ne_true]

theorem resolveAccess_splitBytes_go (hp : p.misalignedData = .splitBytes) (h : ea.toNat % k.bytes ≠ 0)
    (hv : ∀ i < k.bytes, validAccess p (accessPerByte k) (ea + BitVec.ofNat 32 i) = true) :
    resolveAccess p k ea = .go ea := by
  rw [resolveAccess_misaligned (isAligned_eq_false h), resolveMisaligned, hp]
  exact if_pos (List.all_eq_true.2 fun i hi => hv i (List.mem_range.1 hi))

theorem resolveAccess_splitBytes_fault (hp : p.misalignedData = .splitBytes) (h : ea.toNat % k.bytes ≠ 0)
    (hv : ¬ ∀ i < k.bytes, validAccess p (accessPerByte k) (ea + BitVec.ofNat 32 i) = true) :
    resolveAccess p k ea = .accessFault := by
  rw [resolveAccess_misaligned (isAligned_eq_false h), resolveMisaligned, hp]
  exact if_neg fun hall => hv fun i hi => List.all_eq_true.1 hall i (List.mem_range.2 hi)

end misaligned

/-! ## The other settings of `MISALIGNED_DATA` -/

/-- An instruction that is a load, whatever its width and extension, does as `MISALIGNED_DATA` says. -/
theorem misalignedLoadClaim_of_load {mk : Reg → Reg → Word → Instr} {w : Width} {ext : Word → Word}
    (hexec : ∀ s rd rs1 imm, exec (mk rd rs1 imm) s = s.load w ext rd (s.readReg rs1 + imm)) :
    MisalignedLoadClaim mk w ext := by
  intro s rd rs1 imm v h
  simp only [Completes, hexec]
  refine ⟨fun hp => ?trap, fun hp a ha => ⟨fun hv hread => ?low, fun hv hread => ?lowUnwritten, fun hv => ?lowFault⟩,
    fun hp => ⟨fun hv hread => ?split, fun hv hread => ?splitUnwritten, fun hv => ?splitFault⟩⟩
  case trap => exact ⟨_, load_of_accessFault (resolveAccess_trap hp h), raise_traps s _⟩
  case low => exact ⟨_, load_of_go (resolveAccess_ignoreLowBits_go hp h ha hv) hread, finish_writes s rd _⟩
  case lowUnwritten => exact load_of_unwritten (resolveAccess_ignoreLowBits_go hp h ha hv) hread
  case lowFault => exact ⟨_, load_of_accessFault (resolveAccess_ignoreLowBits_fault hp h ha hv), raise_traps s _⟩
  case split => exact ⟨_, load_of_go (resolveAccess_splitBytes_go hp h hv) hread, finish_writes s rd _⟩
  case splitUnwritten => exact load_of_unwritten (resolveAccess_splitBytes_go hp h hv) hread
  case splitFault => exact ⟨_, load_of_accessFault (resolveAccess_splitBytes_fault hp h hv), raise_traps s _⟩

/-- An instruction that is a store, whatever its width, does as `MISALIGNED_DATA` says. -/
theorem misalignedStoreClaim_of_store {mk : Reg → Reg → Word → Instr} {w : Width}
    (hexec : ∀ s rs1 rs2 imm, exec (mk rs1 rs2 imm) s = s.store w (s.readReg rs1 + imm) (s.readReg rs2)) :
    MisalignedStoreClaim mk w := by
  intro s rs1 rs2 imm h
  simp only [Completes, hexec]
  refine ⟨fun hp => ?trap, fun hp a ha => ⟨fun hv => ?low, fun hv => ?lowFault⟩,
    fun hp => ⟨fun hv => ?split, fun hv => ?splitFault⟩⟩
  case trap => exact ⟨_, store_of_accessFault (resolveAccess_trap hp h), raise_traps s _⟩
  case low => exact ⟨_, store_of_go (resolveAccess_ignoreLowBits_go hp h ha hv), storeAt_stores s w a _⟩
  case lowFault => exact ⟨_, store_of_accessFault (resolveAccess_ignoreLowBits_fault hp h ha hv), raise_traps s _⟩
  case split => exact ⟨_, store_of_go (resolveAccess_splitBytes_go hp h hv), storeAt_stores s w _ _⟩
  case splitFault => exact ⟨_, store_of_accessFault (resolveAccess_splitBytes_fault hp h hv), raise_traps s _⟩

/-- Settles O40: each of the five instructions is a load or a store at `x[rs1] + imm`. -/
theorem misalignedDataParameter : Obligations.MisalignedDataParameter :=
  ⟨misalignedLoadClaim_of_load fun _ _ _ _ => rfl, misalignedLoadClaim_of_load fun _ _ _ _ => rfl,
    misalignedLoadClaim_of_load fun _ _ _ _ => rfl, misalignedStoreClaim_of_store fun _ _ _ _ => rfl,
    misalignedStoreClaim_of_store fun _ _ _ _ => rfl⟩

/-! ## Which instructions stop -/

/-- `i` answers a next state in `s`, or it is an access that stops by name: misaligned and refused, or a load of a byte
without a value. -/
def AnswersOrStops (i : Instr) (s : State) : Prop :=
  (∃ t, exec i s = .next t) ∨
    ((IsLoad i ∨ IsStore i) ∧ s.params.misalignedData = .refuse ∧ ∃ ea, exec i s = .refused (.misalignedData ea)) ∨
    (IsLoad i ∧ ∃ a, exec i s = .fault (.unwrittenLoad a))

theorem answersOrStops_of_load {i : Instr} {s : State} {w : Width} {ext : Word → Word} {rd : Reg} {ea : Word}
    (hi : IsLoad i) (hexec : exec i s = s.load w ext rd ea) : AnswersOrStops i s := by
  unfold AnswersOrStops
  rw [hexec]
  cases hr : resolveAccess s.params (.load w) ea with
  | refuse => exact .inr (.inl ⟨.inl hi, misalignedData_of_refuse hr, ea, load_of_refuse hr⟩)
  | accessFault => exact .inl ⟨_, load_of_accessFault hr⟩
  | go a =>
    cases hv : s.mem.readLE w a with
    | none => exact .inr (.inr ⟨hi, a, load_of_unwritten hr hv⟩)
    | some v => exact .inl ⟨_, load_of_go hr hv⟩

theorem answersOrStops_of_store {i : Instr} {s : State} {w : Width} {ea v : Word}
    (hi : IsStore i) (hexec : exec i s = s.store w ea v) : AnswersOrStops i s := by
  unfold AnswersOrStops
  rw [hexec]
  cases hr : resolveAccess s.params (.store w) ea with
  | refuse => exact .inr (.inl ⟨.inr hi, misalignedData_of_refuse hr, ea, store_of_refuse hr⟩)
  | accessFault => exact .inl ⟨_, store_of_accessFault hr⟩
  | go a => exact .inl ⟨_, store_of_go hr⟩

/-- Settles O27: loads and stores stop only where their checks or the bytes they read stop them; every other meaning
is a next state. -/
theorem onlyLoadsAndStoresStop : Obligations.OnlyLoadsAndStoresStop := by
  intro i s
  cases i
  case lb rd rs1 imm | lh rd rs1 imm | lw rd rs1 imm | lbu rd rs1 imm | lhu rd rs1 imm =>
    exact answersOrStops_of_load ⟨rd, rs1, imm, by simp⟩ rfl
  case sb rs1 rs2 imm | sh rs1 rs2 imm | sw rs1 rs2 imm =>
    exact answersOrStops_of_store ⟨rs1, rs2, imm, by simp⟩ rfl
  all_goals exact .inl ⟨_, rfl⟩

end Sys2Proof.Machine
end

section
/-! SUPPORT. What a fetch gives when it gives no word, and at a misaligned pc (20_memory.md R45, R46, R54). -/

namespace Sys2Proof.Machine

/-! ## A step whose fetch gives no word -/

theorem step_of_fetch_raise {s : State} {c : Cause} (h : s.fetch = .raise c) : step s = .next (s.raise c) := by
  rw [step, h, runFetched]

theorem step_of_fetch_fault {s : State} {f : Fault} (h : s.fetch = .fault f) : step s = .fault f := by
  rw [step, h, runFetched]

theorem step_of_fetch_refused {s : State} {r : Refusal} (h : s.fetch = .refused r) : step s = .refused r := by
  rw [step, h, runFetched]

/-! ## A fetch at an address -/

theorem fetchAt_of_invalid {s : State} {a : Word} (hv : validAccess s.params .fetch a = false) :
    s.fetchAt a = .raise .instructionAccessFault := by
  simp [State.fetchAt, hv]

/-- With the parameter unset, one stored-to byte refuses the whole fetch. -/
theorem fetchAt_of_stored {s : State} {a : Word} {x : Nat} (hv : validAccess s.params .fetch a = true)
    (hc : s.params.fetchCoherence = .unset) (hx : x ∈ byteAddrs a 4) (hst : x ∈ s.stored) :
    s.fetchAt a = .refused (.fetchAfterStore s.pc) := by
  have hmeets : s.fetchMeetsStore a = true := List.any_eq_true.2 ⟨x, hx, by simpa using hst⟩
  simp [State.fetchAt, hv, State.fetchBytes, hc, hmeets]

/-- A word of which one byte holds no value has no value. -/
theorem Memory.readWord_eq_none {m : Memory} {a : Word} {x : Nat} (hx : x ∈ byteAddrs a 4) (hm : m.read x = none) :
    m.readWord a = none := by
  obtain ⟨i, hi, rfl⟩ := mem_byteAddrs.1 hx
  unfold Memory.readWord
  split
  · next h0 h1 h2 h3 => interval_cases i <;> simp [*] at hm
  · rfl

theorem fetchAt_of_lacks {s : State} {a : Word} (hv : validAccess s.params .fetch a = true) (h : FetchLacks s a) :
    s.fetchAt a = .fault (.unwrittenFetch a) := by
  unfold FetchLacks at h
  simp only [State.fetchAt, hv, if_true, State.fetchBytes]
  cases hc : s.params.fetchCoherence with
  | unset =>
    simp only [hc] at h
    obtain ⟨⟨x, hx, hm⟩, hstored⟩ := h
    simp [fetchMeetsStore_eq_false hstored, Memory.readWord_eq_none hx hm, fetchedWord]
  | sees | seesNot =>
    simp only [hc] at h
    obtain ⟨x, hx, hm⟩ := h
    simp [Memory.readWord_eq_none hx hm, fetchedWord]

/-! ## A misaligned pc -/

theorem fetch_misaligned_refuse {s : State} (hp : s.params.misalignedFetch = .refuse) (h : s.pc.toNat % 4 ≠ 0) :
    s.fetch = .refused (.misalignedFetch s.pc) := by
  simp [State.fetch, isAligned_eq_false h, hp]

theorem fetch_misaligned_trap {s : State} (hp : s.params.misalignedFetch = .trap) (h : s.pc.toNat % 4 ≠ 0) :
    s.fetch = .raise .instructionAccessFault := by
  simp [State.fetch, isAligned_eq_false h, hp]

/-- Clearing the two low bits takes away the remainder modulo 4. -/
theorem alignDown_four_eq_and (a : Word) : alignDown a 4 = a &&& 0xFFFFFFFC#32 := by
  have hshift : a >>> 2 <<< 2 = a &&& 0xFFFFFFFC#32 := BitVec.shiftLeft_ushiftRight
  have hdiv : (a >>> 2 <<< 2).toNat = a.toNat / 4 * 4 := by
    simp only [BitVec.toNat_shiftLeft, BitVec.toNat_ushiftRight, Nat.shiftRight_eq_div_pow, Nat.shiftLeft_eq]
    omega
  rw [← hshift, alignDown]
  bv_omega

/-- With the low bits ignored every fetch reads at the pc with its two low bits cleared, an aligned pc included. -/
theorem fetch_ignoreLowBits {s : State} (hp : s.params.misalignedFetch = .ignoreLowBits) :
    s.fetch = s.fetchAt (s.pc &&& 0xFFFFFFFC#32) := by
  rw [← alignDown_four_eq_and]
  by_cases h : s.pc.toNat % 4 = 0
  · rw [fetch_aligned (isAligned_four_iff.2 h), alignDown_of_aligned h]
  · simp [State.fetch, isAligned_eq_false h, hp]

/-! ## The obligations on fetch -/

/-- The refusal at the step that begins with a misaligned pc. -/
theorem step_misaligned_refuse {s : State} (hp : s.params.misalignedFetch = .refuse) (h : s.pc.toNat % 4 ≠ 0) :
    step s = .refused (.misalignedFetch s.pc) :=
  step_of_fetch_refused (fetch_misaligned_refuse hp h)

/-- A jump to a misaligned target completes, link included, and the next step is refused (20_memory.md R46). -/
theorem linkAndJump_misaligned (rd : Reg) {target : Word} {s : State} (hp : s.params.misalignedFetch = .refuse)
    (h : target.toNat % 4 ≠ 0) :
    ∃ t, linkAndJump rd target s = .next t ∧ Links s t rd target ∧ step t = .refused (.misalignedFetch target) := by
  obtain ⟨hnext, hlinks⟩ := linkAndJump_links rd target s
  refine ⟨_, hnext, hlinks, step_misaligned_refuse ?_ h⟩
  rwa [State.setPc_params, State.writeReg_params]

/-- Settles O9: the pc is first looked at by the next fetch, under parameters that no instruction changes. -/
theorem misalignedFetchRefusedAtNextStep : Obligations.MisalignedFetchRefusedAtNextStep := by
  refine ⟨fun s hp h => step_misaligned_refuse hp h, fun i s t hp hexec h => ?_,
    fun s rd imm hp h => linkAndJump_misaligned rd hp h, fun s rd rs1 imm hp h => linkAndJump_misaligned rd hp h⟩
  obtain ⟨hparams, -⟩ := (exec_next_shape hexec).params_image
  exact step_misaligned_refuse (hparams ▸ hp) h

/-- Settles O10: under `trap` the fetch raises, under `ignoreLowBits` it is the fetch at the aligned address. -/
theorem misalignedFetchParameter : Obligations.MisalignedFetchParameter := by
  refine ⟨fun s hp h => ⟨_, step_of_fetch_raise (fetch_misaligned_trap hp h), raise_traps s _⟩, ?_⟩
  rintro s _ hp rfl
  have hfetch := fetch_ignoreLowBits hp
  refine ⟨fun w i hv hsees hd => ?word, fun hv => ?invalid, fun x hx hv hc hst => ?stored, fun hv hlacks => ?unwritten⟩
  case word => exact step_of_fetch_decode (hfetch.trans (fetchAt_of_sees hv hsees)) hd
  case invalid => exact ⟨_, step_of_fetch_raise (hfetch.trans (fetchAt_of_invalid hv)), raise_traps s _⟩
  case stored => exact step_of_fetch_refused (hfetch.trans (fetchAt_of_stored hv hc hx hst))
  case unwritten => exact step_of_fetch_fault (hfetch.trans (fetchAt_of_lacks hv hlacks))

theorem step_of_stored {s : State} {x : Nat} (hc : s.params.fetchCoherence = .unset) (ha : s.pc.toNat % 4 = 0)
    (hv : validAccess s.params .fetch s.pc = true) (hx : x ∈ byteAddrs s.pc 4) (hst : x ∈ s.stored) :
    step s = .refused (.fetchAfterStore s.pc) :=
  step_of_fetch_refused ((fetch_aligned (isAligned_four_iff.2 ha)).trans (fetchAt_of_stored hv hc hx hst))

/-- Settles O12: an SW counts its first byte as stored to, where the next fetch begins, and no step drops such a byte. -/
theorem fetchOfStoredByteRefused : Obligations.FetchOfStoredByteRefused := by
  refine ⟨fun s x hc ha hv hx hst => step_of_stored hc ha hv hx hst, fun _ _ _ => rfl,
    fun s rs1 rs2 imm hc ha hv hea hvs => ?_, fun s t x hstep hx => (step_next_shape hstep).stored_subset hx⟩
  have hgo : resolveAccess s.params (.store .word) (s.ea rs1 imm) = .go (s.pc + 4#32) := by
    rw [State.ea, hea]
    exact resolveAccess_go (isAligned_four_iff.2 ha) hvs
  have hfirst : byteAddr (s.pc + 4#32) 0 ∈ byteAddrs (s.pc + 4#32) 4 := mem_byteAddrs.2 ⟨0, by decide, rfl⟩
  exact ⟨_, store_of_go hgo, step_of_stored hc ha hv hfirst (AddrSet.mem_insertAll.2 (.inr hfirst))⟩

/-- The step at an aligned, valid pc of which a byte holds no value. -/
theorem step_of_lacks {s : State} (ha : s.pc.toNat % 4 = 0) (hv : validAccess s.params .fetch s.pc = true)
    (h : FetchLacks s s.pc) : step s = .fault (.unwrittenFetch s.pc) :=
  step_of_fetch_fault ((fetch_aligned (isAligned_four_iff.2 ha)).trans (fetchAt_of_lacks hv h))

/-- Memory lists nothing at `State.reset`, and no store of the run has written a byte. -/
theorem fetchLacks_reset : FetchLacks State.reset State.reset.pc :=
  ⟨⟨byteAddr resetPc 0, mem_byteAddrs.2 ⟨0, by decide, rfl⟩, rfl⟩, fun _ _ => List.not_mem_nil⟩

/-- Settles O59: the fetch has no word to give; `State.reset` is one such state. -/
theorem unwrittenFetchFaults : Obligations.UnwrittenFetchFaults :=
  ⟨fun _ ha hv h => step_of_lacks ha hv h, step_of_lacks (by decide) (by decide) fetchLacks_reset⟩

end Sys2Proof.Machine
end

section
/-! SUPPORT. The byte order of memory accesses, and what a load reads of the bytes a store wrote (20_memory.md R41, R52). -/

namespace Sys2Proof.Machine

/-! ## The addresses of an access -/

theorem byteAddr_zero (a : Word) : byteAddr a 0 = a.toNat := by
  rw [byteAddr, BitVec.add_zero]

/-- Byte `j` of an access that begins at byte `i` of another one. -/
theorem byteAddr_add (a : Word) (i j : Nat) : byteAddr (a + BitVec.ofNat 32 i) j = byteAddr a (i + j) := by
  rw [byteAddr, byteAddr, BitVec.ofNat_add, BitVec.add_assoc]

/-! ## The value of the bytes at an address -/

section readLE
variable {m : Memory} {a : Word} {b0 b1 b2 b3 : Byte}

theorem Memory.readLE_byte (h0 : m.read (byteAddr a 0) = some b0) : m.readLE .byte a = some (b0.setWidth 32) := by
  simp [Memory.readLE, h0]

theorem Memory.readLE_half (h0 : m.read (byteAddr a 0) = some b0) (h1 : m.read (byteAddr a 1) = some b1) :
    m.readLE .half a = some ((b1 ++ b0).setWidth 32) := by
  simp [Memory.readLE, Memory.readHalf, h0, h1, halfOfBytes]

theorem Memory.readLE_word (h0 : m.read (byteAddr a 0) = some b0) (h1 : m.read (byteAddr a 1) = some b1)
    (h2 : m.read (byteAddr a 2) = some b2) (h3 : m.read (byteAddr a 3) = some b3) :
    m.readLE .word a = some (b3 ++ b2 ++ b1 ++ b0) := by
  simp [Memory.readLE, Memory.readWord, h0, h1, h2, h3, wordOfBytes]

end readLE

/-- Settles O30: reads put the byte at the lowest address lowest, and writes take it from there. -/
theorem littleEndianLayout : Obligations.LittleEndianLayout := by
  refine ⟨fun m a b0 b1 b2 b3 h0 h1 h2 h3 => ?_, fun m w a v i hi => Memory.read_writeLE m w a v hi,
    fun m w a v x hx => Memory.read_writeLE_other m w a v hx⟩
  rw [← byteAddr_zero] at h0
  exact ⟨Memory.readLE_byte h0, Memory.readLE_half h0 h1, Memory.readLE_word h0 h1 h2 h3⟩

/-! ## What a narrower access sees of a store -/

/-- A store wrote byte `i` of its value at the byte `i` of its access, read as an access of its own. -/
theorem Memory.readLE_byte_writeLE (m : Memory) (w : Width) (a v : Word) {i : Nat} (hi : i < w.bytes) :
    (m.writeLE w a v).readLE .byte (a + BitVec.ofNat 32 i) = some ((v.extractLsb' (8 * i) 8).setWidth 32) := by
  apply Memory.readLE_byte
  rw [byteAddr_add]
  exact Memory.read_writeLE m w a v hi

/-- Two neighbouring bytes of a stored value are 16 neighbouring bits of it. -/
theorem Memory.readLE_half_writeLE (m : Memory) (w : Width) (a v : Word) {i : Nat} (hi : i + 1 < w.bytes) :
    (m.writeLE w a v).readLE .half (a + BitVec.ofNat 32 i) = some ((v.extractLsb' (8 * i) 16).setWidth 32) := by
  have h0 : (m.writeLE w a v).read (byteAddr (a + BitVec.ofNat 32 i) 0) = some (byteOf v i) := by
    rw [byteAddr_add]
    exact Memory.read_writeLE m w a v (Nat.lt_of_succ_lt hi)
  have h1 : (m.writeLE w a v).read (byteAddr (a + BitVec.ofNat 32 i) 1) = some (byteOf v (i + 1)) := by
    rw [byteAddr_add]
    exact Memory.read_writeLE m w a v hi
  have hjoin : byteOf v (i + 1) ++ byteOf v i = v.extractLsb' (8 * i) 16 :=
    BitVec.extractLsb'_append_extractLsb'_eq_extractLsb' (Nat.mul_succ 8 i)
  rw [Memory.readLE_half h0 h1, hjoin]

/-- The lowest byte of a store, at its own address. -/
theorem Memory.readLE_byte_writeLE_low (m : Memory) (w : Width) (a v : Word) (hw : 0 < w.bytes) :
    (m.writeLE w a v).readLE .byte a = some ((v.extractLsb' 0 8).setWidth 32) := by
  simpa using Memory.readLE_byte_writeLE m w a v hw

/-- The lowest halfword of a store, at its own address. -/
theorem Memory.readLE_half_writeLE_low (m : Memory) (w : Width) (a v : Word) (hw : 1 < w.bytes) :
    (m.writeLE w a v).readLE .half a = some ((v.extractLsb' 0 16).setWidth 32) := by
  simpa using Memory.readLE_half_writeLE m w a v (i := 0) hw

/-- Settles O31: a stored word read by bytes, by halfwords at bytes 0 and 2, and as a word. -/
theorem mixedWidthAccess : Obligations.MixedWidthAccess := fun m a v =>
  ⟨fun _ hi => Memory.readLE_byte_writeLE m .word a v hi, Memory.readLE_half_writeLE_low m .word a v (by decide),
    Memory.readLE_half_writeLE m .word a v (i := 2) (by decide), Memory.readWord_writeLE m a v⟩

/-! ## A load after a store -/

/-- A load allowed at an aligned address after a store there writes what it reads of the bytes stored. -/
theorem load_storeAt_writes {s : State} {w : Width} {a v x : Word} (rd : Reg) (ext : Word → Word)
    (ha : isAligned a w.bytes = true) (hv : validAccess s.params (.load w) a = true)
    (hread : (s.mem.writeLE w a v).readLE w a = some x) :
    ∃ u, (s.storeAt w a v).load w ext rd a = .next u ∧ Writes (s.storeAt w a v) u rd (ext x) :=
  ⟨_, load_of_go (resolveAccess_go ha hv) hread, finish_writes _ rd _⟩

/-- Every address is a multiple of the byte width. -/
theorem isAligned_byte (a : Word) : isAligned a Width.byte.bytes = true := beq_iff_eq.2 (Nat.mod_one _)

/-- Settles O32: the stores leave the base register and the parameters alone, so the load is at the same address, and it
reads what the last store wrote there. -/
theorem loadReturnsLatestStore : Obligations.LoadReturnsLatestStore := by
  intro s rd rs1 rs2 q imm
  refine ⟨fun hst hld => ?byte, fun ha hst hld => ?half, fun ha hst hld => ?word⟩
  case byte =>
    have ha := isAligned_byte (s.readReg rs1 + imm)
    exact ⟨_, store_of_go (resolveAccess_go ha hst),
      load_storeAt_writes rd extZero ha hld (Memory.readLE_byte_writeLE_low _ .byte _ _ (by decide))⟩
  case half =>
    have ha : isAligned (s.readReg rs1 + imm) Width.half.bytes = true := beq_iff_eq.2 ha
    exact ⟨_, store_of_go (resolveAccess_go ha hst),
      load_storeAt_writes rd extZero ha hld (Memory.readLE_half_writeLE_low _ .half _ _ (by decide))⟩
  case word =>
    have ha : isAligned (s.readReg rs1 + imm) Width.word.bytes = true := beq_iff_eq.2 ha
    exact ⟨_, store_of_go (resolveAccess_go ha hst), _, store_of_go (resolveAccess_go ha hst),
      load_storeAt_writes rd extZero ha hld (Memory.readWord_writeLE _ _ _)⟩

end Sys2Proof.Machine
end

section
/-! SUPPORT. The rows of the spec's encoding as words select them (30_encoding.md R75), the effect of an instruction that
finishes with a value, and the four arithmetic instructions (40_arithmetic.md). -/

namespace Sys2Proof.Machine

/-! ## What the rows of the spec's encoding select -/

theorem specEnc_isEncoding : specEnc.IsEncoding := Enc.isEncoding_of_wf (by decide)

/-- A word with the pattern of a row of the spec's table decodes to what the row builds of it. -/
theorem selects_row (k : Fin 55) :
    Selects specEnc.patterns[k].mask specEnc.patterns[k].pattern (specRows[k].build specEnc) :=
  fun _ hmatch => specEnc_isEncoding.decode_of_match hmatch

/-! ## Instructions that finish with a value -/

/-- An instruction that finishes with a value completes, writes the value and has the frame of `Writes`. -/
theorem completes_of_finish {i : Instr} {s : State} {rd : Reg} {v x : Word} (h : exec i s = .next (s.finish rd x))
    (hv : x = v) : Completes i s (fun t => Writes s t rd v) :=
  ⟨s.finish rd x, h, hv ▸ finish_writes s rd x⟩

/-! ## Sums and differences modulo 2^32 -/

/-- The sum of two words is the exact sum of their unsigned values, wrapped. -/
theorem add_eq_ofNat (a b : Word) : a + b = BitVec.ofNat 32 (a.toNat + b.toNat) := by
  rw [BitVec.ofNat_add, BitVec.ofNat_toNat, BitVec.ofNat_toNat, BitVec.setWidth_eq, BitVec.setWidth_eq]

/-- The difference of two words is the exact difference of their unsigned values, wrapped. -/
theorem sub_eq_ofInt (a b : Word) : a - b = BitVec.ofInt 32 ((a.toNat : Int) - (b.toNat : Int)) := by
  rw [Int.sub_eq_add_neg, BitVec.ofInt_add, BitVec.ofInt_neg, ← BitVec.sub_eq_add_neg, BitVec.ofInt_natCast,
    BitVec.ofInt_natCast, BitVec.ofNat_toNat, BitVec.ofNat_toNat, BitVec.setWidth_eq, BitVec.setWidth_eq]

/-- Settles O33: the four rows are the first four of the table, and each instruction finishes with a sum or difference of
words, which is the exact one wrapped. -/
theorem addSubResults : Obligations.AddSubResults := by
  refine ⟨selects_row 0, selects_row 1, selects_row 2, selects_row 3, fun s rd rs1 rs2 imm => ⟨?add, ?sub, ?addi, ?subi⟩⟩
  case add => exact completes_of_finish rfl (add_eq_ofNat _ _)
  case sub => exact completes_of_finish rfl (sub_eq_ofInt _ _)
  case addi => exact completes_of_finish rfl (add_eq_ofNat _ _)
  case subi => exact completes_of_finish rfl (sub_eq_ofInt _ _)

end Sys2Proof.Machine
end

section
/-! SUPPORT. The six logical instructions (41_logical.md): rows 4 to 9 of the table, each finishing with the bitwise result
that the statement names. -/

namespace Sys2Proof.Machine

/-- Settles O34: the six rows are rows 4 to 9 of the table, and each instruction finishes with the bitwise result of its
operands, whatever the state and the immediate. -/
theorem logicalResults : Obligations.LogicalResults := by
  refine ⟨selects_row 4, selects_row 5, selects_row 6, selects_row 7, selects_row 8, selects_row 9,
    fun s rd rs1 rs2 imm => ⟨?and, ?or, ?xor, ?andi, ?ori, ?xori⟩⟩
  case and => exact completes_of_finish rfl rfl
  case or => exact completes_of_finish rfl rfl
  case xor => exact completes_of_finish rfl rfl
  case andi => exact completes_of_finish rfl rfl
  case ori => exact completes_of_finish rfl rfl
  case xori => exact completes_of_finish rfl rfl

end Sys2Proof.Machine
end

section
/-! SUPPORT. The six shift instructions (42_shift.md): rows 10 to 15 of the table, the shifts of words as multiplication and
floor division by a power of 2, and the words with a shift-immediate `funct3` that no row takes (30_encoding.md R70, R80). -/

namespace Sys2Proof.Machine

/-! ## Shifts as multiplication and floor division -/

/-- The amount of a register form is the register modulo 32. -/
theorem shiftAmount_eq_mod (v : Word) : shiftAmount v = v.toNat % 32 := by
  rw [shiftAmount, BitVec.extractLsb'_toNat, Nat.shiftRight_zero]

/-- A left shift is the exact product with the power of 2, wrapped. -/
theorem shiftLeft_eq_ofNat (a : Word) (k : Nat) : a <<< k = BitVec.ofNat 32 (a.toNat * 2 ^ k) :=
  BitVec.eq_of_toNat_eq (by rw [BitVec.toNat_shiftLeft, Nat.shiftLeft_eq, BitVec.toNat_ofNat])

/-- A logical right shift is the floor quotient of the unsigned value by the power of 2. -/
theorem ushiftRight_eq_ofNat (a : Word) (k : Nat) : a >>> k = BitVec.ofNat 32 (a.toNat / 2 ^ k) := by
  rw [← Nat.shiftRight_eq_div_pow, ← BitVec.toNat_ushiftRight, BitVec.ofNat_toNat, BitVec.setWidth_eq]

/-- An arithmetic right shift is the quotient of the signed value by the power of 2, rounded toward minus infinity. -/
theorem sshiftRight_eq_ofInt (a : Word) (k : Nat) : a.sshiftRight k = BitVec.ofInt 32 (a.toInt / 2 ^ k) := by
  have hfloor : a.toInt >>> k = a.toInt / 2 ^ k := by rw [Int.shiftRight_eq_div_pow, Int.natCast_pow, Int.cast_ofNat_Int]
  rw [← hfloor, ← BitVec.toInt_sshiftRight, BitVec.ofInt_toInt]

/-! ## Words that no row takes -/

/-- A field that a mask covers reads the same in a word and in the pattern the word matches. -/
theorem extractLsb'_of_match {w m p : Word} {lo n : Nat} (hm : m.extractLsb' lo n = BitVec.allOnes n) (h : w &&& m = p) :
    w.extractLsb' lo n = p.extractLsb' lo n := by
  rw [← h, BitVec.extractLsb'_and, hm, BitVec.and_allOnes]

/-- No word with the opcode of the immediate forms is in the class of U6 (93_implementation_defined.md U6). -/
theorem classify_of_opImm {w : Word} (h : opcodeOf w = 0b0010011#7) : classify w = .illegal := by
  have hne (v : Word) (hv : opcodeOf v ≠ 0b0010011#7) : w ≠ v := fun hw => hv (hw ▸ h)
  have hlow : w.extractLsb' 0 2 = 0b11#2 := by
    have hlow' : (opcodeOf w).extractLsb' 0 2 = 0b11#2 := by rw [h]; decide
    rwa [opcodeOf, BitVec.extractLsb'_extractLsb'_of_le (by decide)] at hlow'
  simp [classify, h, hlow, hne 0#32 (by decide), hne 0x00000073#32 (by decide), hne 0x00100073#32 (by decide),
    hne 0x10500073#32 (by decide)]

/-- A word with the immediate opcode and the fixed bits `f` is illegal when each row is apart from `f` or fixes a `funct7`
of the list `taken`, and the word's is not in it. -/
theorem decode_illegal_of_funct7 {f : Pattern} {taken : List (BitVec 7)} {w : Word}
    (hrows : ∀ k : Fin 55, f.apart specEnc.patterns[k] = true ∨
      specEnc.patterns[k].mask.extractLsb' 25 7 = BitVec.allOnes 7 ∧
      specEnc.patterns[k].pattern.extractLsb' 25 7 ∈ taken)
    (hop : opcodeOf w = 0b0010011#7) (hw : w &&& f.mask = f.pattern) (hf7 : w.extractLsb' 25 7 ∉ taken) :
    decode w = .error .illegal := by
  rcases specEnc.decode_cases w with ⟨r, hr, hmatch, -⟩ | ⟨-, hdec⟩
  · obtain ⟨k, rfl⟩ := Enc.exists_of_mem_rows hr
    rcases hrows k with hapart | ⟨hmask, htaken⟩
    · exact absurd hmatch (Pattern.not_both_of_apart hapart hw)
    · exact absurd (extractLsb'_of_match hmask hmatch ▸ htaken) hf7
  · rw [decode, hdec, classify_of_opImm hop]

/-- With the `funct3` of the left shift, the one `funct7` that a row fixes is that of SLLI. -/
theorem decode_illegal_of_slli_funct3 {w : Word} (hw : w &&& 0x0000707F#32 = 0x00001013#32)
    (h0 : w.extractLsb' 25 7 ≠ 0b0000000#7) : decode w = .error .illegal :=
  decode_illegal_of_funct7 (f := ⟨0x0000707F#32, 0x00001013#32⟩) (taken := [0b0000000#7]) (by decide)
    (extractLsb'_of_match (by decide) hw) hw (by simpa using h0)

/-- With the `funct3` of the right shifts, the two `funct7` that rows fix are those of SRLI and SRAI. -/
theorem decode_illegal_of_srli_funct3 {w : Word} (hw : w &&& 0x0000707F#32 = 0x00005013#32)
    (h0 : w.extractLsb' 25 7 ≠ 0b0000000#7) (h1 : w.extractLsb' 25 7 ≠ 0b0100000#7) : decode w = .error .illegal :=
  decode_illegal_of_funct7 (f := ⟨0x0000707F#32, 0x00005013#32⟩) (taken := [0b0000000#7, 0b0100000#7]) (by decide)
    (extractLsb'_of_match (by decide) hw) hw (by simpa using ⟨h0, h1⟩)

/-- Settles O35: the rows are rows 10 to 15 of the table, the other shift-immediate words match no row and are outside U6,
and each instruction finishes with a shift of words, which is the product or the floor quotient by a power of 2. -/
theorem shiftResults : Obligations.ShiftResults := by
  refine ⟨selects_row 10, selects_row 11, selects_row 12, selects_row 13, selects_row 14, selects_row 15,
    fun _ => decode_illegal_of_slli_funct3, fun _ => decode_illegal_of_srli_funct3,
    fun s rd rs1 rs2 k => ⟨?sll, ?srl, ?sra, ?slli, ?srli, ?srai⟩⟩
  case sll => exact completes_of_finish rfl (shiftAmount_eq_mod _ ▸ shiftLeft_eq_ofNat _ _)
  case srl => exact completes_of_finish rfl (shiftAmount_eq_mod _ ▸ ushiftRight_eq_ofNat _ _)
  case sra => exact completes_of_finish rfl (shiftAmount_eq_mod _ ▸ sshiftRight_eq_ofInt _ _)
  case slli => exact completes_of_finish rfl (shiftLeft_eq_ofNat _ _)
  case srli => exact completes_of_finish rfl (ushiftRight_eq_ofNat _ _)
  case srai => exact completes_of_finish rfl (sshiftRight_eq_ofInt _ _)

end Sys2Proof.Machine
end

section
/-! SUPPORT. The four comparison instructions (43_compare.md): rows 16 to 19 of the table, and the word that a condition of
the model stands for. -/

namespace Sys2Proof.Machine

/-! ## Conditions as words -/

/-- The word of a decided proposition is chosen by the proposition. -/
theorem boolWord_decide (p : Prop) [Decidable p] : boolWord (decide p) = if p then 1#32 else 0#32 := by
  simp only [boolWord, decide_eq_true_eq]

/-- The signed condition compares the two's complement values. -/
theorem boolWord_condLt (a b : Word) : boolWord (condLt a b) = if a.toInt < b.toInt then 1#32 else 0#32 :=
  boolWord_decide _

/-- The unsigned condition compares the unsigned values. -/
theorem boolWord_condLtu (a b : Word) : boolWord (condLtu a b) = if a.toNat < b.toNat then 1#32 else 0#32 :=
  boolWord_decide _

/-- Settles O36: the rows are rows 16 to 19 of the table, and each instruction finishes with the word of the signed or the
unsigned condition on its operands; the immediate forms take the immediate as the second operand of the same conditions. -/
theorem compareResults : Obligations.CompareResults := by
  refine ⟨selects_row 16, selects_row 17, selects_row 18, selects_row 19,
    fun s rd rs1 rs2 imm => ⟨?slt, ?sltu, ?slti, ?sltiu⟩⟩
  case slt => exact completes_of_finish rfl (boolWord_condLt _ _)
  case sltu => exact completes_of_finish rfl (boolWord_condLtu _ _)
  case slti => exact completes_of_finish rfl (boolWord_condLt _ _)
  case sltiu => exact completes_of_finish rfl (boolWord_condLtu _ _)

end Sys2Proof.Machine
end

section
/-! SUPPORT. The five loads and the three stores (44_load_store.md R142 to R149): rows 20 to 27 of the table, the value of a
load as an expression in single bytes, and what a load or store does at an aligned or a refused address (20_memory.md R43,
R47, R48). -/

namespace Sys2Proof.Machine

/-! ## The checks of an access by the remainder of its address -/

theorem isAligned_eq_true {a : Word} {n : Nat} (h : a.toNat % n = 0) : isAligned a n = true := beq_iff_eq.2 h

/-- The setting `refuse` refuses every access that is not naturally aligned (20_memory.md R43). -/
theorem resolveAccess_refuse {p : Params} {k : Access} {ea : Word} (hp : p.misalignedData = .refuse)
    (h : ea.toNat % k.bytes ≠ 0) : resolveAccess p k ea = .refuse := by
  rw [resolveAccess_misaligned (isAligned_eq_false h), resolveMisaligned, hp]

/-! ## The value of an access as an expression in single bytes -/

section readLE
variable (m : Memory) (a : Word)

theorem Memory.readLE_byte_eq : m.readLE .byte a = (m.read a.toNat).map (BitVec.setWidth 32) := by
  rw [Memory.readLE, byteAddr_zero]

theorem Memory.readHalf_eq :
    m.readHalf a = (m.read a.toNat).bind fun b0 => (m.read (a + 1#32).toNat).map fun b1 => b1 ++ b0 := by
  rw [Memory.readHalf, byteAddr_zero, byteAddr]
  cases m.read a.toNat with
  | none => rfl
  | some b0 => cases m.read (a + 1#32).toNat <;> rfl

theorem Memory.readWord_eq :
    m.readWord a = (m.read a.toNat).bind fun b0 => (m.read (a + 1#32).toNat).bind fun b1 =>
      (m.read (a + 2#32).toNat).bind fun b2 => (m.read (a + 3#32).toNat).map fun b3 => b3 ++ b2 ++ b1 ++ b0 := by
  rw [Memory.readWord, byteAddr_zero, byteAddr, byteAddr, byteAddr]
  cases m.read a.toNat with
  | none => rfl
  | some b0 =>
    cases m.read (a + 1#32).toNat with
    | none => rfl
    | some b1 =>
      cases m.read (a + 2#32).toNat with
      | none => rfl
      | some b2 => cases m.read (a + 3#32).toNat <;> rfl

/-- A byte, extended as the instruction extends it. -/
theorem Memory.map_readLE_byte {ext : Word → Word} {f : Byte → Word} (hext : ∀ b, ext (b.setWidth 32) = f b) :
    (m.readLE .byte a).map ext = (m.read a.toNat).map f := by
  rw [Memory.readLE_byte_eq, Option.map_map]
  exact congrArg (Option.map · _) (funext hext)

/-- A halfword, extended as the instruction extends it. -/
theorem Memory.map_readLE_half {ext : Word → Word} {f : BitVec 16 → Word} (hext : ∀ h, ext (h.setWidth 32) = f h) :
    (m.readLE .half a).map ext =
      (m.read a.toNat).bind fun b0 => (m.read (a + 1#32).toNat).map fun b1 => f (b1 ++ b0) := by
  simp only [Memory.readLE, Memory.readHalf_eq, Option.map_bind, Option.map_map, Function.comp_def, hext]

end readLE

/-- The sign extension of a byte that was zero-extended before is its own. -/
theorem extSign8_setWidth (b : Byte) : extSign8 (b.setWidth 32) = b.signExtend 32 := by
  rw [extSign8, BitVec.setWidth_setWidth_of_le b (by decide), BitVec.setWidth_eq]

/-- The sign extension of a halfword that was zero-extended before is its own. -/
theorem extSign16_setWidth (h : BitVec 16) : extSign16 (h.setWidth 32) = h.signExtend 32 := by
  rw [extSign16, BitVec.setWidth_setWidth_of_le h (by decide), BitVec.setWidth_eq]

/-! ## Loads and stores at their address -/

/-- An instruction that is a load, whatever its width and extension, does as 20_memory.md R47 says. -/
theorem loadClaim_of_load {mk : Reg → Reg → Word → Instr} {w : Width} {ext : Word → Word}
    {value : Memory → Word → Option Word}
    (hexec : ∀ s rd rs1 imm, exec (mk rd rs1 imm) s = s.load w ext rd (s.readReg rs1 + imm))
    (hvalue : ∀ m a, (m.readLE w a).map ext = value m a) : LoadClaim mk w value := by
  intro s rd rs1 imm
  simp only [Completes, hexec]
  refine ⟨fun v ha hv hread => ?completes, fun ha hv => ?faults, fun ha hp => ?refused⟩
  case completes =>
    rw [← hvalue] at hread
    obtain ⟨x, hx, rfl⟩ := Option.map_eq_some_iff.1 hread
    exact ⟨_, load_of_go (resolveAccess_go (isAligned_eq_true ha) hv) hx, finish_writes s rd _⟩
  case faults =>
    exact ⟨_, load_of_accessFault (resolveAccess_fault (isAligned_eq_true ha) hv), raise_traps s _⟩
  case refused => exact load_of_refuse (resolveAccess_refuse hp ha)

/-- An instruction that is a store, whatever its width, does as 20_memory.md R48 says. -/
theorem storeClaim_of_store {mk : Reg → Reg → Word → Instr} {w : Width}
    (hexec : ∀ s rs1 rs2 imm, exec (mk rs1 rs2 imm) s = s.store w (s.readReg rs1 + imm) (s.readReg rs2)) :
    StoreClaim mk w := by
  intro s rs1 rs2 imm
  simp only [Completes, hexec]
  refine ⟨fun ha hv => ?completes, fun ha hv => ?faults, fun ha hp => ?refused⟩
  case completes => exact ⟨_, store_of_go (resolveAccess_go (isAligned_eq_true ha) hv), storeAt_stores s w _ _⟩
  case faults =>
    exact ⟨_, store_of_accessFault (resolveAccess_fault (isAligned_eq_true ha) hv), raise_traps s _⟩
  case refused => exact store_of_refuse (resolveAccess_refuse hp ha)

/-- Settles O37: the rows are rows 20 to 24 of the table, and each instruction is a load at `x[rs1] + imm` that extends the
bytes it reads; LW reads a whole word and extends nothing. -/
theorem loadResults : Obligations.LoadResults := by
  refine ⟨selects_row 20, selects_row 21, selects_row 22, selects_row 23, selects_row 24, ?lb, ?lbu, ?lh, ?lhu, ?lw⟩
  case lb => exact loadClaim_of_load (fun _ _ _ _ => rfl) fun m a => m.map_readLE_byte a extSign8_setWidth
  case lbu => exact loadClaim_of_load (fun _ _ _ _ => rfl) fun m a => m.map_readLE_byte a fun _ => rfl
  case lh => exact loadClaim_of_load (fun _ _ _ _ => rfl) fun m a => m.map_readLE_half a extSign16_setWidth
  case lhu => exact loadClaim_of_load (fun _ _ _ _ => rfl) fun m a => m.map_readLE_half a fun _ => rfl
  case lw => exact loadClaim_of_load (fun _ _ _ _ => rfl) fun m a =>
    Option.map_id'.trans (m.readWord_eq a)

/-- Settles O39: the rows are rows 25 to 27 of the table, and each instruction is a store of `x[rs2]` at `x[rs1] + imm`. -/
theorem storeResults : Obligations.StoreResults :=
  ⟨selects_row 25, selects_row 26, selects_row 27, storeClaim_of_store fun _ _ _ _ => rfl,
    storeClaim_of_store fun _ _ _ _ => rfl, storeClaim_of_store fun _ _ _ _ => rfl⟩

end Sys2Proof.Machine
end

section
/-! SUPPORT. The six branch instructions (45_branch.md R160 to R166): rows 28 to 33 of the table, and the conditions of the
model as comparisons of the operands. -/

namespace Sys2Proof.Machine

/-! ## Conditions as comparisons -/

section conditions
variable (a b : Word)

theorem condEq_iff : condEq a b = true ↔ a = b := beq_iff_eq

theorem condLt_iff : condLt a b = true ↔ a.toInt < b.toInt := decide_eq_true_iff

theorem condLtu_iff : condLtu a b = true ↔ a.toNat < b.toNat := decide_eq_true_iff

theorem not_condEq_iff : (!condEq a b) = true ↔ a ≠ b := Bool.not_iff_not.trans (condEq_iff a b).not

theorem not_condLt_iff : (!condLt a b) = true ↔ a.toInt ≥ b.toInt :=
  Bool.not_iff_not.trans ((condLt_iff a b).not.trans not_lt)

theorem not_condLtu_iff : (!condLtu a b) = true ↔ a.toNat ≥ b.toNat :=
  Bool.not_iff_not.trans ((condLtu_iff a b).not.trans not_lt)

end conditions

/-! ## Branches, taken or not -/

/-- An instruction that is a branch on the condition `p` completes and only sets the pc, as 45_branch.md R160 says. -/
theorem completes_of_branch (cond : Word → Word → Bool) {i : Instr} {s : State} {rs1 rs2 : Reg} {imm : Word} {p : Prop}
    [Decidable p] (hexec : exec i s = branch cond rs1 rs2 imm s)
    (hcond : cond (s.readReg rs1) (s.readReg rs2) = true ↔ p) :
    Completes i s (fun t => GoesTo s t (if p then s.pc + imm else s.pc + 4#32)) := by
  have htarget : (if cond (s.readReg rs1) (s.readReg rs2) then s.pcPlus imm else s.nextPc) =
      if p then s.pc + imm else s.pc + 4#32 := if_congr hcond rfl rfl
  exact ⟨_, hexec, htarget ▸ setPc_goesTo s _⟩

/-- Settles O41: the rows are rows 28 to 33 of the table, and each instruction is a branch on the comparison that its
condition, or the negation of its condition, stands for. -/
theorem branchResults : Obligations.BranchResults := by
  refine ⟨selects_row 28, selects_row 29, selects_row 30, selects_row 31, selects_row 32, selects_row 33,
    fun s rs1 rs2 imm => ⟨?beq, ?bne, ?blt, ?bge, ?bltu, ?bgeu⟩⟩
  case beq => exact completes_of_branch condEq rfl (condEq_iff _ _)
  case bne => exact completes_of_branch (fun a b => !condEq a b) rfl (not_condEq_iff _ _)
  case blt => exact completes_of_branch condLt rfl (condLt_iff _ _)
  case bge => exact completes_of_branch (fun a b => !condLt a b) rfl (not_condLt_iff _ _)
  case bltu => exact completes_of_branch condLtu rfl (condLtu_iff _ _)
  case bgeu => exact completes_of_branch (fun a b => !condLtu a b) rfl (not_condLtu_iff _ _)

end Sys2Proof.Machine
end

section
/-! SUPPORT. The two jumps with link (46_jump.md R170, R171): rows 34 and 35 of the table, each a jump to a target computed
from the registers as they were. -/

namespace Sys2Proof.Machine

/-- An instruction that is a jump with link completes, writes the link, goes to its target and has the frame of `Links`. -/
theorem completes_of_linkAndJump {i : Instr} {s : State} {rd : Reg} {target : Word}
    (hexec : exec i s = linkAndJump rd target s) : Completes i s (fun t => Links s t rd target) := by
  obtain ⟨hnext, hlinks⟩ := linkAndJump_links rd target s
  exact ⟨_, hexec.trans hnext, hlinks⟩

/-- Settles O42: the rows are rows 34 and 35 of the table, and each instruction is a jump with link, whose target is read
from the state before the link is written, so `rd = rs1` needs no case of its own. -/
theorem jumpResults : Obligations.JumpResults := by
  refine ⟨selects_row 34, selects_row 35, fun s rd rs1 imm => ⟨?jal, ?jalr⟩⟩
  case jal => exact completes_of_linkAndJump rfl
  case jalr => exact completes_of_linkAndJump rfl

end Sys2Proof.Machine
end

section
/-! SUPPORT. The MAC instructions (47_mac.md R180 to R183): rows 36 to 38 of the table, the ranges of an exact result, and
the low 32 bits that MAC and MACU share. -/

namespace Sys2Proof.Machine

/-! ## The ranges of an exact result -/

theorem fitsSigned_iff {w : Nat} {e : Int} : fitsSigned w e = true ↔ -2 ^ (w - 1) ≤ e ∧ e ≤ 2 ^ (w - 1) - 1 := by
  simp [fitsSigned]

theorem fitsUnsigned_iff {w : Nat} {e : Int} : fitsUnsigned w e = true ↔ 0 ≤ e ∧ e ≤ 2 ^ w - 1 := by
  simp [fitsUnsigned]

/-- A result outside the signed range, on either side. -/
theorem fitsSigned_word_eq_false {e : Int} (h : e < -2 ^ 31 ∨ e > 2 ^ 31 - 1) : fitsSigned 32 e = false :=
  Bool.eq_false_iff.2 fun hfits => by
    obtain ⟨hlow, hhigh⟩ := fitsSigned_iff.1 hfits
    exact h.elim (not_lt.2 hlow) (not_lt.2 hhigh)

/-! ## The end of a MAC instruction -/

section macFinish
variable {i : Instr} {s : State} {fits : Int → Bool} {rd : Reg} {e : Int}

theorem macFinish_of_fits (h : fits e = true) : macFinish fits rd e s = .next (s.finish rd (BitVec.ofInt 32 e)) := by
  rw [macFinish, if_pos h]

theorem macFinish_of_overflow (h : fits e = false) : macFinish fits rd e s = .next (s.raise .arithmeticOverflow) := by
  rw [macFinish, h, if_neg Bool.false_ne_true]

/-- A MAC instruction whose exact result fits writes its low 32 bits. -/
theorem completes_of_macFinish_fits (hexec : exec i s = macFinish fits rd e s) (h : fits e = true) :
    Completes i s (fun t => Writes s t rd (BitVec.ofInt 32 e)) :=
  completes_of_finish (hexec.trans (macFinish_of_fits h)) rfl

/-- A MAC instruction whose exact result does not fit takes Arithmetic Overflow. -/
theorem completes_of_macFinish_overflow (hexec : exec i s = macFinish fits rd e s) (h : fits e = false) :
    Completes i s (fun t => Traps s t .arithmeticOverflow) :=
  ⟨_, hexec.trans (macFinish_of_overflow h), raise_traps s _⟩

/-- A signed MAC instruction with the exact result `e`: written when it fits, else Arithmetic Overflow. -/
theorem completes_of_macFinish_signed (hexec : exec i s = macFinish (fitsSigned 32) rd e s) :
    (-2 ^ 31 ≤ e ∧ e ≤ 2 ^ 31 - 1 → Completes i s (fun t => Writes s t rd (BitVec.ofInt 32 e))) ∧
    (e < -2 ^ 31 ∨ e > 2 ^ 31 - 1 → Completes i s (fun t => Traps s t .arithmeticOverflow)) :=
  ⟨fun h => completes_of_macFinish_fits hexec (fitsSigned_iff.2 h),
    fun h => completes_of_macFinish_overflow hexec (fitsSigned_word_eq_false h)⟩

end macFinish

/-- The exact result of MACU is the natural number of the unsigned values. -/
theorem macuValue_eq_natCast (a b c : Word) : macuValue a b c = ((a.toNat * b.toNat + c.toNat : Nat) : Int) := by
  simp [macuValue, uval]

/-- A natural number fits 32 unsigned bits when it is at most the largest such value. -/
theorem fitsUnsigned_natCast_iff {n : Nat} : fitsUnsigned 32 (n : Int) = true ↔ n ≤ 2 ^ 32 - 1 := by
  rw [fitsUnsigned_iff]
  omega

/-- Settles O44: the rows are rows 36 and 38 of the table, and each instruction ends with its exact result, tested against
the range of its signedness. -/
theorem macResults : Obligations.MacResults := by
  refine ⟨selects_row 36, selects_row 38, ?mac, ?macu⟩
  case mac =>
    rintro s rd rs1 rs2 rs3 e rfl
    exact completes_of_macFinish_signed rfl
  case macu =>
    rintro s rd rs1 rs2 rs3 e rfl
    have hexec : exec (.macu rd rs1 rs2 rs3) s = macFinish (fitsUnsigned 32) rd
        (((s.readReg rs1).toNat * (s.readReg rs2).toNat + (s.readReg rs3).toNat : Nat) : Int) s := by
      rw [← macuValue_eq_natCast]
      rfl
    refine ⟨fun h => ?_, fun h => ?_⟩
    · rw [← BitVec.ofInt_natCast]
      exact completes_of_macFinish_fits hexec (fitsUnsigned_natCast_iff.2 h)
    · exact completes_of_macFinish_overflow hexec
        (Bool.eq_false_iff.2 fun hfits => not_lt.2 (fitsUnsigned_natCast_iff.1 hfits) h)

/-- MACI ends with the exact result that the operand role of its immediate gives. -/
theorem exec_maci {s : State} {role : MaciRole} (hrole : s.params.maciRole = role) (rd rs1 rs2 : Reg) (imm : Word) :
    exec (.maci rd rs1 rs2 imm) s =
      macFinish (fitsSigned 32) rd (maciValue role (s.readReg rs1) (s.readReg rs2) imm) s := by
  subst hrole
  rfl

/-- Settles O45: the row is row 37 of the table, its immediate in the two fields of the spec's encoding, and with the spec's
role the exact result is `a * b + imm`. -/
theorem maciResults : Obligations.MaciResults := by
  refine ⟨fun w hmatch => ?encoding, ?result⟩
  case encoding =>
    beta_reduce
    rw [← specEnc_immI4]
    exact selects_row 37 w hmatch
  case result =>
    rintro s rd rs1 rs2 imm e hrole rfl
    exact completes_of_macFinish_signed (exec_maci hrole rd rs1 rs2 imm)

/-- Settles O46: with the other role the exact result is `a * imm + b`. -/
theorem maciFactorRole : Obligations.MaciFactorRole := by
  rintro s rd rs1 rs2 imm e hrole rfl
  exact completes_of_macFinish_signed (exec_maci hrole rd rs1 rs2 imm)

/-! ## MAC and MACU, side by side -/

theorem ofInt_uval {w : Nat} (v : BitVec w) : BitVec.ofInt w (uval v) = v := by
  rw [uval, BitVec.ofInt_natCast, BitVec.ofNat_toNat, BitVec.setWidth_eq]

/-- The low 32 bits of the exact result do not depend on how the operands are read (47_mac.md R180). -/
theorem ofInt_macValue_eq (a b c : Word) : BitVec.ofInt 32 (macValue a b c) = BitVec.ofInt 32 (macuValue a b c) := by
  simp only [macValue, macuValue, BitVec.ofInt_add, BitVec.ofInt_mul, BitVec.ofInt_toInt, ofInt_uval]

/-- Settles O47: when both results fit, both instructions finish with the same low 32 bits. -/
theorem macAndMacuAgree : Obligations.MacAndMacuAgree := by
  intro s t u rd rs1 rs2 rs3 hmac hmacu ht hu
  have hmac' : fitsSigned 32 (macValue (s.readReg rs1) (s.readReg rs2) (s.readReg rs3)) = true := fitsSigned_iff.2 hmac
  have hmacu' : fitsUnsigned 32 (macuValue (s.readReg rs1) (s.readReg rs2) (s.readReg rs3)) = true := by
    rw [macuValue_eq_natCast]
    exact fitsUnsigned_natCast_iff.2 hmacu
  have htm := ht.symm.trans (macFinish_of_fits hmac')
  have hum := hu.symm.trans (macFinish_of_fits hmacu')
  rw [ofInt_macValue_eq] at htm
  exact Host.Outcome.next.inj (htm.trans hum.symm)

end Sys2Proof.Machine
end

section
/-! SUPPORT. The SIMD instructions (48_simd.md R190 to R201): rows 39 to 48 of the table, the overflow test of the lanes as
ranges, and the lane results under every `SIMD_OVF`. -/

namespace Sys2Proof.Machine

/-! ## The overflow test as ranges -/

/-- A lane does not overflow when its exact results are in the ranges that `SIMD_OVF` looks at. -/
theorem laneOverflows_eq_false_iff {o : SimdOvf} {f : Int → Int → Int} {w : Nat} {a b : BitVec w} :
    laneOverflows o f a b = false ↔ LaneInRange o w (f a.toInt b.toInt) (f (uval a) (uval b)) := by
  cases o with
  | signed => rw [laneOverflows, Bool.not_eq_false', fitsSigned_iff, LaneInRange]
  | unsigned => rw [laneOverflows, Bool.not_eq_false', fitsUnsigned_iff, LaneInRange]
  | either =>
    rw [laneOverflows, Bool.or_eq_false_iff, Bool.not_eq_false', Bool.not_eq_false', fitsSigned_iff, fitsUnsigned_iff,
      LaneInRange]

theorem anyLaneOverflows_eq_false_iff {o : SimdOvf} {f : Int → Int → Int} {w n : Nat} {a b : Word} :
    anyLaneOverflows o f w n a b = false ↔ LanesInRange o f w n a b := by
  simp only [anyLaneOverflows, List.any_eq_false, List.mem_range, Bool.not_eq_true, laneOverflows_eq_false_iff]
  rfl

/-! ## What an arithmetic SIMD instruction is -/

/-- `mk` is a SIMD instruction with the lane operation `f` on `n` lanes of `w` bits that writes `value` of its operands: it
finishes with the value when no lane overflows, else it takes Arithmetic Overflow, and each lane of the value is the low
bits of the exact lane result (48_simd.md R191). -/
structure IsSimd (mk : Reg → Reg → Reg → Instr) (f : Int → Int → Int) (w n : Nat) (value : Word → Word → Word) : Prop where
  exec_eq : ∀ (s : State) (rd rs1 rs2 : Reg), exec (mk rd rs1 rs2) s =
    .next (if anyLaneOverflows s.params.simdOvf f w n (s.readReg rs1) (s.readReg rs2) then s.raise .arithmeticOverflow
      else s.finish rd (value (s.readReg rs1) (s.readReg rs2)))
  value_lane : ∀ (a b : Word), ∀ i < n, (value a b).extractLsb' (w * i) w = BitVec.ofInt w (laneUnsigned f w a b i)

/-- The value of a 4x 8-bit instruction (48_simd.md R190, R191). -/
def simd4Value (f : Int → Int → Int) (a b : Word) : Word := packLanes8 fun i => laneResult f (lane 8 a i) (lane 8 b i)

/-- The value of a 2x 16-bit instruction (48_simd.md R190, R191). -/
def simd2Value (f : Int → Int → Int) (a b : Word) : Word := packLanes16 fun i => laneResult f (lane 16 a i) (lane 16 b i)

theorem isSimd_of_simd4 {mk : Reg → Reg → Reg → Instr} {f : Int → Int → Int}
    (hexec : ∀ s rd rs1 rs2, exec (mk rd rs1 rs2) s = simd4 f rd rs1 rs2 s) : IsSimd mk f 8 4 (simd4Value f) :=
  ⟨hexec, fun _ _ _ hi => lane_packLanes8 _ hi⟩

theorem isSimd_of_simd2 {mk : Reg → Reg → Reg → Instr} {f : Int → Int → Int}
    (hexec : ∀ s rd rs1 rs2, exec (mk rd rs1 rs2) s = simd2 f rd rs1 rs2 s) : IsSimd mk f 16 2 (simd2Value f) :=
  ⟨hexec, fun _ _ _ hi => lane_packLanes16 _ hi⟩

section isSimd
variable {mk : Reg → Reg → Reg → Instr} {f : Int → Int → Int} {w n : Nat} {value : Word → Word → Word}

/-- When every lane is in range the instruction writes its value. -/
theorem IsSimd.completes_writes (h : IsSimd mk f w n value) {s : State} {rs1 rs2 : Reg}
    (hrange : LanesInRange s.params.simdOvf f w n (s.readReg rs1) (s.readReg rs2)) (rd : Reg) :
    Completes (mk rd rs1 rs2) s (fun t => Writes s t rd (value (s.readReg rs1) (s.readReg rs2))) := by
  have hfits := anyLaneOverflows_eq_false_iff.2 hrange
  exact completes_of_finish (by rw [h.exec_eq, hfits, if_neg Bool.false_ne_true]) rfl

/-- When some lane is out of range it takes Arithmetic Overflow. -/
theorem IsSimd.completes_traps (h : IsSimd mk f w n value) {s : State} {rs1 rs2 : Reg}
    (hrange : ¬ LanesInRange s.params.simdOvf f w n (s.readReg rs1) (s.readReg rs2)) (rd : Reg) :
    Completes (mk rd rs1 rs2) s (fun t => Traps s t .arithmeticOverflow) := by
  have hoverflow : anyLaneOverflows s.params.simdOvf f w n (s.readReg rs1) (s.readReg rs2) = true :=
    Bool.eq_true_of_not_eq_false fun hfits => hrange (anyLaneOverflows_eq_false_iff.1 hfits)
  exact ⟨_, by rw [h.exec_eq, if_pos hoverflow], raise_traps s _⟩

theorem IsSimd.simdClaim (h : IsSimd mk f w n value) : SimdClaim mk f w n := by
  intro s rd rs1 rs2
  refine ⟨fun hrange => ?_, fun hrange => h.completes_traps hrange rd⟩
  obtain ⟨t, hexec, hwrites⟩ := h.completes_writes hrange rd
  exact ⟨t, hexec, _, hwrites, h.value_lane _ _⟩

end isSimd

theorem isSimd_add4 : IsSimd .add4 (fun a b => a + b) 8 4 (simd4Value fun a b => a + b) :=
  isSimd_of_simd4 fun _ _ _ _ => rfl

theorem isSimd_sub4 : IsSimd .sub4 (fun a b => a - b) 8 4 (simd4Value fun a b => a - b) :=
  isSimd_of_simd4 fun _ _ _ _ => rfl

theorem isSimd_mul4 : IsSimd .mul4 (fun a b => a * b) 8 4 (simd4Value fun a b => a * b) :=
  isSimd_of_simd4 fun _ _ _ _ => rfl

theorem isSimd_add2 : IsSimd .add2 (fun a b => a + b) 16 2 (simd2Value fun a b => a + b) :=
  isSimd_of_simd2 fun _ _ _ _ => rfl

theorem isSimd_sub2 : IsSimd .sub2 (fun a b => a - b) 16 2 (simd2Value fun a b => a - b) :=
  isSimd_of_simd2 fun _ _ _ _ => rfl

theorem isSimd_mul2 : IsSimd .mul2 (fun a b => a * b) 16 2 (simd2Value fun a b => a * b) :=
  isSimd_of_simd2 fun _ _ _ _ => rfl

/-- Settles O48: the rows are rows 39 to 41 of the table, and each instruction is a SIMD instruction on four lanes. -/
theorem simd4Results : Obligations.Simd4Results :=
  ⟨selects_row 39, selects_row 40, selects_row 41, isSimd_add4.simdClaim, isSimd_sub4.simdClaim, isSimd_mul4.simdClaim⟩

/-- Settles O49: the rows are rows 46 to 48 of the table, and each instruction is a SIMD instruction on two lanes. -/
theorem simd2Results : Obligations.Simd2Results :=
  ⟨selects_row 46, selects_row 47, selects_row 48, isSimd_add2.simdClaim, isSimd_sub2.simdClaim, isSimd_mul2.simdClaim⟩

/-! ## The value does not depend on `SIMD_OVF` -/

/-- `f` gives the same low bits on the signed and on the unsigned readings of its operands. -/
def IgnoresReading (f : Int → Int → Int) : Prop :=
  ∀ (w : Nat) (a b : BitVec w), BitVec.ofInt w (f a.toInt b.toInt) = BitVec.ofInt w (f (uval a) (uval b))

theorem ignoresReading_add : IgnoresReading fun a b => a + b := fun w a b => by
  simp only [BitVec.ofInt_add, BitVec.ofInt_toInt, ofInt_uval]

theorem ignoresReading_sub : IgnoresReading fun a b => a - b := fun w a b => by
  simp only [Int.sub_eq_add_neg, BitVec.ofInt_add, BitVec.ofInt_neg, BitVec.ofInt_toInt, ofInt_uval]

theorem ignoresReading_mul : IgnoresReading fun a b => a * b := fun w a b => by
  simp only [BitVec.ofInt_mul, BitVec.ofInt_toInt, ofInt_uval]

/-- The low `w` bits of a number in the unsigned range are the number. -/
theorem toNat_ofInt_of_unsigned {w : Nat} {e : Int} (h0 : 0 ≤ e) (h : e ≤ 2 ^ w - 1) :
    ((BitVec.ofInt w e).toNat : Int) = e := by
  have hlt : e < ((2 ^ w : Nat) : Int) := by push_cast; omega
  rw [BitVec.toNat_ofInt, Int.emod_eq_of_lt h0 hlt, Int.toNat_of_nonneg h0]

/-- The low `w` bits of a number in the signed range, read as signed, are the number. -/
theorem toInt_ofInt_of_signed {w : Nat} (hw : 0 < w) {e : Int} (h0 : -2 ^ (w - 1) ≤ e) (h : e ≤ 2 ^ (w - 1) - 1) :
    (BitVec.ofInt w e).toInt = e :=
  BitVec.toInt_ofInt_eq_self hw h0 (by omega)

theorem IsSimd.simdSettingClaim {mk : Reg → Reg → Reg → Instr} {f : Int → Int → Int} {w n : Nat}
    {value : Word → Word → Word} (h : IsSimd mk f w n value) (hf : IgnoresReading f) (hw : 0 < w) :
    SimdSettingClaim mk f w n := by
  intro s rd rs1 rs2
  have hlane (i : Nat) (hi : i < n) : (value (s.readReg rs1) (s.readReg rs2)).extractLsb' (w * i) w =
      BitVec.ofInt w (laneSigned f w (s.readReg rs1) (s.readReg rs2) i) :=
    (h.value_lane _ _ i hi).trans (hf w _ _).symm
  refine ⟨value (s.readReg rs1) (s.readReg rs2), hlane, fun o hrange => ?_, fun hrange i hi => ?_⟩
  · exact h.completes_writes (s := withSimdOvf o s) hrange rd
  · obtain ⟨⟨hslow, hshigh⟩, hulow, huhigh⟩ := hrange i hi
    refine ⟨?_, ?_⟩
    · rw [hlane i hi, toInt_ofInt_of_signed hw hslow hshigh]
    · rw [h.value_lane _ _ i hi, toNat_ofInt_of_unsigned hulow huhigh]

theorem withSimdOvf_finish (o : SimdOvf) (s : State) (rd : Reg) (v : Word) :
    (withSimdOvf o s).finish rd v = withSimdOvf o (s.finish rd v) := by
  by_cases hrd : rd = 0
  · subst hrd
    rfl
  · simp [State.writeReg, hrd, withSimdOvf, State.setPc]

/-- What SHIFT4 does where its open function gives a value. -/
theorem exec_shift4_of_some {s : State} {rs1 rs2 : Reg} {r : Word}
    (h : Config.shift4Fn (s.readReg rs1) (s.readReg rs2) = some r) (rd : Reg) :
    exec (.shift4 rd rs1 rs2) s = .next (s.finish rd r) := by
  show execShift4 rd rs1 rs2 s = _
  rw [execShift4, h]

/-- What SHIFT4 does where its open function gives the token overflow. -/
theorem exec_shift4_of_none {s : State} {rs1 rs2 : Reg}
    (h : Config.shift4Fn (s.readReg rs1) (s.readReg rs2) = none) (rd : Reg) :
    exec (.shift4 rd rs1 rs2) s = .next (s.raise .arithmeticOverflow) := by
  show execShift4 rd rs1 rs2 s = _
  rw [execShift4, h]

/-- A register form that cannot trap does the same under every `SIMD_OVF`. -/
theorem opRR_withSimdOvf {g : Word → Word → Word} {rd rs1 rs2 : Reg} {s t : State} (o : SimdOvf)
    (h : opRR g rd rs1 rs2 s = .next t) : opRR g rd rs1 rs2 (withSimdOvf o s) = .next (withSimdOvf o t) := by
  injection h with h
  subst h
  exact congrArg _ (withSimdOvf_finish o s rd _)

theorem shift4_withSimdOvf {rd rs1 rs2 : Reg} {s t : State} (o : SimdOvf) (h : exec (.shift4 rd rs1 rs2) s = .next t) :
    exec (.shift4 rd rs1 rs2) (withSimdOvf o s) = .next (withSimdOvf o t) := by
  cases hfn : Config.shift4Fn (s.readReg rs1) (s.readReg rs2) with
  | some r =>
    rw [exec_shift4_of_some hfn] at h
    injection h with h
    subst h
    rw [← withSimdOvf_finish]
    exact exec_shift4_of_some (s := withSimdOvf o s) hfn rd
  | none =>
    rw [exec_shift4_of_none hfn] at h
    injection h with h
    subst h
    exact exec_shift4_of_none (s := withSimdOvf o s) hfn rd

/-- Settles O50: the setting only decides whether a SIMD instruction traps, its lane operations give the same low bits
under both readings, and the other four do not look at it. -/
theorem simdResultIgnoresOverflowSetting : Obligations.SimdResultIgnoresOverflowSetting := by
  refine ⟨isSimd_add4.simdSettingClaim ignoresReading_add (by decide),
    isSimd_sub4.simdSettingClaim ignoresReading_sub (by decide),
    isSimd_mul4.simdSettingClaim ignoresReading_mul (by decide),
    isSimd_add2.simdSettingClaim ignoresReading_add (by decide),
    isSimd_sub2.simdSettingClaim ignoresReading_sub (by decide),
    isSimd_mul2.simdSettingClaim ignoresReading_mul (by decide), ?_⟩
  rintro o s t rd rs1 rs2 i (rfl | rfl | rfl | rfl) h
  · exact opRR_withSimdOvf o h
  · exact opRR_withSimdOvf o h
  · exact opRR_withSimdOvf o h
  · exact shift4_withSimdOvf o h

/-! ## The bitwise forms and SHIFT4 -/

/-- Settles O51: the rows are rows 42 to 44 of the table, and each instruction finishes with the bitwise result. -/
theorem simdLogicalResults : Obligations.SimdLogicalResults := by
  refine ⟨selects_row 42, selects_row 43, selects_row 44, fun s rd rs1 rs2 => ⟨?and4, ?or4, ?xor4⟩⟩
  case and4 => exact completes_of_finish rfl rfl
  case or4 => exact completes_of_finish rfl rfl
  case xor4 => exact completes_of_finish rfl rfl

/-- Settles O52: the lane form and the whole-word form are one register form. -/
theorem simdLogicalIsWholeWord : Obligations.SimdLogicalIsWholeWord := fun _ _ _ _ => ⟨rfl, rfl, rfl⟩

/-- Settles O53: the row is row 45 of the table, and both answers of the open function complete. -/
theorem shift4Results : Obligations.Shift4Results := by
  refine ⟨selects_row 45, fun s rd rs1 rs2 => ?_⟩
  cases hfn : Config.shift4Fn (s.readReg rs1) (s.readReg rs2) with
  | some r => exact completes_of_finish (exec_shift4_of_some hfn rd) rfl
  | none => exact ⟨_, exec_shift4_of_none hfn rd, raise_traps s _⟩

end Sys2Proof.Machine
end

section
/-! SUPPORT. The DSP-specific instructions (49_dsp_specific.md R210 to R214): rows 49 to 53 of the table, the clamp of SAT as
a signed value, and a second application to the register that the first one wrote. -/

namespace Sys2Proof.Machine

/-! ## Instructions on one register, applied twice -/

/-- A register other than `x0` reads what an instruction finished with. -/
theorem readReg_finish (s : State) {rd : Reg} (v : Word) (h : rd ≠ 0) : (s.finish rd v).readReg rd = v := by
  simp [State.readReg_writeReg, h]

/-- An instruction that writes `g` of the operand, applied to its own result, writes `g` of the result. -/
theorem completes_of_opR_twice {mk : Reg → Reg → Instr} {g : Word → Word}
    (hexec : ∀ s rd rs1, exec (mk rd rs1) s = opR g rd rs1 s) {s : State} {rd rs1 : Reg} (q : Reg) (hrd : rd ≠ 0)
    {v : Word} (hv : g (g (s.readReg rs1)) = v) :
    Completes (mk q rd) (s.finish rd (g (s.readReg rs1)))
      (fun u => Writes (s.finish rd (g (s.readReg rs1))) u q v) :=
  completes_of_finish (hexec _ q rd) (by rw [readReg_finish s _ hrd, hv])

/-! ## The clamp of SAT -/

/-- The clamped value is the signed value forced into the range, which 32 bits hold. -/
theorem toInt_saturate16 (v : Word) : (saturate16 v).toInt = max (-32768) (min 32767 v.toInt) :=
  BitVec.toInt_ofInt_eq_self (by decide) (by omega) (by omega)

/-- The clamp, by cases of the signed value. -/
theorem toInt_saturate16_eq_ite (v : Word) :
    (saturate16 v).toInt = if v.toInt > 32767 then 32767 else if v.toInt < -32768 then -32768 else v.toInt := by
  rw [toInt_saturate16]
  omega

/-- A clamped value is in the range, so it is clamped to itself. -/
theorem saturate16_saturate16 (v : Word) : saturate16 (saturate16 v) = saturate16 v := by
  apply BitVec.eq_of_toInt_eq
  rw [toInt_saturate16, toInt_saturate16]
  omega

/-- Settles O55: the row is row 49 of the table, and SAT finishes with the clamped value, which is clamped to itself. -/
theorem satResults : Obligations.SatResults := by
  refine ⟨selects_row 49, fun s rd rs1 => ?_⟩
  exact ⟨_, rfl, saturate16 (s.readReg rs1), finish_writes s rd _, toInt_saturate16_eq_ite _,
    fun q hrd => completes_of_opR_twice (fun _ _ _ => rfl) q hrd (saturate16_saturate16 _)⟩

/-! ## BIT_REVERSE -/

/-- Bit `i` of a reversed word is bit `31 - i` of the word. -/
theorem getLsbD_reverse_word (v : Word) {i : Nat} (hi : i < 32) : v.reverse.getLsbD i = v.getLsbD (31 - i) := by
  rw [BitVec.getLsbD_reverse, BitVec.getMsbD_eq_getLsbD, decide_eq_true hi, Bool.true_and]

/-- Settles O56: the row is row 52 of the table, and BIT_REVERSE finishes with the reversed word, which reversed again is
the operand. -/
theorem bitReverseResults : Obligations.BitReverseResults := by
  refine ⟨selects_row 52, fun s rd rs1 => ?_⟩
  exact ⟨_, rfl, (s.readReg rs1).reverse, finish_writes s rd _, fun i hi => getLsbD_reverse_word _ hi,
    fun q hrd => completes_of_opR_twice (fun _ _ _ => rfl) q hrd BitVec.reverse_reverse_eq⟩

/-! ## The open functions -/

/-- Settles O54: the rows are rows 50, 51 and 53 of the table, and each instruction finishes with the value of its open
function, whatever the function is. -/
theorem openDspResults : Obligations.OpenDspResults := by
  refine ⟨selects_row 50, selects_row 51, selects_row 53, fun s rd rs1 rs2 => ⟨?clip, ?round, ?circularAddr⟩⟩
  case clip => exact completes_of_finish rfl rfl
  case round => exact completes_of_finish rfl rfl
  case circularAddr => exact completes_of_finish rfl rfl

end Sys2Proof.Machine
end

section
/-! SUPPORT. Taking an exception and returning from one (60_exceptions.md R231 to R248), at the fetch, in the handler, and
over the instructions that take none. -/

namespace Sys2Proof.Machine

/-! ## Trap entry and MRET -/

/-- Settles O13: the frame of trap entry, and two fields it does not touch. -/
theorem trapEntrySavesAndVectors : Obligations.TrapEntrySavesAndVectors :=
  fun s c => ⟨raise_traps s c, State.raise_regs s c, State.raise_mem s c⟩

/-- Settles O14: the parameters after reset hold the codes of the spec. -/
theorem specCauseCodes : Obligations.SpecCauseCodes := ⟨rfl, rfl, rfl, rfl, rfl, rfl⟩

/-- What MRET does (60_exceptions.md R245). -/
theorem exec_mret (s : State) : exec .mret s = .next (s.setPc s.mepc) := rfl

/-- Settles O19: the second trap entry saves the vector that the first one left in the pc, and MRET takes the pc back from
where trap entry put it. -/
theorem nestedTrapAndReturn : Obligations.NestedTrapAndReturn :=
  ⟨fun s c d => ⟨raise_traps (s.raise c) d, (State.raise_mepc (s.raise c) d).trans (State.raise_pc s c)⟩,
    fun s c => ⟨_, exec_mret (s.raise c), State.raise_mepc s c, fun _ => rfl, sameStorage_refl s⟩⟩

/-- In the spec's encoding every bit of a word is a fixed bit or an operand bit. -/
theorem specEnc_exact : specEnc.exact = true := by decide

/-- Settles O17: the row of MRET has no operand bit, so the word of MRET is the one word that decodes to it. -/
theorem mretJumpsToSavedPc : Obligations.MretJumpsToSavedPc := by
  have hword : specEnc.encode .mret = 0x30200073#32 := by decide
  refine ⟨fun w => ⟨fun h => ?_, fun h => ?_⟩, fun s => ⟨_, exec_mret s, setPc_goesTo s s.mepc⟩⟩
  · obtain ⟨-, hw⟩ := specEnc_isEncoding.encode_of_decode specEnc_exact h
    exact hw.symm.trans hword
  · subst h
    rw [← hword]
    exact specEnc_isEncoding.decode_encode (i := .mret) rfl

/-! ## Traps at the fetch -/

/-- The step at an aligned pc the platform does not allow. -/
theorem step_of_invalid {s : State} (ha : s.pc.toNat % 4 = 0) (hv : validAccess s.params .fetch s.pc = false) :
    step s = .next (s.raise .instructionAccessFault) :=
  step_of_fetch_raise ((fetch_aligned (isAligned_four_iff.2 ha)).trans (fetchAt_of_invalid hv))

/-- Settles O11: the fetch raises before any byte is read. -/
theorem invalidFetchTraps : Obligations.InvalidFetchTraps :=
  fun s ha hv => ⟨_, step_of_invalid ha hv, raise_traps s _⟩

/-- The step of a state whose fetch gives a word that selects no instruction. -/
theorem step_of_fetch_reject {s : State} {w : Word} {r : Reject} (hf : s.fetch = .word w)
    (hd : s.params.enc.decode w = .error r) : step s = s.reject r := by
  simp [step, hf, runFetched, runWord, hd]

/-- A rejected word raises Illegal Instruction, unless it is of the class of U6 and the parameter says to refuse it. -/
theorem reject_raises {s : State} {r : Reject} (h : r = .illegal ∨ s.params.unlistedWords = .trap) :
    s.reject r = .next (s.raise .illegalInstruction) := by
  cases r with
  | illegal => rfl
  | unlisted g =>
    have htrap : s.params.unlistedWords = .trap := h.resolve_left Reject.noConfusion
    simp [State.reject, htrap]

/-! ## The endless trap loop (60_exceptions.md R243) -/

/-- At the vector a second trap entry with the same cause changes nothing. -/
theorem raise_raise_of_vector {s : State} (c : Cause) (hpc : s.pc = trapVector) :
    (s.raise c).raise c = s.raise c := by
  simp [State.raise, hpc]

/-- Trap entry at the vector leaves what a fetch reads as it was. -/
theorem fetch_raise_of_vector {s : State} (c : Cause) (hpc : s.pc = trapVector) : (s.raise c).fetch = s.fetch :=
  fetch_congr ((State.raise_pc s c).trans hpc.symm) rfl rfl rfl rfl

/-- A state at the vector that traps there, and traps there again once it has trapped, loops for ever. -/
theorem loops_of_raise {s : State} {c : Cause} (hpc : s.pc = trapVector) (hs : step s = .next (s.raise c))
    (ht : step (s.raise c) = .next ((s.raise c).raise c)) :
    ∃ t, step s = .next t ∧ Traps s t c ∧ t.mepc = 0x00000000#32 ∧ step t = .next t :=
  ⟨_, hs, raise_traps s c, (State.raise_mepc s c).trans hpc, ht.trans (congrArg _ (raise_raise_of_vector c hpc))⟩

/-- Settles O18: trap entry at the vector changes neither what the fetch gives nor what becomes of the word, so the state
it reaches traps alike, into itself. -/
theorem fetchFaultLoopsForEver : Obligations.FetchFaultLoopsForEver := by
  refine ⟨fun s hloop => ?unfetchable, fun s w r hpc hf hd hr => ?rejected⟩
  case unfetchable =>
    obtain ⟨hpc, hv⟩ := hloop
    have hpc4 : s.pc.toNat % 4 = 0 := by rw [hpc]; rfl
    exact loops_of_raise hpc (step_of_invalid hpc4 (hpc ▸ hv)) (step_of_invalid rfl hv)
  case rejected =>
    have hf' : (s.raise .illegalInstruction).fetch = .word w := (fetch_raise_of_vector _ hpc).trans hf
    exact loops_of_raise hpc ((step_of_fetch_reject hf hd).trans (reject_raises hr))
      ((step_of_fetch_reject hf' hd).trans (reject_raises hr))

/-! ## Instructions that take no exception -/

theorem sameTrapRegs_finish (s : State) (rd : Reg) (v : Word) : SameTrapRegs s (s.finish rd v) :=
  ⟨by simp, by simp⟩

theorem sameTrapRegs_setPc (s : State) (x : Word) : SameTrapRegs s (s.setPc x) :=
  ⟨State.setPc_mcause s x, State.setPc_mepc s x⟩

theorem sameTrapRegs_link (s : State) (rd : Reg) (v x : Word) : SameTrapRegs s ((s.writeReg rd v).setPc x) :=
  ⟨by simp, by simp⟩

/-- Settles O28: without the memory instructions and those that can overflow, what is left writes a register, the pc, or
both. -/
theorem plainInstructionsNeverTrap : Obligations.PlainInstructionsNeverTrap := by
  intro i s t hload hstore hoverflow h
  cases i
  case lb rd rs1 imm | lh rd rs1 imm | lw rd rs1 imm | lbu rd rs1 imm | lhu rd rs1 imm =>
    exact absurd ⟨rd, rs1, imm, by simp⟩ hload
  case sb rs1 rs2 imm | sh rs1 rs2 imm | sw rs1 rs2 imm => exact absurd ⟨rs1, rs2, imm, by simp⟩ hstore
  case mac rd rs1 rs2 rs3 | macu rd rs1 rs2 rs3 => exact absurd ⟨rd, rs1, rs2, rs3, 0, by simp⟩ hoverflow
  case maci rd rs1 rs2 imm => exact absurd ⟨rd, rs1, rs2, 0, imm, by simp⟩ hoverflow
  case add4 rd rs1 rs2 | sub4 rd rs1 rs2 | mul4 rd rs1 rs2 | shift4 rd rs1 rs2 | add2 rd rs1 rs2 | sub2 rd rs1 rs2
    | mul2 rd rs1 rs2 => exact absurd ⟨rd, rs1, rs2, 0, 0, by simp⟩ hoverflow
  case beq | bne | blt | bge | bltu | bgeu | mret => injection h with h; subst h; exact sameTrapRegs_setPc s _
  case jal | jalr => injection h with h; subst h; exact sameTrapRegs_link s _ _ _
  all_goals injection h with h; subst h; exact sameTrapRegs_finish s _ _

/-! ## The end of the spec's programs (70_reset_and_hazards.md R273) -/

/-- Settles O43: `jal x0, 0` discards its link and jumps to the pc it is at. -/
theorem selfJumpChangesNothing : Obligations.SelfJumpChangesNothing := by
  refine ⟨by decide, fun s => ?_⟩
  have htarget : s.pcPlus 0#32 = s.pc := BitVec.add_zero s.pc
  show linkAndJump 0 (s.pcPlus 0#32) s = .next s
  rw [linkAndJump, State.writeReg_zero, htarget]
  rfl

end Sys2Proof.Machine
end

section
/-! SUPPORT. The words of 93_implementation_defined.md U6: a field's value as a masked comparison, the class of a word by its
fields, and that no row of the table takes such a word. -/

namespace Sys2Proof

/-! ## The value of a field, as a masked comparison -/

/-- A word has the value `v` in a field when it agrees with `v`, put in place, on the bits of the field. -/
theorem Slice.and_bits_eq_put_iff {x : Slice} (h : x.lo + x.width ≤ 32) {w : Word} {v : BitVec x.width} :
    w &&& x.bits = x.put (v.setWidth 32) ↔ w.extractLsb' x.lo x.width = v := by
  have hwidth : x.width ≤ 32 := by omega
  have hback (y : BitVec x.width) : (y.setWidth 32).setWidth x.width = y := by
    rw [BitVec.setWidth_setWidth_of_le _ hwidth, BitVec.setWidth_eq]
  rw [← x.put_get h, Slice.get]
  constructor
  · intro hput
    have hget := congrArg x.get hput
    rw [x.get_put h, x.get_put h, hback, hback] at hget
    rw [← hback (w.extractLsb' x.lo x.width), hget, hback]
  · exact fun hw => by rw [hw]

/-- The same with the mask and the masked value written out. -/
theorem and_mask_eq_iff {w m p : Word} {lo n : Nat} {v : BitVec n} (h : lo + n ≤ 32) (hm : (Slice.mk lo n).bits = m)
    (hp : (Slice.mk lo n).put (v.setWidth 32) = p) : w &&& m = p ↔ w.extractLsb' lo n = v := by
  subst hm hp
  exact Slice.and_bits_eq_put_iff (x := ⟨lo, n⟩) h

end Sys2Proof

namespace Sys2Proof.Machine

/-! ## The class of a word, by its fields -/

/-- A word of the multiply and divide group, by its opcode and `funct7`. -/
theorem and_mulDiv_iff {w : Word} :
    w &&& 0xFE00007F#32 = 0x02000033#32 ↔ opcodeOf w = 0b0110011#7 ∧ funct7Of w = 0b0000001#7 := by
  constructor
  · exact fun h => ⟨extractLsb'_of_match (by decide) h, extractLsb'_of_match (by decide) h⟩
  · rintro ⟨hop, hfunct7⟩
    have hop' : w &&& 0x7F#32 = 0x33#32 := (and_mask_eq_iff (by decide) (by decide) (by decide)).2 hop
    have hfunct7' : w &&& 0xFE000000#32 = 0x02000000#32 :=
      (and_mask_eq_iff (by decide) (by decide) (by decide)).2 hfunct7
    show w &&& (0xFE000000#32 ||| 0x7F#32) = 0x02000000#32 ||| 0x33#32
    rw [BitVec.and_or_distrib_left, hfunct7', hop']

/-- The list U6 with the fields of the word read instead of masked. -/
theorem isU6_iff {w : Word} :
    IsU6 w ↔ w ≠ 0 ∧ (w.extractLsb' 0 2 ≠ 0b11#2 ∨ opcodeOf w = 0b0110111#7 ∨ opcodeOf w = 0b0010111#7 ∨
      opcodeOf w = 0b0001111#7 ∨ w = 0x00000073#32 ∨ w = 0x00100073#32 ∨ w = 0x10500073#32 ∨
      (opcodeOf w = 0b1110011#7 ∧ funct3Of w ≠ 0b000#3 ∧ funct3Of w ≠ 0b100#3) ∨
      (opcodeOf w = 0b0110011#7 ∧ funct7Of w = 0b0000001#7)) := by
  have hlow : w &&& 3#32 = 3#32 ↔ w.extractLsb' 0 2 = 0b11#2 := and_mask_eq_iff (by decide) (by decide) (by decide)
  have hlui : w &&& 0x7F#32 = 0x37#32 ↔ opcodeOf w = 0b0110111#7 := and_mask_eq_iff (by decide) (by decide) (by decide)
  have hauipc : w &&& 0x7F#32 = 0x17#32 ↔ opcodeOf w = 0b0010111#7 :=
    and_mask_eq_iff (by decide) (by decide) (by decide)
  have hfence : w &&& 0x7F#32 = 0x0F#32 ↔ opcodeOf w = 0b0001111#7 :=
    and_mask_eq_iff (by decide) (by decide) (by decide)
  have hsystem : w &&& 0x7F#32 = 0x73#32 ↔ opcodeOf w = 0b1110011#7 :=
    and_mask_eq_iff (by decide) (by decide) (by decide)
  have hzero : w &&& 0x7000#32 = 0#32 ↔ funct3Of w = 0b000#3 := and_mask_eq_iff (by decide) (by decide) (by decide)
  have hfour : w &&& 0x7000#32 = 0x4000#32 ↔ funct3Of w = 0b100#3 := and_mask_eq_iff (by decide) (by decide) (by decide)
  rw [IsU6, ne_eq (w &&& 3#32), hlow, hlui, hauipc, hfence, hsystem, ne_eq (w &&& 0x7000#32), hzero,
    ne_eq (w &&& 0x7000#32), hfour, and_mulDiv_iff]

section classify
variable {p : Prop} [Decidable p] {r : Reject}

/-- One class of `classify`: the words that meet its test, and those that a later test takes. -/
theorem exists_ite_unlisted_iff {g₀ : UnlistedGroup} :
    (∃ g, (if p then .unlisted g₀ else r) = Reject.unlisted g) ↔ p ∨ ∃ g, r = .unlisted g := by
  by_cases hp : p <;> simp [hp]

/-- A test of `classify` for words that are illegal. -/
theorem exists_ite_illegal_iff : (∃ g, (if p then .illegal else r) = Reject.unlisted g) ↔ ¬ p ∧ ∃ g, r = .unlisted g := by
  by_cases hp : p <;> simp [hp]

theorem not_exists_illegal_eq : ¬ ∃ g, Reject.illegal = .unlisted g := by
  rintro ⟨g, h⟩
  cases h

end classify

/-- The classes of `classify` are together the list U6. -/
theorem classify_unlisted_iff {w : Word} : (∃ g, classify w = .unlisted g) ↔ IsU6 w := by
  rw [isU6_iff]
  simp only [classify, exists_ite_illegal_iff, exists_ite_unlisted_iff, not_exists_illegal_eq, or_false, ne_eq]

/-! ## No row takes a word of the list -/

/-- A word with the fixed bits of a pattern that is apart from every row matches none. -/
theorem not_match_of_apart {f : Pattern} {w : Word} (hf : ∀ k : Fin 55, f.apart specEnc.patterns[k] = true)
    (hw : w &&& f.mask = f.pattern) (k : Fin 55) :
    w &&& specEnc.patterns[k].mask ≠ specEnc.patterns[k].pattern :=
  Pattern.not_both_of_apart (hf k) hw

/-- Every row fixes the two lowest bits, to 1. -/
theorem low_of_match {w : Word} {k : Fin 55} (h : w &&& specEnc.patterns[k].mask = specEnc.patterns[k].pattern) :
    w &&& 3#32 = 3#32 := by
  have hrows : ∀ k : Fin 55, specEnc.patterns[k].mask.extractLsb' 0 2 = BitVec.allOnes 2 ∧
      specEnc.patterns[k].pattern.extractLsb' 0 2 = 0b11#2 := by decide
  obtain ⟨hmask, hpattern⟩ := hrows k
  exact (and_mask_eq_iff (by decide) (by decide) (by decide)).2 ((extractLsb'_of_match hmask h).trans hpattern)

/-- A row that a word with the system opcode matches fixes `funct3` to 0: it is MRET's. -/
theorem funct3_of_match_system {w : Word} {k : Fin 55} (hop : w &&& 0x7F#32 = 0x73#32)
    (h : w &&& specEnc.patterns[k].mask = specEnc.patterns[k].pattern) : w &&& 0x7000#32 = 0#32 := by
  have hrows : ∀ k : Fin 55, (Pattern.mk 0x7F#32 0x73#32).apart specEnc.patterns[k] = true ∨
      specEnc.patterns[k].mask.extractLsb' 12 3 = BitVec.allOnes 3 ∧
      specEnc.patterns[k].pattern.extractLsb' 12 3 = 0b000#3 := by decide
  rcases hrows k with hapart | ⟨hmask, hpattern⟩
  · exact absurd h (Pattern.not_both_of_apart hapart hop)
  · exact (and_mask_eq_iff (by decide) (by decide) (by decide)).2 ((extractLsb'_of_match hmask h).trans hpattern)

/-- No row of the table takes a word of the list. -/
theorem not_match_of_isU6 {w : Word} (hw : IsU6 w) (k : Fin 55) :
    w &&& specEnc.patterns[k].mask ≠ specEnc.patterns[k].pattern := by
  obtain ⟨-, hlow | hlui | hauipc | hfence | rfl | rfl | rfl | ⟨hop, hfunct3, -⟩ | hmulDiv⟩ := hw
  · exact fun h => hlow (low_of_match h)
  · exact not_match_of_apart (f := ⟨0x7F#32, 0x37#32⟩) (by decide) hlui k
  · exact not_match_of_apart (f := ⟨0x7F#32, 0x17#32⟩) (by decide) hauipc k
  · exact not_match_of_apart (f := ⟨0x7F#32, 0x0F#32⟩) (by decide) hfence k
  · revert k; decide
  · revert k; decide
  · revert k; decide
  · exact fun h => hfunct3 (funct3_of_match_system hop h)
  · exact not_match_of_apart (f := ⟨0xFE00007F#32, 0x02000033#32⟩) (by decide) hmulDiv k

/-- Settles O6: the decoder classifies a word exactly when no row takes it, and no row takes a word of the list. -/
theorem unlistedClassIsExact : Obligations.UnlistedClassIsExact := by
  have hrows : ∀ w : Word, IsU6 w → ∀ r ∈ opcodeTable, w &&& r.mask ≠ r.pattern := by
    intro w hw r hr
    obtain ⟨k, rfl⟩ := Enc.exists_of_mem_rows hr
    exact not_match_of_isU6 hw k
  refine ⟨fun w => ?_, hrows⟩
  rw [decode]
  rcases specEnc.decode_cases w with ⟨r, hr, hmatch, hdec⟩ | ⟨-, hdec⟩
  · have hnot : ¬ IsU6 w := fun hw => hrows w hw r hr hmatch
    simp [hdec, hnot]
  · simp only [hdec, Except.error.injEq, classify_unlisted_iff]

end Sys2Proof.Machine
end

section
/-! SUPPORT. Loads of a byte that holds no value (93_implementation_defined.md U9; notes/assumptions/4.md). -/

namespace Sys2Proof.Machine

/-- An access of which one byte, the first or a later one, holds no value has no value. -/
theorem Memory.readLE_eq_none {m : Memory} {w : Width} {a : Word} {i : Nat} (hi : i < w.bytes)
    (h : m.read (byteAddr a i) = none) : m.readLE w a = none := by
  cases w with
  | byte =>
    obtain rfl : i = 0 := Nat.lt_one_iff.1 hi
    rw [Memory.readLE, h, Option.map_none]
  | half =>
    have hhalf : m.readHalf a = none := by
      have hi2 : i < 2 := hi
      unfold Memory.readHalf
      split
      · next h0 h1 => interval_cases i <;> simp [*] at h
      · rfl
    rw [Memory.readLE, hhalf, Option.map_none]
  | word => exact Memory.readWord_eq_none (mem_byteAddrs.2 ⟨i, hi, rfl⟩) h

/-- A load that the checks allow at its own address faults there when a byte of it holds no value. -/
theorem load_of_lacks {s : State} {w : Width} {ext : Word → Word} {rd : Reg} {ea : Word} {i : Nat}
    (ha : ea.toNat % w.bytes = 0) (hv : validAccess s.params (.load w) ea = true) (hi : i < w.bytes)
    (h : s.mem.read (byteAddr ea i) = none) : s.load w ext rd ea = .fault (.unwrittenLoad ea) :=
  load_of_unwritten (resolveAccess_go (isAligned_eq_true ha) hv) (Memory.readLE_eq_none hi h)

/-- Settles O38: each of the five instructions is a load at `x[rs1] + imm`, where it is allowed and has no value to read. -/
theorem unwrittenLoadFaults : Obligations.UnwrittenLoadFaults := by
  intro s rd rs1 imm
  refine ⟨fun hv hread => ?byte, fun ha hv ⟨i, hi, hread⟩ => ?half, fun ha hv ⟨i, hi, hread⟩ => ?word⟩
  case byte =>
    rw [← byteAddr_zero] at hread
    exact ⟨load_of_lacks (Nat.mod_one _) hv Nat.one_pos hread, load_of_lacks (Nat.mod_one _) hv Nat.one_pos hread⟩
  case half => exact ⟨load_of_lacks ha hv hi hread, load_of_lacks ha hv hi hread⟩
  case word => exact load_of_lacks ha hv hi hread

end Sys2Proof.Machine
end

section
/-! SUPPORT. The spec's encoding as one `ENC` (30_encoding.md R61 to R79): the words written from the fields of R76 to R79
are its words, so the round trips and the table are those of any `ENC`; and the words that no row takes (R80). -/

namespace Sys2Proof.Machine

/-! ## A layout is its fixed fields and its operand fields -/

section layouts
variable (rs3 rs2 rs1 rd : Reg) (imm : Word) (f7 : BitVec 7) (f3 : BitVec 3) (f2 : BitVec 2) (op : BitVec 7)

theorem layoutR_eq_or : layoutR f7 rs2 rs1 f3 rd op = layoutR f7 0 0 f3 0 op ||| layoutR 0 rs2 rs1 0 rd 0 := by
  apply BitVec.eq_of_getLsbD_eq
  intro i hi
  simp only [layoutR, fieldOf, BitVec.getLsbD_or, BitVec.getLsbD_append]
  interval_cases i <;> simp

theorem layoutI_eq_or : layoutI imm rs1 f3 rd op = layoutI 0 0 f3 0 op ||| layoutI imm rs1 0 rd 0 := by
  apply BitVec.eq_of_getLsbD_eq
  intro i hi
  simp only [layoutI, fieldOf, BitVec.getLsbD_or, BitVec.getLsbD_append]
  interval_cases i <;> simp

theorem layoutS_eq_or : layoutS imm rs2 rs1 f3 op = layoutS 0 0 0 f3 op ||| layoutS imm rs2 rs1 0 0 := by
  apply BitVec.eq_of_getLsbD_eq
  intro i hi
  simp only [layoutS, fieldOf, BitVec.getLsbD_or, BitVec.getLsbD_append]
  interval_cases i <;> simp

theorem layoutB_eq_or : layoutB imm rs2 rs1 f3 op = layoutB 0 0 0 f3 op ||| layoutB imm rs2 rs1 0 0 := by
  apply BitVec.eq_of_getLsbD_eq
  intro i hi
  simp only [layoutB, fieldOf, BitVec.getLsbD_or, BitVec.getLsbD_append]
  interval_cases i <;> simp

theorem layoutJ_eq_or : layoutJ imm rd op = layoutJ 0 0 op ||| layoutJ imm rd 0 := by
  apply BitVec.eq_of_getLsbD_eq
  intro i hi
  simp only [layoutJ, fieldOf, BitVec.getLsbD_or, BitVec.getLsbD_append]
  interval_cases i <;> simp

/-- R4-type: the operand `rs3` at bit 27 beside the fields of R-type (30_encoding.md R66). -/
theorem layoutR4_eq_or : layoutR4 rs3 f2 rs2 rs1 f3 rd op =
    layoutR4 0 f2 0 0 f3 0 op ||| (layoutR 0 rs2 rs1 0 rd 0 ||| (Slice.mk 27 5).put ((fieldOf rs3).setWidth 32)) := by
  apply BitVec.eq_of_getLsbD_eq
  intro i hi
  simp only [layoutR4, layoutR, fieldOf, Slice.getLsbD_put, BitVec.getLsbD_or, BitVec.getLsbD_append,
    BitVec.getLsbD_setWidth]
  interval_cases i <;> simp

/-- I4-type: the immediate in the two fields of the spec beside the fields of R-type (30_encoding.md R67). -/
theorem layoutI4_eq_or : layoutI4 imm rs2 rs1 rd op =
    layoutI4 0 0 0 0 op ||| (layoutR 0 rs2 rs1 0 rd 0 ||| scatter imm [⟨25, 7⟩, ⟨12, 3⟩]) := by
  apply BitVec.eq_of_getLsbD_eq
  intro i hi
  simp only [layoutI4, layoutR, fieldOf, scatter, totalWidth, Slice.getLsbD_put, BitVec.getLsbD_or,
    BitVec.getLsbD_append, BitVec.getLsbD_ushiftRight, BitVec.getLsbD_extractLsb']
  interval_cases i <;> simp

end layouts

/-! ## The words of the spec's encoding -/

theorem specEnc_holds (i : Instr) : specEnc.holds i = i.wellFormed := rfl

/-- An instruction whose word is its row's pattern beside its operand bits has the word of the spec's `ENC`. -/
theorem specEnc_encode_of_eq_or {i : Instr} {fixed operands : Word} (hword : encode i = fixed ||| operands)
    (hfixed : specEnc.patterns[i.row].pattern = fixed) (hoperands : specEnc.operandBits i = operands) :
    specEnc.encode i = encode i := by
  rw [hword, Enc.encode, ← hfixed, hoperands]

/-- The word of an instruction, written from the fields of R76 to R79, is its row's pattern and its operand bits. -/
theorem specEnc_encode (i : Instr) : specEnc.encode i = encode i := by
  cases i
  case add | sub | and | or | xor | sll | srl | sra | slt | sltu | add4 | sub4 | mul4 | and4 | or4 | xor4 | shift4
    | add2 | sub2 | mul2 | clip | circularAddr | slli | srli | srai | sat | round | bitReverse =>
    exact specEnc_encode_of_eq_or (layoutR_eq_or ..) rfl rfl
  case addi | subi | andi | ori | xori | slti | sltiu | lb | lh | lw | lbu | lhu | jalr =>
    exact specEnc_encode_of_eq_or (layoutI_eq_or ..) rfl rfl
  case sb | sh | sw => exact specEnc_encode_of_eq_or (layoutS_eq_or ..) rfl rfl
  case beq | bne | blt | bge | bltu | bgeu => exact specEnc_encode_of_eq_or (layoutB_eq_or ..) rfl rfl
  case jal => exact specEnc_encode_of_eq_or (layoutJ_eq_or ..) rfl rfl
  case mac | macu => exact specEnc_encode_of_eq_or (layoutR4_eq_or ..) rfl rfl
  case maci => exact specEnc_encode_of_eq_or (layoutI4_eq_or ..) rfl rfl
  case mret => decide

/-- Settles O58: the conditions are checks on the 55 patterns and the two open places, and the words agree layout by
layout. -/
theorem specEncodingIsOne : Obligations.SpecEncodingIsOne :=
  ⟨by decide, specEnc_exact, fun i => ⟨specEnc_holds i, specEnc_encode i⟩, rfl⟩

/-! ## The round trips -/

/-- A word laid out in memory, lowest byte first, decodes as the word. -/
theorem decodeBytes_byteOf (w : Word) : decodeBytes (byteOf w 0) (byteOf w 1) (byteOf w 2) (byteOf w 3) = decode w := by
  rw [decodeBytes, wordOfBytes_byteOf]

/-- Settles O1: `encode` gives the words of the spec's `ENC`, which has a word for every well-formed instruction and reads
it back. -/
theorem decodeEncodeRoundTrip : Obligations.DecodeEncodeRoundTrip := by
  intro i hi
  have hword : decode (encode i) = .ok i := by
    rw [← specEnc_encode]
    exact specEnc_isEncoding.decode_encode ((specEnc_holds i).trans hi)
  exact ⟨hword, (decodeBytes_byteOf _).trans hword⟩

/-- Settles O2: in the spec's `ENC` every bit of a word is a fixed bit or an operand bit. -/
theorem encodeDecodeRoundTrip : Obligations.EncodeDecodeRoundTrip := by
  intro w i h
  obtain ⟨hholds, hword⟩ := specEnc_isEncoding.encode_of_decode specEnc_exact h
  exact ⟨(specEnc_holds i).symm.trans hholds, (specEnc_encode i).symm.trans hword⟩

/-- Settles O3: the mnemonics are read off the table, a word matches the pattern of one place of the table at most, and
what a match and no match decode to holds under every encoding. -/
theorem opcodeTableIsUnambiguous : Obligations.OpcodeTableIsUnambiguous := by
  obtain ⟨-, hmatch, hnone, -⟩ := everyEncodingRoundTrips specEnc (by decide)
  refine ⟨specEnc.rows_length, by decide, fun r hr q hq w hwr hwq => ?_, hmatch, hnone⟩
  obtain ⟨j, rfl⟩ := Enc.exists_of_mem_rows hr
  obtain ⟨k, rfl⟩ := Enc.exists_of_mem_rows hq
  rw [specEnc_isEncoding.match_unique hwr hwq]

/-- Settles O4: fourteen words, each decoded by the table. -/
theorem sampleWordsDecode : Obligations.SampleWordsDecode := by
  unfold Obligations.SampleWordsDecode
  decide

/-! ## Words that match no row (30_encoding.md R80) -/

/-- A word that matches no row of an `ENC` decodes to its class. -/
theorem decode_of_no_match {e : Enc} {w : Word} (h : ∀ r ∈ e.rows, w &&& r.mask ≠ r.pattern) :
    e.decode w = .error (classify w) := by
  rcases e.decode_cases w with ⟨r, hr, hmatch, -⟩ | ⟨-, hdec⟩
  · exact absurd hmatch (h r hr)
  · exact hdec

/-- A word outside the list U6 is of the class that raises. -/
theorem classify_of_not_isU6 {w : Word} (h : ¬ IsU6 w) : classify w = .illegal := by
  cases hc : classify w with
  | illegal => rfl
  | unlisted g => exact absurd (classify_unlisted_iff.1 ⟨g, hc⟩) h

/-- The step on a word that is no instruction, where the word is to raise, is an Illegal Instruction trap. -/
theorem step_illegal_of_reject {s : State} {w : Word} {r : Reject} (hf : s.fetch = .word w)
    (hd : s.params.enc.decode w = .error r) (hr : r = .illegal ∨ s.params.unlistedWords = .trap) :
    ∃ t, step s = .next t ∧ Traps s t .illegalInstruction :=
  ⟨_, (step_of_fetch_reject hf hd).trans (reject_raises hr), raise_traps s _⟩

/-- A word of the class U6 is refused by name where the parameter says so. -/
theorem reject_refused {s : State} (g : UnlistedGroup) (hp : s.params.unlistedWords = .refuse) :
    s.reject (.unlisted g) = .refused (.unlistedWord g) := by
  rw [State.reject, hp]

theorem step_refused_of_unlisted {s : State} {w : Word} {g : UnlistedGroup} (hf : s.fetch = .word w)
    (hd : s.params.enc.decode w = .error (.unlisted g)) (hp : s.params.unlistedWords = .refuse) :
    step s = .refused (.unlistedWord g) :=
  (step_of_fetch_reject hf hd).trans (reject_refused g hp)

/-- Settles O5: a word that matches no row is classified, and the class and the parameter say what becomes of it. -/
theorem unmatchedWordTrapsOrIsRefused : Obligations.UnmatchedWordTrapsOrIsRefused := by
  refine ⟨fun s w hf hnone => ?unmatched, fun s henc hf => ?fixedWords⟩
  case unmatched =>
    have hd := decode_of_no_match hnone
    refine ⟨fun hw => ?_, fun hp => step_illegal_of_reject hf hd (.inr hp), fun hw hp => ?_⟩
    · exact step_illegal_of_reject hf hd (.inl (classify_of_not_isU6 hw))
    · obtain ⟨g, hg⟩ := classify_unlisted_iff.2 hw
      exact ⟨g, step_refused_of_unlisted hf (hg ▸ hd) hp⟩
  case fixedWords =>
    have hzero : specEnc.decode 0x00000000#32 = .error .illegal := by decide
    have hones : specEnc.decode 0xFFFFFFFF#32 = .error .illegal := by decide
    rcases hf with hf | hf
    · exact step_illegal_of_reject hf (henc ▸ hzero) (.inl rfl)
    · exact step_illegal_of_reject hf (henc ▸ hones) (.inl rfl)

end Sys2Proof.Machine
end

section
/-! SUPPORT. Which registers, bytes and trap registers an instruction or a step can write (10_state.md R21, R27, R28, R31),
and the invariants at reset (R33). -/

namespace Sys2Proof.Machine

/-! ## What an instruction writes, with its kind -/

/-- The shapes of a next state of `i`: its destination register and the pc, a store if it is one, or a trap. Beside
`NextShape` this names the register and says which instructions store. -/
def ExecShape (i : Instr) (s t : State) : Prop :=
  (∃ rd v x, (rd = 0 ∨ destOf i = some rd) ∧ t = (s.writeReg rd v).setPc x) ∨
    (IsStore i ∧ ∃ w a v, t = s.storeAt w a v) ∨ ∃ c, t = s.raise c

section shapes
variable {i : Instr} {s t : State} {rd : Reg}

theorem execShape_setPc (i : Instr) (s : State) (x : Word) : ExecShape i s (s.setPc x) :=
  .inl ⟨0, 0#32, x, .inl rfl, by simp⟩

theorem execShape_finish (hdest : destOf i = some rd) (s : State) (v : Word) : ExecShape i s (s.finish rd v) :=
  .inl ⟨rd, v, s.pc + 4#32, .inr hdest, s.finish_eq rd v⟩

theorem execShape_raise (i : Instr) (s : State) (c : Cause) : ExecShape i s (s.raise c) := .inr (.inr ⟨c, rfl⟩)

theorem execShape_link {target : Word} (hdest : destOf i = some rd) (h : linkAndJump rd target s = .next t) :
    ExecShape i s t := by
  obtain rfl := Host.Outcome.next.inj h
  exact .inl ⟨rd, s.nextPc, target, .inr hdest, rfl⟩

theorem execShape_load {w : Width} {ext : Word → Word} {ea : Word} (hdest : destOf i = some rd)
    (h : s.load w ext rd ea = .next t) : ExecShape i s t := by
  rcases load_next_cases h with ⟨_, v, -, -, rfl⟩ | ⟨-, rfl⟩
  · exact execShape_finish hdest s _
  · exact execShape_raise i s _

theorem execShape_store {w : Width} {ea v : Word} (hi : IsStore i) (h : s.store w ea v = .next t) :
    ExecShape i s t := by
  rcases store_next_cases h with ⟨a, -, rfl⟩ | ⟨-, rfl⟩
  · exact .inr (.inl ⟨hi, w, a, v, rfl⟩)
  · exact execShape_raise i s _

/-- An instruction that finishes with a value or takes Arithmetic Overflow, by some test. -/
theorem execShape_finish_or_raise {p : Prop} [Decidable p] {v : Word} (hdest : destOf i = some rd)
    (h : (.next (if p then s.raise .arithmeticOverflow else s.finish rd v) : Result) = .next t) : ExecShape i s t := by
  obtain rfl := Host.Outcome.next.inj h
  split
  · exact execShape_raise i s _
  · exact execShape_finish hdest s v

theorem execShape_macFinish {fits : Int → Bool} {e : Int} (hdest : destOf i = some rd)
    (h : macFinish fits rd e s = .next t) : ExecShape i s t := by
  rcases macFinish_cases fits rd e s with ⟨-, h'⟩ | ⟨-, h'⟩ <;> obtain rfl := Host.Outcome.next.inj (h.symm.trans h')
  · exact execShape_finish hdest s _
  · exact execShape_raise i s _

theorem execShape_shift4 {rs1 rs2 : Reg} (hdest : destOf i = some rd) (h : execShift4 rd rs1 rs2 s = .next t) :
    ExecShape i s t := by
  cases hfn : Config.shift4Fn (s.readReg rs1) (s.readReg rs2) with
  | some r =>
    obtain rfl := Host.Outcome.next.inj (h.symm.trans (exec_shift4_of_some hfn rd))
    exact execShape_finish hdest s r
  | none =>
    obtain rfl := Host.Outcome.next.inj (h.symm.trans (exec_shift4_of_none hfn rd))
    exact execShape_raise i s _

end shapes

/-- Everything an instruction that answers a next state can have done, by its kind. -/
theorem exec_next_execShape {i : Instr} {s t : State} (h : exec i s = .next t) : ExecShape i s t := by
  cases i
  case lb | lh | lw | lbu | lhu => exact execShape_load rfl h
  case sb rs1 rs2 imm | sh rs1 rs2 imm | sw rs1 rs2 imm => exact execShape_store ⟨rs1, rs2, imm, by simp⟩ h
  case mac | maci | macu => exact execShape_macFinish rfl h
  case add4 | sub4 | mul4 | add2 | sub2 | mul2 => exact execShape_finish_or_raise rfl h
  case shift4 => exact execShape_shift4 rfl h
  case beq | bne | blt | bge | bltu | bgeu | mret => injection h with h; subst h; exact execShape_setPc _ s _
  case jal | jalr => exact execShape_link rfl h
  all_goals injection h with h; subst h; exact execShape_finish rfl s _

/-- Settles O25: without the stores, an instruction writes a register and the pc, or is a trap entry. -/
theorem onlyStoresChangeMemory : Obligations.OnlyStoresChangeMemory := by
  intro i s t hi h
  rcases exec_next_execShape h with ⟨rd, v, x, -, rfl⟩ | ⟨hstore, -⟩ | ⟨c, rfl⟩
  · exact ⟨fun a => by simp, by simp⟩
  · exact absurd hstore hi
  · exact ⟨fun _ => rfl, State.raise_stored s c⟩

/-- A write to `rd` is seen in no other register, and not in `x0`. -/
theorem readReg_writeReg_other (s : State) {rd r : Reg} (v : Word) (h : r = 0 ∨ r ≠ rd) :
    (s.writeReg rd v).readReg r = s.readReg r := by
  rw [State.readReg_writeReg]
  exact if_neg fun ⟨heq, hne⟩ => h.elim (fun h0 => hne (heq ▸ h0)) (fun h => h heq)

/-- Settles O26: the one register an instruction writes is its destination, and a write to `x0` is discarded. -/
theorem onlyDestinationRegisterChanges : Obligations.OnlyDestinationRegisterChanges := by
  intro i s t h r hr
  rcases exec_next_execShape h with ⟨rd, v, x, hrd, rfl⟩ | ⟨-, w, a, v, rfl⟩ | ⟨c, rfl⟩
  · rw [State.setPc_readReg]
    rcases hrd with rfl | hdest
    · rw [State.writeReg_zero]
    · exact readReg_writeReg_other s v (hr.imp_right fun hne heq => hne (heq ▸ hdest))
  · exact State.storeAt_readReg s w a v r
  · exact State.raise_readReg s c r

/-! ## What a step does to the trap registers -/

/-- A step leaves the trap registers, or is a trap entry that is no Division by Zero. -/
theorem NextShape.sameTrapRegs_or_raise {s t : State} (h : NextShape s t) :
    SameTrapRegs s t ∨ ∃ c, c ≠ .divisionByZero ∧ t = s.raise c := by
  rcases h with ⟨rd, v, x, rfl⟩ | ⟨w, a, v, rfl⟩ | htrap
  · exact .inl (sameTrapRegs_link s rd v x)
  · exact .inl ⟨State.storeAt_mcause s w a v, State.storeAt_mepc s w a v⟩
  · exact .inr htrap

/-- Settles O15: of the shapes of a next state only trap entry writes the trap registers. -/
theorem onlyTrapsWriteTrapRegisters : Obligations.OnlyTrapsWriteTrapRegisters := by
  intro s t h
  rcases (step_next_shape h).sameTrapRegs_or_raise with hsame | ⟨c, hc, rfl⟩
  · exact .inl hsame
  · exact .inr ⟨c, hc, raise_traps s c⟩

/-- While misaligned fetches are refused, only a step at an aligned pc answers a next state. -/
theorem pc_aligned_of_step_next {s t : State} (hp : s.params.misalignedFetch = .refuse) (h : step s = .next t) :
    isAligned s.pc 4 = true := by
  by_contra hpc
  have hrefused := step_misaligned_refuse hp (mt isAligned_four_iff.2 hpc)
  rw [h] at hrefused
  cases hrefused

/-- Settles O20: `mepc` is as before, or it is the pc of a step whose fetch was aligned. -/
theorem mepcStaysAligned : Obligations.MepcStaysAligned := by
  intro s t ⟨hp, hmepc⟩ h
  have hshape := step_next_shape h
  obtain ⟨hparams, -⟩ := hshape.params_image
  refine ⟨by rw [hparams, hp], ?_⟩
  rcases hshape.sameTrapRegs_or_raise with ⟨-, hsame⟩ | ⟨c, -, rfl⟩
  · rwa [hsame]
  · rw [State.raise_mepc]
    exact pc_aligned_of_step_next hp h

/-! ## Reset -/

/-- After reset memory is the image and nothing is stored to, so the canonical form of the one is that of all three. -/
theorem canonical_resetWith (p : Params) (pc : Word) {m : Memory} (hm : m.wf) : (State.resetWith p pc m).Canonical :=
  ⟨hm, hm, List.Pairwise.nil, fun _ hx => absurd hx List.not_mem_nil⟩

theorem unstoredAsImage_resetWith (p : Params) (pc : Word) (m : Memory) : (State.resetWith p pc m).UnstoredAsImage :=
  fun _ _ => rfl

/-- No byte listed is a canonical memory. -/
theorem wf_nil : Memory.wf [] := ⟨List.Pairwise.nil, fun _ hc => absurd hc List.not_mem_nil⟩

/-- Settles O23: `mepc` is 0 after reset, and the other two hold of every reset with a canonical image. -/
theorem invariantsHoldAtReset : Obligations.InvariantsHoldAtReset :=
  ⟨⟨rfl, rfl⟩, canonical_resetWith _ _ wf_nil, unstoredAsImage_resetWith _ _ _,
    fun p pc m hm => ⟨canonical_resetWith p pc hm, unstoredAsImage_resetWith p pc m⟩⟩

/-- Settles O29: each field is what reset is given. -/
theorem resetLeaves : Obligations.ResetLeaves := fun p pc m =>
  ⟨State.readReg_zero _, State.resetWith_pc p pc m, fun _ => rfl, State.resetWith_params p pc m, rfl⟩

end Sys2Proof.Machine
end

section
/-! SUPPORT. Two states that differ in `mcause` or `mepc` only, side by side over an instruction and over a step
(10_state.md R27, R28; 60_exceptions.md R244). -/

namespace Sys2Proof.Machine

/-! ## A state with other trap registers -/

/-- `s` with `mcause` and `mepc` overwritten by the values that are given. -/
def State.overwriteTrapRegs (c e : Option Word) (s : State) : State :=
  { s with mcause := c.getD s.mcause, mepc := e.getD s.mepc }

section overwrite
variable (c e : Option Word) (s : State)

theorem State.overwriteTrapRegs_twice :
    (s.overwriteTrapRegs c e).overwriteTrapRegs c e = s.overwriteTrapRegs c e := by
  cases c <;> cases e <;> rfl

/-- Trap entry writes both trap registers, so it forgets what they held. -/
theorem State.overwriteTrapRegs_raise (k : Cause) :
    ((s.overwriteTrapRegs c e).raise k).overwriteTrapRegs c e = (s.raise k).overwriteTrapRegs c e := by
  cases c <;> cases e <;> rfl

theorem State.overwriteTrapRegs_writeReg (rd : Reg) (v : Word) :
    (s.overwriteTrapRegs c e).writeReg rd v = (s.writeReg rd v).overwriteTrapRegs c e := by
  unfold State.writeReg
  split <;> rfl

theorem State.overwriteTrapRegs_setPc (x : Word) :
    (s.overwriteTrapRegs c e).setPc x = (s.setPc x).overwriteTrapRegs c e := rfl

theorem State.overwriteTrapRegs_finish (rd : Reg) (v : Word) :
    (s.overwriteTrapRegs c e).finish rd v = (s.finish rd v).overwriteTrapRegs c e := by
  rw [State.finish_eq, State.finish_eq, State.overwriteTrapRegs_writeReg, State.overwriteTrapRegs_setPc]
  rfl

theorem State.overwriteTrapRegs_storeAt (w : Width) (a v : Word) :
    (s.overwriteTrapRegs c e).storeAt w a v = (s.storeAt w a v).overwriteTrapRegs c e := rfl

theorem State.overwriteTrapRegs_fetch : (s.overwriteTrapRegs c e).fetch = s.fetch := fetch_congr rfl rfl rfl rfl rfl

end overwrite

/-! ## Outcomes that agree but for the trap registers -/

/-- Two outcomes are alike: next states that differ at most in the trap registers that are overwritten, or the same stop. -/
def AgreeUpTo (c e : Option Word) : Result → Result → Prop
  | .next t, .next u => t.overwriteTrapRegs c e = u.overwriteTrapRegs c e
  | .fault f, .fault g => f = g
  | .refused f, .refused g => f = g
  | _, _ => False

section agree
variable {c e : Option Word} {s : State}

/-- Next states agree when the one is the other with its trap registers overwritten. -/
theorem agree_of_overwrite {t u : State} (h : u = t.overwriteTrapRegs c e) : AgreeUpTo c e (.next t) (.next u) := by
  subst h
  exact (t.overwriteTrapRegs_twice c e).symm

theorem agree_finish (rd : Reg) (v : Word) :
    AgreeUpTo c e (.next (s.finish rd v)) (.next ((s.overwriteTrapRegs c e).finish rd v)) :=
  agree_of_overwrite (s.overwriteTrapRegs_finish c e rd v)

theorem agree_raise (k : Cause) : AgreeUpTo c e (.next (s.raise k)) (.next ((s.overwriteTrapRegs c e).raise k)) :=
  (s.overwriteTrapRegs_raise c e k).symm

theorem agree_setPc (x : Word) : AgreeUpTo c e (.next (s.setPc x)) (.next ((s.overwriteTrapRegs c e).setPc x)) :=
  agree_of_overwrite (s.overwriteTrapRegs_setPc c e x)

theorem agree_linkAndJump (rd : Reg) (x : Word) :
    AgreeUpTo c e (linkAndJump rd x s) (linkAndJump rd x (s.overwriteTrapRegs c e)) := by
  apply agree_of_overwrite
  exact congrArg (State.setPc · x) (s.overwriteTrapRegs_writeReg c e rd s.nextPc)

/-- A finish or a trap by a test of the operands alone. -/
theorem agree_ite {p : Prop} [Decidable p] {t u t' u' : State} (ht : AgreeUpTo c e (.next t) (.next t'))
    (hu : AgreeUpTo c e (.next u) (.next u')) :
    AgreeUpTo c e (.next (if p then t else u)) (.next (if p then t' else u')) := by
  split
  · exact ht
  · exact hu

theorem agree_load (w : Width) (ext : Word → Word) (rd : Reg) (ea : Word) :
    AgreeUpTo c e (s.load w ext rd ea) ((s.overwriteTrapRegs c e).load w ext rd ea) := by
  cases hr : resolveAccess s.params (.load w) ea with
  | refuse =>
    rw [load_of_refuse hr, load_of_refuse (s := s.overwriteTrapRegs c e) hr]
    rfl
  | accessFault =>
    rw [load_of_accessFault hr, load_of_accessFault (s := s.overwriteTrapRegs c e) hr]
    exact agree_raise _
  | go a =>
    cases hv : s.mem.readLE w a with
    | none =>
      rw [load_of_unwritten hr hv, load_of_unwritten (s := s.overwriteTrapRegs c e) hr hv]
      rfl
    | some v =>
      rw [load_of_go hr hv, load_of_go (s := s.overwriteTrapRegs c e) hr hv]
      exact agree_finish rd _

theorem agree_store (w : Width) (ea v : Word) :
    AgreeUpTo c e (s.store w ea v) ((s.overwriteTrapRegs c e).store w ea v) := by
  cases hr : resolveAccess s.params (.store w) ea with
  | refuse =>
    rw [store_of_refuse hr, store_of_refuse (s := s.overwriteTrapRegs c e) hr]
    rfl
  | accessFault =>
    rw [store_of_accessFault hr, store_of_accessFault (s := s.overwriteTrapRegs c e) hr]
    exact agree_raise _
  | go a =>
    rw [store_of_go hr, store_of_go (s := s.overwriteTrapRegs c e) hr]
    exact agree_of_overwrite (s.overwriteTrapRegs_storeAt c e w a v)

theorem agree_shift4 (rd rs1 rs2 : Reg) :
    AgreeUpTo c e (exec (.shift4 rd rs1 rs2) s) (exec (.shift4 rd rs1 rs2) (s.overwriteTrapRegs c e)) := by
  cases hfn : Config.shift4Fn (s.readReg rs1) (s.readReg rs2) with
  | some r =>
    rw [exec_shift4_of_some hfn, exec_shift4_of_some (s := s.overwriteTrapRegs c e) hfn]
    exact agree_finish rd r
  | none =>
    rw [exec_shift4_of_none hfn, exec_shift4_of_none (s := s.overwriteTrapRegs c e) hfn]
    exact agree_raise _

theorem agree_reject (r : Reject) : AgreeUpTo c e (s.reject r) ((s.overwriteTrapRegs c e).reject r) := by
  cases r with
  | illegal => exact agree_raise _
  | unlisted g =>
    cases hp : s.params.unlistedWords with
    | refuse =>
      rw [reject_refused g hp, reject_refused (s := s.overwriteTrapRegs c e) g hp]
      rfl
    | trap =>
      rw [reject_raises (.inr hp), reject_raises (s := s.overwriteTrapRegs c e) (.inr hp)]
      exact agree_raise _

end agree

/-- An instruction reads no trap register, but for MRET, which reads `mepc`. -/
theorem exec_agree {i : Instr} {c e : Option Word} (s : State) (h : i ≠ .mret ∨ e = none) :
    AgreeUpTo c e (exec i s) (exec i (s.overwriteTrapRegs c e)) := by
  cases i
  case lb | lh | lw | lbu | lhu => exact agree_load _ _ _ _
  case sb | sh | sw => exact agree_store _ _ _
  case mac | maci | macu => exact agree_ite (agree_finish _ _) (agree_raise _)
  case add4 | sub4 | mul4 | add2 | sub2 | mul2 => exact agree_ite (agree_raise _) (agree_finish _ _)
  case shift4 => exact agree_shift4 _ _ _
  case beq | bne | blt | bge | bltu | bgeu => exact agree_setPc _
  case jal | jalr => exact agree_linkAndJump _ _
  case mret =>
    obtain rfl := h.resolve_left (absurd rfl)
    exact agree_setPc s.mepc
  all_goals exact agree_finish _ _

/-- A step reads no `mcause`: its fetch and its decoder read neither trap register, and MRET reads the other one. -/
theorem step_agree (c : Option Word) (s : State) : AgreeUpTo c none (step s) (step (s.overwriteTrapRegs c none)) := by
  have hfetch := s.overwriteTrapRegs_fetch c none
  cases hf : s.fetch with
  | word w =>
    have hf' := hfetch.trans hf
    cases hd : s.params.enc.decode w with
    | ok i =>
      rw [step_of_fetch_decode hf hd, step_of_fetch_decode hf' hd]
      exact exec_agree s (.inr rfl)
    | error r =>
      rw [step_of_fetch_reject hf hd, step_of_fetch_reject hf' hd]
      exact agree_reject r
  | raise k =>
    rw [step_of_fetch_raise hf, step_of_fetch_raise (hfetch.trans hf)]
    exact agree_raise k
  | fault f =>
    rw [step_of_fetch_fault hf, step_of_fetch_fault (hfetch.trans hf)]
    rfl
  | refused r =>
    rw [step_of_fetch_refused hf, step_of_fetch_refused (hfetch.trans hf)]
    rfl

/-- Settles O16: the two states side by side, one trap register overwritten in the second. -/
theorem trapRegistersReadOnlyByMret : Obligations.TrapRegistersReadOnlyByMret :=
  ⟨fun s v => step_agree (some v) s, fun _ s v hi => exec_agree (c := none) (e := some v) s (.inl hi)⟩

end Sys2Proof.Machine
end
